-- ==== Sys2Proof/Word.lean ====
section
/-! DEFINITION. The word types of the block (R9): 32-bit registers and command words, 8-bit storage bytes. -/

namespace Sys2Proof

/-- A register of the block, a command word, a sample count (R9). -/
abbrev Word := BitVec 32

/-- One byte of a BitBuffer, of PAT or of XBUF (R61). -/
abbrev Byte := BitVec 8

end Sys2Proof
end

