-- ==== Sys2Proof/Syntax.lean ====
section
/-! DEFINITION. The syntax of the block's commands: one constructor of `Instr` per row of the opcode table (R95). -/

namespace Sys2Proof

/-- The BUF field: which of the two BitBuffers a command works on (R20, R91). -/
inductive Buf where
  | b0
  | b1
deriving DecidableEq, Repr

/-- The 18 commands of R95. `row`, `rowA`, `rowB` are the 8-bit unsigned slot indices of the fields A and B (R92, R97). -/
inductive Instr where
  /-- BB_CLEAR, R120 -/
  | bbClear (buf : Buf)
  /-- BB_ADDBIT, R121 -/
  | bbAddBit (buf : Buf) (bit : Bool)
  /-- BB_ADDROW, R123 -/
  | bbAddRow (buf : Buf)
  /-- BB_ADDSYNC, R125 -/
  | bbAddSync (buf : Buf)
  /-- BB_INVERT, R140 -/
  | bbInvert (buf : Buf)
  /-- BB_NRZS, R142 -/
  | bbNrzs (buf : Buf)
  /-- BB_NRZM, R143 -/
  | bbNrzm (buf : Buf)
  /-- BB_EXTRACT, R147 -/
  | bbExtract (buf : Buf) (row : Nat)
  /-- BB_SEARCH, R150 -/
  | bbSearch (buf : Buf) (row : Nat)
  /-- BB_CMPROWS, R153 -/
  | bbCmpRows (buf : Buf) (rowA rowB : Nat)
  /-- BB_CNTREP, R155 -/
  | bbCntRep (buf : Buf) (row : Nat)
  /-- BB_FINDROW, R157 -/
  | bbFindRow (buf : Buf)
  /-- BB_FINDPFX, R158 -/
  | bbFindPfx (buf : Buf)
  /-- LD_MANCH, R171 -/
  | ldManch (buf : Buf) (row : Nat)
  /-- LD_DMANCH, R175 -/
  | ldDmanch (buf : Buf) (row : Nat)
  /-- DM_RUN, R190 -/
  | dmRun
  /-- DM_SINKRET, R214 -/
  | dmSinkRet
  /-- DM_STRING, R219 -/
  | dmString
deriving DecidableEq, Repr

end Sys2Proof
end

