-- ==== Sys2Proof/WellFormed.lean ====
section
/-! DEFINITION. Which terms of `Instr` a command word can hold: the row operands A and B are 8-bit fields (R91, R92).
Buffers and bits are well formed by their types. Whether a row exists (row < ROWS) is no matter of form: it is checked when the
command is issued (R97, R291). -/

namespace Sys2Proof

/-- An operand fits the 8-bit field A or B (R91: "unsigned 0 .. 255"). -/
abbrev fitsRowField (row : Nat) : Prop := row < 256

/-- Every row operand of the command fits its field. -/
def WellFormed : Instr → Bool
  | .bbClear _           => true
  | .bbAddBit _ _        => true
  | .bbAddRow _          => true
  | .bbAddSync _         => true
  | .bbInvert _          => true
  | .bbNrzs _            => true
  | .bbNrzm _            => true
  | .bbExtract _ row     => fitsRowField row
  | .bbSearch _ row      => fitsRowField row
  | .bbCmpRows _ ra rb   => fitsRowField ra && fitsRowField rb
  | .bbCntRep _ row      => fitsRowField row
  | .bbFindRow _         => true
  | .bbFindPfx _         => true
  | .ldManch _ row       => fitsRowField row
  | .ldDmanch _ row      => fitsRowField row
  | .dmRun               => true
  | .dmSinkRet           => true
  | .dmString            => true

end Sys2Proof
end

