-- ==== Sys2Proof/Decode.lean ====
section
/-! DEFINITION. Decoding of a command word, total on all 2^32 words and rejecting by name (R90 to R98), and the encoder. -/

namespace Sys2Proof

/-- The fields of format CMD32 (R91). Z is not kept: it must be zero. -/
structure Fields where
  opc : BitVec 8
  a   : Nat
  b   : Nat
  buf : Buf
  bit : Bool
deriving DecidableEq, Repr

/-- The buffer a BUF bit selects (R91). -/
def bufOfBit : Bool → Buf
  | false => .b0
  | true  => .b1

/-- The BUF bit of a buffer (R91). -/
def bitOfBuf : Buf → Bool
  | .b0 => false
  | .b1 => true

/-- Splits a word by the columns of R91; the operands stand as unsigned numbers (R92). -/
def fieldsOf (w : Word) : Fields where
  opc := w.extractLsb' 24 8
  a   := (w.extractLsb' 16 8).toNat
  b   := (w.extractLsb' 8 8).toNat
  buf := bufOfBit (w.getLsbD 1)
  bit := w.getLsbD 0

/-- Why a word is reserved (R94, R98). -/
inductive DecodeError where
  /-- word[31:24] is not one of the 18 opcodes of R95 -/
  | unknownOpcode (opc : BitVec 8)
  /-- the opcode is listed, but Z or a field this command does not use is nonzero -/
  | unusedFieldSet (mnemonic : String)
deriving DecidableEq, Repr

/-- One row of the table of R95. -/
structure OpcodeRow where
  mnemonic : String
  opc      : BitVec 8
  pattern  : Word
  mask     : Word
  make     : Fields → Instr

/-- The table of R95: opcode, match, mask. -/
def opcodeTable : List OpcodeRow := [
  ⟨"BB_CLEAR",   0x01, 0x01000000, 0xFFFFFFFD, fun f => .bbClear f.buf⟩,
  ⟨"BB_ADDBIT",  0x02, 0x02000000, 0xFFFFFFFC, fun f => .bbAddBit f.buf f.bit⟩,
  ⟨"BB_ADDROW",  0x03, 0x03000000, 0xFFFFFFFD, fun f => .bbAddRow f.buf⟩,
  ⟨"BB_ADDSYNC", 0x04, 0x04000000, 0xFFFFFFFD, fun f => .bbAddSync f.buf⟩,
  ⟨"BB_INVERT",  0x10, 0x10000000, 0xFFFFFFFD, fun f => .bbInvert f.buf⟩,
  ⟨"BB_NRZS",    0x11, 0x11000000, 0xFFFFFFFD, fun f => .bbNrzs f.buf⟩,
  ⟨"BB_NRZM",    0x12, 0x12000000, 0xFFFFFFFD, fun f => .bbNrzm f.buf⟩,
  ⟨"BB_EXTRACT", 0x13, 0x13000000, 0xFF00FFFD, fun f => .bbExtract f.buf f.a⟩,
  ⟨"BB_SEARCH",  0x14, 0x14000000, 0xFF00FFFD, fun f => .bbSearch f.buf f.a⟩,
  ⟨"BB_CMPROWS", 0x15, 0x15000000, 0xFF0000FD, fun f => .bbCmpRows f.buf f.a f.b⟩,
  ⟨"BB_CNTREP",  0x16, 0x16000000, 0xFF00FFFD, fun f => .bbCntRep f.buf f.a⟩,
  ⟨"BB_FINDROW", 0x17, 0x17000000, 0xFFFFFFFD, fun f => .bbFindRow f.buf⟩,
  ⟨"BB_FINDPFX", 0x18, 0x18000000, 0xFFFFFFFD, fun f => .bbFindPfx f.buf⟩,
  ⟨"LD_MANCH",   0x20, 0x20000000, 0xFF00FFFD, fun f => .ldManch f.buf f.a⟩,
  ⟨"LD_DMANCH",  0x21, 0x21000000, 0xFF00FFFD, fun f => .ldDmanch f.buf f.a⟩,
  ⟨"DM_RUN",     0x30, 0x30000000, 0xFFFFFFFF, fun _ => .dmRun⟩,
  ⟨"DM_SINKRET", 0x31, 0x31000000, 0xFFFFFFFF, fun _ => .dmSinkRet⟩,
  ⟨"DM_STRING",  0x32, 0x32000000, 0xFFFFFFFF, fun _ => .dmString⟩]

/-- Decoding in the order of R93: find the opcode's row, check the mask, take the used fields. -/
def decode (w : Word) : Except DecodeError Instr :=
  match opcodeTable.find? (fun r => r.opc == (fieldsOf w).opc) with
  | none   => .error (.unknownOpcode (fieldsOf w).opc)
  | some r => if w &&& r.mask = r.pattern then .ok (r.make (fieldsOf w)) else .error (.unusedFieldSet r.mnemonic)

/-- Lays out the fields of format CMD32 (R91), Z zero. -/
def packWord (opc a b : BitVec 8) (buf bit : Bool) : Word :=
  opc ++ a ++ b ++ (0#6) ++ BitVec.ofBool buf ++ BitVec.ofBool bit

/-- The word of a command with a buffer operand only. -/
def packBuf (opc : BitVec 8) (buf : Buf) : Word := packWord opc 0 0 (bitOfBuf buf) false

/-- The word of a command with a buffer operand and the row operand A. -/
def packRow (opc : BitVec 8) (buf : Buf) (row : Nat) : Word := packWord opc (BitVec.ofNat 8 row) 0 (bitOfBuf buf) false

/-- The word of a well-formed command (R91, R95): fields a command does not use are zero (R92). -/
def encode : Instr → Word
  | .bbClear buf           => packBuf 0x01 buf
  | .bbAddBit buf bit      => packWord 0x02 0 0 (bitOfBuf buf) bit
  | .bbAddRow buf          => packBuf 0x03 buf
  | .bbAddSync buf         => packBuf 0x04 buf
  | .bbInvert buf          => packBuf 0x10 buf
  | .bbNrzs buf            => packBuf 0x11 buf
  | .bbNrzm buf            => packBuf 0x12 buf
  | .bbExtract buf row     => packRow 0x13 buf row
  | .bbSearch buf row      => packRow 0x14 buf row
  | .bbCmpRows buf ra rb   => packWord 0x15 (BitVec.ofNat 8 ra) (BitVec.ofNat 8 rb) (bitOfBuf buf) false
  | .bbCntRep buf row      => packRow 0x16 buf row
  | .bbFindRow buf         => packBuf 0x17 buf
  | .bbFindPfx buf         => packBuf 0x18 buf
  | .ldManch buf row       => packRow 0x20 buf row
  | .ldDmanch buf row      => packRow 0x21 buf row
  | .dmRun                 => packWord 0x30 0 0 false false
  | .dmSinkRet             => packWord 0x31 0 0 false false
  | .dmString              => packWord 0x32 0 0 false false

/-- The 32-bit word whose low `nbits` bits are those of `w` and whose other bits are zero. -/
def tableWord (nbits w : Nat) : Word := BitVec.ofNat 32 (w % 2 ^ nbits)

/-- What the decoder reads from a table row's word: a command is one 32-bit word, written whole (R90). -/
def decodeTableWord (nbits w : Nat) : Option Instr :=
  match decode (tableWord nbits w) with
  | .ok i    => some i
  | .error _ => none

end Sys2Proof
end

