-- ==== Sys2Proof/Config.lean ====
section
/-! DEFINITION. The parameters a model of the block takes (R8) and the address map argument (R71), as plain data, with the
constraints the spec puts on them, the suggested defaults, and the one value the spec leaves free. -/

namespace Sys2Proof

/-- Base byte addresses of the five windows of one BitBuffer (R71). -/
structure BufferWindows where
  mem     : Nat
  bits    : Nat
  syncs   : Nat
  numRows : Nat
  freeRow : Nat
deriving DecidableEq, Repr

/-- ADDR_MAP of R71: the bases of the storage windows. The REG window stands at 0x000 to 0x0FF, where R50 fixes it. -/
structure AddrMap where
  lat     : Nat
  pat     : Nat
  xbuf    : Nat
  ptPulse : Nat
  ptGap   : Nat
  bb0     : BufferWindows
  bb1     : BufferWindows
deriving DecidableEq, Repr

/-- The parameters of R8. NBUF is fixed at 2; NFAIL and BPRW are derived. -/
structure Params where
  /-- ROWS, row slots per BitBuffer -/
  rows : Nat
  /-- COLS, bytes per row slot -/
  cols : Nat
  /-- MAXP, capacity of the PulseTrain in pairs -/
  maxp : Nat
  /-- XCAP, bytes in XBUF and in PAT -/
  xcap : Nat
  /-- FAIL_MIN, the most negative legal sink status -/
  failMin : Int
  /-- PCM_PREAMBLE_MIN -/
  pcmPreambleMin : Nat
  /-- PCM_FALLBACK_RZ -/
  pcmFallbackRz : Nat
  /-- PCM_FALLBACK_NRZ -/
  pcmFallbackNrz : Nat
  /-- PCM_TOL_DIV -/
  pcmTolDiv : Nat
  /-- ADDR_MAP (R71) -/
  addrMap : AddrMap
deriving DecidableEq, Repr

/-- NFAIL = 1 - FAIL_MIN (R8). -/
def Params.nfail (c : Params) : Nat := (1 - c.failMin).toNat

/-- BPRW = ceil(log2(ROWS * COLS * 8 + 1)), the width in bits of a `bits_per_row` entry (R8). `Nat.clog 2 n` is the least `k` with
`n ≤ 2^k`. -/
def Params.bprw (c : Params) : Nat := Nat.clog 2 (c.rows * c.cols * 8 + 1)

/-- S = 8 * COLS, the number of bits in one row slot (file 40, notation). -/
def Params.slotBits (c : Params) : Nat := 8 * c.cols

/-- The windows of one buffer lie in the order of R71, each large enough, from `lo` up to below `hi`. -/
abbrev BufferWindows.Legal (w : BufferWindows) (c : Params) (lo hi : Nat) : Prop :=
  lo ≤ w.mem ∧ w.mem + c.rows * c.cols ≤ w.bits ∧ w.bits + 4 * c.rows ≤ w.syncs ∧
  w.syncs + 4 * c.rows ≤ w.numRows ∧ w.numRows + 4 ≤ w.freeRow ∧ w.freeRow + 4 ≤ hi ∧
  w.bits % 4 = 0 ∧ w.syncs % 4 = 0 ∧ w.numRows % 4 = 0 ∧ w.freeRow % 4 = 0

/-- "the same order and no overlap" (R71), and word-aligned bases for the windows accessed as words (R67). -/
abbrev AddrMap.Legal (m : AddrMap) (c : Params) : Prop :=
  0x100 ≤ m.lat ∧ m.lat + 8 * 23 ≤ m.pat ∧ m.pat + c.xcap ≤ m.xbuf ∧ m.xbuf + c.xcap ≤ m.ptPulse ∧
  m.ptPulse + 4 * c.maxp ≤ m.ptGap ∧ m.lat % 4 = 0 ∧ m.ptPulse % 4 = 0 ∧ m.ptGap % 4 = 0 ∧
  m.bb0.Legal c (m.ptGap + 4 * c.maxp) m.bb1.mem ∧ m.bb1.Legal c (m.bb0.freeRow + 4) (m.bb1.freeRow + 4)

/-- The constraints of R8, with NFAIL ≤ 16 from the register map of R50. -/
abbrev Params.Legal (c : Params) : Prop :=
  1 ≤ c.rows ∧ c.rows ≤ 256 ∧ 1 ≤ c.cols ∧ 1 ≤ c.maxp ∧ c.maxp < 2 ^ 31 ∧ 1 ≤ c.xcap ∧
  c.failMin ≤ 0 ∧ -15 ≤ c.failMin ∧ 1 ≤ c.pcmTolDiv ∧ c.addrMap.Legal c

/-- The default placement of R71. -/
def AddrMap.standard : AddrMap where
  lat     := 0x100
  pat     := 0x200
  xbuf    := 0x280
  ptPulse := 0x2000
  ptGap   := 0x4000
  bb0     := ⟨0x10000, 0x12000, 0x12400, 0x12800, 0x12804⟩
  bb1     := ⟨0x20000, 0x22000, 0x22400, 0x22800, 0x22804⟩

/-- The defaults of R8 (PRESUMED, unsafe: the spec marks most of them as general knowledge; log 1). -/
def Params.standard : Params where
  rows           := 50
  cols           := 128
  maxp           := 1200
  xcap           := 128
  failMin        := -4
  pcmPreambleMin := 12
  pcmFallbackRz  := 8
  pcmFallbackNrz := 20
  pcmTolDiv      := 4
  addrMap        := AddrMap.standard

/-- FREE VALUE (safe, log 7): the 32-bit word that a natural number of 2^32 or more leaves in a result register or on the
bus. No rule says how such a number is narrowed; it arises only for rows of 2^32 bits or more (ROWS * COLS * 8 at least 2^32). -/
opaque Config.wideResult : Nat → Word

end Sys2Proof
end

