-- ==== Sys2Proof/Machine/State.lean ====
section
/-! DEFINITION. The state of the block as plain data: everything spec/10_state.md names (R20 to R47), the parameters of R8, and
the four fields of the model's own that hold the environment's accesses and the bus and event outputs (log 2, 4, 5). -/

namespace Sys2Proof.Machine

/-- A storage array (R10, R60) as a list of (index, value) pairs in canonical form: indices strictly rising, no zero value.
An index that is not listed reads 0, the reset contents of R51 (log 9). `Memory Byte` is a list of `Host.Cell`. -/
abbrev Memory (α : Type) := List (Nat × α)

/-- The canonical form: equal arrays are equal lists. -/
abbrev Memory.wf {α : Type} [Zero α] [DecidableEq α] (m : Memory α) : Prop :=
  m.Pairwise (fun x y => x.1 < y.1) ∧ ∀ e ∈ m, e.2 ≠ 0

/-- One BitBuffer (R20 to R25). The counts are natural numbers; R26 bounds them by the widths of R22 and R60. -/
structure BitBuffer where
  /-- `mem`, R21 -/
  mem            : Memory Byte
  /-- `bits_per_row`, R22: entries of `Params.bprw` bits; that every entry fits is `BitBuffer.Good.len_lt_two_pow_bprw` -/
  bitsPerRow     : Memory Nat
  /-- `syncs_before_row`, R23 -/
  syncsBeforeRow : Memory (BitVec 16)
  /-- `num_rows`, R24 -/
  numRows        : Nat
  /-- `free_row`, R25 -/
  freeRow        : Nat
deriving DecidableEq, Repr

/-- A BitBuffer with all state zero, as CLEAR leaves it (R51, R120). -/
def BitBuffer.empty : BitBuffer := ⟨[], [], [], 0, 0⟩

/-- The PulseTrain store and its header registers (R29 to R32). -/
structure PulseTrain where
  pulse      : Memory Word
  gap        : Memory Word
  numPulses  : Word
  sampleRate : Word
  fskF2Est   : Word
deriving DecidableEq, Repr

/-- The ModulationSpec registers (R33, R34). -/
structure ModSpec where
  kind    : BitVec 3
  shortUs : Word
  longUs  : Word
  syncUs  : Word
  gapUs   : Word
  resetUs : Word
  tolUs   : Word
deriving DecidableEq, Repr

/-- STATE (R40). ACCUMULATING and NEW_ROW occur only inside a command. -/
inductive Phase where
  | idle
  | accumulating
  | newRow
  | dispatch
  | fatal
deriving DecidableEq, Repr

/-- ORIGIN (R44): which command the pending dispatch came from. -/
inductive Origin where
  | run
  | string
deriving DecidableEq, Repr

/-- KIND_L (R45): the demodulators the block implements; a run never latches another code (R195). -/
inductive DemodKind where
  | pcm
  | ppm
  | pwm
deriving DecidableEq, Repr

/-- An exact fraction, kept unreduced (R46, R238). -/
structure Fraction where
  num : Nat
  den : Nat
deriving DecidableEq, Repr

/-- The upper bound of a window: a signed integer or INF (R12, R47). -/
inductive Bound where
  | fin (v : Int)
  | inf
deriving DecidableEq, Repr

/-- The run latches (R45 to R47). -/
structure Latches where
  kind        : DemodKind
  n           : Word
  sShort      : Nat
  sLong       : Nat
  sSync       : Nat
  sGap        : Nat
  sReset      : Nat
  sTol        : Nat
  nrz         : Bool
  gl          : Nat
  maxZeros    : Nat
  tolEff      : Nat
  fShort      : Fraction
  fLong       : Fraction
  preambleLen : Nat
  zeroL       : Int
  zeroU       : Bound
  oneL        : Int
  oneU        : Bound
  syncL       : Int
  syncU       : Bound
deriving DecidableEq, Repr

/-- Every latch zero (R51). -/
def Latches.zero : Latches where
  kind := .pcm
  n := 0
  sShort := 0
  sLong := 0
  sSync := 0
  sGap := 0
  sReset := 0
  sTol := 0
  nrz := false
  gl := 0
  maxZeros := 0
  tolEff := 0
  fShort := ⟨0, 0⟩
  fLong := ⟨0, 0⟩
  preambleLen := 0
  zeroL := 0
  zeroU := .fin 0
  oneL := 0
  oneU := .fin 0
  syncL := 0
  syncU := .fin 0

/-- One access of the environment (R6): the reset input, or a whole-element bus read or write at a byte address (R70, R71). -/
inductive Access where
  | rst
  | write (addr : Nat) (v : Word)
  | read (addr : Nat)
deriving DecidableEq, Repr

/-- Why a step stops the machine with a fault: never. No rule gives the block a fault: the fatal stop is the state FATAL
(R296, R297), in which the block still answers reads, and "a model's step function is total" (R287). No constructor: safe. -/
inductive Fault where
deriving DecidableEq, Repr

/-- Why the model gives a command no meaning. -/
inductive Refusal where
  /-- Raised by an arm of `exec` for a command with no meaning yet; no arm raises it now. Safe. -/
  | notModelled (mnemonic : String)
deriving DecidableEq, Repr

/-- The state of the block. -/
structure State where
  /-- the parameters of R8; no step changes them (log 1) -/
  cfg        : Params
  /-- `bb[0]`, R20 -/
  bb0        : BitBuffer
  /-- `bb[1]`, R20 -/
  bb1        : BitBuffer
  /-- PulseTrain store and header, R29 to R32 -/
  pt         : PulseTrain
  /-- ModulationSpec registers, R33, R34 -/
  spec       : ModSpec
  /-- ARG0, R36 -/
  arg0       : Word
  /-- ARG1, R36 -/
  arg1       : Word
  /-- RES0, R37 -/
  res0       : Word
  /-- RES1, R37 -/
  res1       : Word
  /-- PAT, R38 -/
  pat        : Memory Byte
  /-- XBUF, R38 -/
  xbuf       : Memory Byte
  /-- FLAGS, R39 -/
  flags      : Word
  /-- STATE, R40 -/
  phase      : Phase
  /-- CURSOR, R41 -/
  cursor     : Word
  /-- EVENTS, R42 -/
  events     : Word
  /-- DISPATCHES, R42 -/
  dispatches : Word
  /-- STAT_FAIL, R43 -/
  statFail   : Memory Word
  /-- ORIGIN, R44 -/
  origin     : Origin
  /-- the run latches, R45 to R47 -/
  lat        : Latches
  /-- the model's own: the accesses still to be accepted, in order (R80; log 2) -/
  pending    : List Access
  /-- the model's own: the word the last bus read returned (log 5) -/
  rdata      : Word
  /-- the model's own: the event output `done` occurred in the last step (R300; log 4) -/
  done       : Bool
deriving DecidableEq, Repr

/-- The state after reset for given parameters: every piece of state zero, STATE = IDLE (R51, R310). -/
def State.resetWith (c : Params) : State where
  cfg := c
  bb0 := BitBuffer.empty
  bb1 := BitBuffer.empty
  pt := ⟨[], [], 0, 0, 0⟩
  spec := ⟨0, 0, 0, 0, 0, 0, 0⟩
  arg0 := 0
  arg1 := 0
  res0 := 0
  res1 := 0
  pat := []
  xbuf := []
  flags := 0
  phase := .idle
  cursor := 0
  events := 0
  dispatches := 0
  statFail := []
  origin := .run
  lat := Latches.zero
  pending := []
  rdata := 0
  done := false

/-- The state after reset with the suggested parameters of R8 (log 1). -/
def State.reset : State := State.resetWith Params.standard

/-- `bb[b]` (R10). -/
def State.bb (s : State) : Buf → BitBuffer
  | .b0 => s.bb0
  | .b1 => s.bb1

/-- The block with `bb[b]` replaced. -/
def State.setBb (s : State) (b : Buf) (x : BitBuffer) : State :=
  match b with
  | .b0 => { s with bb0 := x }
  | .b1 => { s with bb1 := x }

def State.setRes0 (s : State) (v : Word) : State := { s with res0 := v }
def State.setRes1 (s : State) (v : Word) : State := { s with res1 := v }
def State.setXbuf (s : State) (m : Memory Byte) : State := { s with xbuf := m }
def State.setFlags (s : State) (v : Word) : State := { s with flags := v }
def State.setPhase (s : State) (p : Phase) : State := { s with phase := p }
def State.setCursor (s : State) (v : Word) : State := { s with cursor := v }
def State.setEvents (s : State) (v : Word) : State := { s with events := v }
def State.setDispatches (s : State) (v : Word) : State := { s with dispatches := v }
def State.setStatFail (s : State) (m : Memory Word) : State := { s with statFail := m }
def State.setOrigin (s : State) (o : Origin) : State := { s with origin := o }
def State.setLat (s : State) (l : Latches) : State := { s with lat := l }
def State.setDone (s : State) (d : Bool) : State := { s with done := d }

end Sys2Proof.Machine
end

