-- ==== Sys2Proof/Machine/Flags.lean ====
section
/-! DEFINITION. The FLAGS register (R39, R286): its bits, raising one, and what a read and a write of it do. -/

namespace Sys2Proof.Machine

/-- The defined bits of FLAGS (R39). -/
inductive Flag where
  | wBitDropped
  | wRowOverflow
  | wSyncSat
  | wFrameDrop
  | wPulsesTrunc
  | wXtrunc
  | wCntSat
  | eRateLow
  | eKind
  | eConfig
  | eBadCmd
  | eBadState
  | fFatal
deriving DecidableEq, Repr

/-- The position of a flag in FLAGS (R39). -/
def Flag.pos : Flag → Nat
  | .wBitDropped  => 0
  | .wRowOverflow => 1
  | .wSyncSat     => 2
  | .wFrameDrop   => 3
  | .wPulsesTrunc => 4
  | .wXtrunc      => 5
  | .wCntSat      => 6
  | .eRateLow     => 8
  | .eKind        => 9
  | .eConfig      => 10
  | .eBadCmd      => 11
  | .eBadState    => 12
  | .fFatal       => 31

/-- The word with only that flag set. -/
def Flag.mask (f : Flag) : Word := (1#32) <<< f.pos

/-- `flag F` on the register's value: `FLAGS.F <- 1`, sticky (R14). -/
def raiseIn (f : Flag) (v : Word) : Word := v ||| f.mask

/-- `flag F` if a condition holds. -/
def raiseIf (p : Bool) (f : Flag) (v : Word) : Word := if p then raiseIn f v else v

/-- `flag F` on the block (R14). -/
def State.raise (s : State) (f : Flag) : State := s.setFlags (raiseIn f s.flags)

/-- `flag F` on the block if a condition holds. -/
def State.raiseWhen (s : State) (p : Bool) (f : Flag) : State := s.setFlags (raiseIf p f s.flags)

/-- The bits of FLAGS that exist: bit 7 and bits 13 to 30 are reserved and read 0 (R39). -/
def flagsDefined : Word := 0x80001F7F

/-- What a bus read of FLAGS returns (R39). -/
def readFlags (v : Word) : Word := v &&& flagsDefined

/-- A bus write of FLAGS clears the bits written as 1, except F_FATAL (R39). -/
def writeOneToClear (v w : Word) : Word := v &&& ~~~(w &&& 0x7FFFFFFF)

end Sys2Proof.Machine
end

