-- ==== Sys2Proof/Machine/Operands.lean ====
section
/-! DEFINITION. Operands and results of the commands (R92, R97, R104): row operands, the wide operands in ARG0 and ARG1, the
signed sink status, and the words that results leave in RES0, RES1 and on the bus. -/

namespace Sys2Proof.Machine

/-- A row operand is in range iff it is below ROWS (R97). -/
def rowInRange (c : Params) (row : Nat) : Bool := row < c.rows

/-- ARG0 as an unsigned number (R92). -/
def State.argNat0 (s : State) : Nat := s.arg0.toNat

/-- ARG1 as an unsigned number (R92). -/
def State.argNat1 (s : State) : Nat := s.arg1.toNat

/-- The sink status `s = sext_32(ARG0)` (R92, R104). -/
def State.sinkStatus (s : State) : Int := s.arg0.toInt

/-- `8 * XCAP`, the capacity of XBUF and PAT in bits (R147, R150). -/
def xcapBits (c : Params) : Nat := 8 * c.xcap

/-- A natural number as a 32-bit word; from 2^32 on no rule says which word results: a free value (log 7). -/
def resultWord (n : Nat) : Word := if n < 2 ^ 32 then BitVec.ofNat 32 n else Config.wideResult n

/-- The answer of a search for a row: its index, or 0xFFFFFFFF if there is none (R157). -/
def rowOrNone : Option Nat → Word
  | some r => resultWord r
  | none   => 0xFFFFFFFF

/-- The buffer other than `b` (R170). -/
def otherBuf : Buf → Buf
  | .b0 => .b1
  | .b1 => .b0

end Sys2Proof.Machine
end

