-- ==== Sys2Proof/Machine/Ops.lean ====
section
/-! DEFINITION. The named operations the meanings share: the storage arrays, counted loops and searches, the arithmetic
primitives of R12, the admission of a command (R291, R293), refusals, and the transfer of control to the sink and the fatal
stop (R212, R296) with the common part of the return (R215, R216). -/

namespace Sys2Proof.Machine

/-! ### Storage arrays (R10, R60) -/

/-- Element `k` of an array: the listed value, else 0 (R51; log 9). -/
def Memory.read {α : Type} [Zero α] : Memory α → Nat → α
  | [], _ => 0
  | (a, v) :: t, k => if a = k then v else Memory.read t k

/-- `x[k] <- v`, keeping the canonical form: indices rising, no zero value listed. -/
def Memory.write {α : Type} [Zero α] [DecidableEq α] : Memory α → Nat → α → Memory α
  | [], k, v => if v = 0 then [] else [(k, v)]
  | (a, x) :: t, k, v =>
    if k < a then (if v = 0 then (a, x) :: t else (k, v) :: (a, x) :: t)
    else if k = a then (if v = 0 then t else (k, v) :: t)
    else (a, x) :: Memory.write t k v

/-- Zeroes the elements `lo ≤ k < hi`. -/
def Memory.zeroRange {α : Type} (m : Memory α) (lo hi : Nat) : Memory α :=
  m.filter (fun e => !(decide (lo ≤ e.1) && decide (e.1 < hi)))

/-! ### Counted loops and searches -/

/-- `for i in 0 .. n - 1 in ascending order: x <- f i x`. -/
def upTo {α : Type} : Nat → (Nat → α → α) → α → α
  | 0, _, x => x
  | n + 1, f, x => f n (upTo n f x)

/-- `for every i < n: p i`. -/
def allBelow (n : Nat) (p : Nat → Bool) : Bool := upTo n (fun i ok => ok && p i) true

/-- The number of `i < n` with `p i`. -/
def countBelow (n : Nat) (p : Nat → Bool) : Nat := upTo n (fun i k => if p i then k + 1 else k) 0

/-- The least `i` with `start ≤ i < start + count` and `p i`. -/
def leastFrom (p : Nat → Bool) : Nat → Nat → Option Nat
  | _, 0 => none
  | start, count + 1 => if p start then some start else leastFrom p (start + 1) count

/-! ### Arithmetic primitives (R12) -/

/-- `rhu(x, num, den)`, round half up of `x * num / den` (R12). -/
def rhu (x : Nat) (f : Fraction) : Nat := (2 * x * f.num + f.den) / (2 * f.den)

/-- `sat_32(v)` as a word (R12). -/
def sat32 (v : Nat) : Word := BitVec.ofNat 32 (min v (2 ^ 32 - 1))

/-- The distance `abs(a - b)` of two sample counts (R12). -/
def dist (a b : Nat) : Nat := (a - b) + (b - a)

/-- A width is in the window (L, U): both bounds exclusive, INF above every width (R250). -/
def inWindow (l : Int) (u : Bound) (w : Nat) : Bool :=
  decide (l < (w : Int)) && (match u with | .inf => true | .fin v => decide ((w : Int) < v))

/-! ### Admission of a command (R291, R293) and refusals (R292) -/

/-- The three rows of legality in R293. -/
inductive CommandClass where
  /-- the BB_ and LD_ commands: IDLE and DISPATCH -/
  | buffer
  /-- DM_RUN and DM_STRING: IDLE only -/
  | start
  /-- DM_SINKRET: DISPATCH only -/
  | sinkReturn
deriving DecidableEq, Repr

/-- What the state of the block says to a command (R293). -/
inductive Verdict where
  | executes
  | badState
  /-- FATAL: no effect at all, not even a flag -/
  | ignored
  /-- ACCUMULATING, NEW_ROW: the command cannot be presented (R76; log 6) -/
  | heldOff
deriving DecidableEq, Repr

/-- The table of R293. -/
def verdictOn : Phase → CommandClass → Verdict
  | .idle, .buffer           => .executes
  | .idle, .start            => .executes
  | .idle, .sinkReturn       => .badState
  | .dispatch, .buffer       => .executes
  | .dispatch, .start        => .badState
  | .dispatch, .sinkReturn   => .executes
  | .fatal, _                => .ignored
  | .accumulating, _         => .heldOff
  | .newRow, _               => .heldOff

/-- `refuse(F)`: set the flag, change nothing else, end the command (R14, R292, R293). -/
def State.refuse (s : State) (f : Flag) : State := s.raise f

/-- One decoded command through the checks 1, 3 and 4 of R291, then its effect. `operandsOk` is check 4. -/
def command (cls : CommandClass) (operandsOk : Bool) (effect : State → State) (s : State) :
    Host.Outcome State Fault Refusal :=
  match verdictOn s.phase cls with
  | .executes => .next (if operandsOk then effect s else s.refuse .eBadCmd)
  | .badState => .next (s.refuse .eBadState)
  | .ignored  => .next s
  | .heldOff  => .next s

/-- A reserved word (R94) after checks 1 and 2 of R291: E_BADCMD, but nothing at all in FATAL. -/
def refuseReserved (s : State) : State :=
  match s.phase with
  | .idle         => s.refuse .eBadCmd
  | .dispatch     => s.refuse .eBadCmd
  | .fatal        => s
  | .accumulating => s
  | .newRow       => s

/-! ### Transfer of control to the sink and back, and the fatal stop (R298) -/

/-- `dispatch(o)`, entering DISPATCH (R212). -/
def dispatch (o : Origin) (s : State) : State :=
  (((s.raiseWhen (s.dispatches.toNat + 1 > 2 ^ 32 - 1) .wCntSat).setDispatches
    (sat32 (s.dispatches.toNat + 1))).setOrigin o).setPhase .dispatch

/-- `raise Fatal(v)` (R296). -/
def raiseFatal (v : Word) (s : State) : State := ((s.raise .fFatal).setRes0 v).setPhase .fatal

/-- AGGREGATE(status) for a legal status (R215). -/
def aggregate (st : Int) (s : State) : State :=
  if 0 < st then
    (s.raiseWhen (s.events.toNat + st.toNat > 2 ^ 32 - 1) .wCntSat).setEvents (sat32 (s.events.toNat + st.toNat))
  else
    let k := (-st).toNat
    let old := (s.statFail.read k).toNat
    (s.raiseWhen (old + 1 > 2 ^ 32 - 1) .wCntSat).setStatFail (s.statFail.write k (sat32 (old + 1)))

/-- Every run that reaches its end leaves STATE = IDLE and the event `done` occurs (R209, R300). -/
def endRun (s : State) : State := (s.setPhase .idle).setDone true

end Sys2Proof.Machine
end

