-- ==== Sys2Proof/Machine/Bus.lean ====
section
/-! DEFINITION. The host bus (20_memory.md): the storage spaces, reads and writes of an element, the address map, write rights by
STATE, the reset input, and the acceptance of the environment's next access. -/

namespace Sys2Proof.Machine

/-- The storage spaces of R60. The index of REG is the register's byte offset (R50). -/
inductive Space where
  | reg
  | lat
  | pat
  | xbuf
  | ptPulse
  | ptGap
  | mem (b : Buf)
  | bits (b : Buf)
  | syncs (b : Buf)
  | numRows (b : Buf)
  | freeRow (b : Buf)
deriving DecidableEq, Repr

/-- The code of STATE (R40). -/
def Phase.code : Phase → Word
  | .idle         => 0
  | .accumulating => 1
  | .newRow       => 2
  | .dispatch     => 3
  | .fatal        => 7

/-- The code of ORIGIN (R44). -/
def Origin.code : Origin → Word
  | .run    => 0
  | .string => 1

/-- The code of KIND_L (R45, R103). -/
def DemodKind.code : DemodKind → BitVec 64
  | .pcm => 0
  | .ppm => 1
  | .pwm => 2

/-- A window bound as a 64-bit two's-complement value, INF as 2^63 - 1 (R48). -/
def Bound.code : Bound → BitVec 64
  | .fin v => BitVec.ofInt 64 v
  | .inf   => BitVec.ofNat 64 (2 ^ 63 - 1)

/-- LAT[k] (R48). -/
def latRead (l : Latches) (k : Nat) : BitVec 64 :=
  match k with
  | 0  => BitVec.ofNat 64 l.sShort
  | 1  => BitVec.ofNat 64 l.sLong
  | 2  => BitVec.ofNat 64 l.sSync
  | 3  => BitVec.ofNat 64 l.sGap
  | 4  => BitVec.ofNat 64 l.sReset
  | 5  => BitVec.ofNat 64 l.sTol
  | 6  => BitVec.ofNat 64 l.gl
  | 7  => BitVec.ofNat 64 l.maxZeros
  | 8  => BitVec.ofNat 64 l.tolEff
  | 9  => BitVec.ofNat 64 l.fShort.num
  | 10 => BitVec.ofNat 64 l.fShort.den
  | 11 => BitVec.ofNat 64 l.fLong.num
  | 12 => BitVec.ofNat 64 l.fLong.den
  | 13 => BitVec.ofNat 64 l.preambleLen
  | 14 => if l.nrz then 1 else 0
  | 15 => BitVec.ofInt 64 l.oneL
  | 16 => l.oneU.code
  | 17 => BitVec.ofInt 64 l.zeroL
  | 18 => l.zeroU.code
  | 19 => BitVec.ofInt 64 l.syncL
  | 20 => l.syncU.code
  | 21 => l.n.setWidth 64
  | 22 => l.kind.code
  | _  => 0

/-- The register at a byte offset (R50); CMD reads 0 (R35), offsets not listed read 0. -/
def regRead (s : State) (off : Nat) : Word :=
  match off with
  | 0x004 => s.phase.code
  | 0x008 => readFlags s.flags
  | 0x00C => s.arg0
  | 0x010 => s.arg1
  | 0x014 => s.res0
  | 0x018 => s.res1
  | 0x01C => s.events
  | 0x020 => s.dispatches
  | 0x024 => s.cursor
  | 0x028 => s.origin.code
  | 0x040 => s.spec.kind.setWidth 32
  | 0x044 => s.spec.shortUs
  | 0x048 => s.spec.longUs
  | 0x04C => s.spec.syncUs
  | 0x050 => s.spec.gapUs
  | 0x054 => s.spec.resetUs
  | 0x058 => s.spec.tolUs
  | 0x05C => s.pt.sampleRate
  | 0x060 => s.pt.numPulses
  | 0x064 => s.pt.fskF2Est
  | _     =>
    if 0x080 ≤ off ∧ off < 0x080 + 4 * s.cfg.nfail ∧ off % 4 = 0 then s.statFail.read ((off - 0x080) / 4) else 0

/-- MemRead(space, i) (R70), zero-extended to 64 bits (R73); an index outside the space reads 0. -/
def memRead (s : State) (sp : Space) (i : Nat) : BitVec 64 :=
  match sp with
  | .reg       => (regRead s i).setWidth 64
  | .lat       => latRead s.lat i
  | .pat       => if i < s.cfg.xcap then (s.pat.read i).setWidth 64 else 0
  | .xbuf      => if i < s.cfg.xcap then (s.xbuf.read i).setWidth 64 else 0
  | .ptPulse   => if i < s.cfg.maxp then (s.pt.pulse.read i).setWidth 64 else 0
  | .ptGap     => if i < s.cfg.maxp then (s.pt.gap.read i).setWidth 64 else 0
  | .mem b     => if i < s.cfg.rows * s.cfg.cols then ((s.bb b).mem.read i).setWidth 64 else 0
  | .bits b    => if i < s.cfg.rows then (resultWord ((s.bb b).bitsPerRow.read i)).setWidth 64 else 0
  | .syncs b   => if i < s.cfg.rows then ((s.bb b).syncsBeforeRow.read i).setWidth 64 else 0
  | .numRows b => if i = 0 then (resultWord (s.bb b).numRows).setWidth 64 else 0
  | .freeRow b => if i = 0 then (resultWord (s.bb b).freeRow).setWidth 64 else 0

/-- The bus write of a ModulationSpec, header, operand or FLAGS register (R30, R33, R39, R50, R72), where STATE allows writes;
offsets of read-only registers and offsets not listed are ignored. CMD is not written here. -/
def regWrite (s : State) (off : Nat) (v : Word) : State :=
  match off with
  | 0x008 => s.setFlags (writeOneToClear s.flags v)
  | 0x00C => { s with arg0 := v }
  | 0x010 => { s with arg1 := v }
  | 0x040 => { s with spec := { s.spec with kind := v.setWidth 3 } }
  | 0x044 => { s with spec := { s.spec with shortUs := v } }
  | 0x048 => { s with spec := { s.spec with longUs := v } }
  | 0x04C => { s with spec := { s.spec with syncUs := v } }
  | 0x050 => { s with spec := { s.spec with gapUs := v } }
  | 0x054 => { s with spec := { s.spec with resetUs := v } }
  | 0x058 => { s with spec := { s.spec with tolUs := v } }
  | 0x05C => { s with pt := { s.pt with sampleRate := v } }
  | 0x060 =>
    if s.cfg.maxp < v.toNat then
      { s with pt := { s.pt with numPulses := BitVec.ofNat 32 s.cfg.maxp } }.raise .wPulsesTrunc
    else { s with pt := { s.pt with numPulses := v } }
  | 0x064 => { s with pt := { s.pt with fskF2Est := v } }
  | _     => s

/-- A write of element `i` of PT.pulse or PT.gap: IDLE only; refused with E_BADSTATE in DISPATCH (R72). -/
def ptWrite (s : State) (i : Nat) (pt : PulseTrain) : State :=
  if s.cfg.maxp ≤ i then s
  else if s.phase = .dispatch then s.refuse .eBadState
  else { s with pt := pt }

/-- MemWrite(space, i, v) in IDLE or DISPATCH (R70, R72); read-only spaces ignore it. -/
def writeElement (s : State) (sp : Space) (i : Nat) (v : Word) : State :=
  match sp with
  | .reg       => regWrite s i v
  | .lat       => s
  | .pat       => if i < s.cfg.xcap then { s with pat := s.pat.write i (v.setWidth 8) } else s
  | .xbuf      => s
  | .ptPulse   => ptWrite s i { s.pt with pulse := s.pt.pulse.write i v }
  | .ptGap     => ptWrite s i { s.pt with gap := s.pt.gap.write i v }
  | .mem _     => s
  | .bits _    => s
  | .syncs _   => s
  | .numRows _ => s
  | .freeRow _ => s

/-- MemWrite(space, i, v) (R70): in FATAL every write is ignored (R72, R297). -/
def memWrite (s : State) (sp : Space) (i : Nat) (v : Word) : State :=
  if s.phase = .fatal then s else writeElement s sp i v

/-- `a` lies in the window of `n` elements of `w` bytes at `base`. -/
def inSpan (base n w a : Nat) : Bool := decide (base ≤ a) && decide (a < base + w * n)

/-- The windows of buffer `b` (R71). -/
def bufferWindows (c : Params) : Buf → BufferWindows
  | .b0 => c.addrMap.bb0
  | .b1 => c.addrMap.bb1

/-- An address inside the windows of one buffer (R71); word windows round the address down (R67; log 8). -/
def locateBuffer (c : Params) (b : Buf) (a : Nat) : Option (Space × Nat) :=
  let w := bufferWindows c b
  if inSpan w.mem (c.rows * c.cols) 1 a then some (.mem b, a - w.mem)
  else if inSpan w.bits c.rows 4 a then some (.bits b, (a - w.bits) / 4)
  else if inSpan w.syncs c.rows 4 a then some (.syncs b, (a - w.syncs) / 4)
  else if inSpan w.numRows 1 4 a then some (.numRows b, 0)
  else if inSpan w.freeRow 1 4 a then some (.freeRow b, 0)
  else none

/-- The address map of R71: the space and index of a byte address. -/
def locate (c : Params) (a : Nat) : Option (Space × Nat) :=
  let m := c.addrMap
  if a < 0x100 then some (.reg, a / 4 * 4)
  else if inSpan m.lat 23 8 a then some (.lat, (a - m.lat) / 8)
  else if inSpan m.pat c.xcap 1 a then some (.pat, a - m.pat)
  else if inSpan m.xbuf c.xcap 1 a then some (.xbuf, a - m.xbuf)
  else if inSpan m.ptPulse c.maxp 4 a then some (.ptPulse, (a - m.ptPulse) / 4)
  else if inSpan m.ptGap c.maxp 4 a then some (.ptGap, (a - m.ptGap) / 4)
  else match locateBuffer c .b0 a with
    | some x => some x
    | none   => locateBuffer c .b1 a

/-- What a bus read of a byte address returns: the low word of the element, for the upper half of a LAT element bits [63:32]
(R66); 0 outside every window (R71). -/
def busRead (s : State) (a : Nat) : Word :=
  match locate s.cfg a with
  | some (.lat, k) =>
    if (a - s.cfg.addrMap.lat) % 8 < 4 then (memRead s .lat k).extractLsb' 0 32 else (memRead s .lat k).extractLsb' 32 32
  | some (sp, i)   => (memRead s sp i).extractLsb' 0 32
  | none           => 0

/-- A bus write of a byte address other than CMD (R70 to R72). -/
def busWrite (s : State) (a : Nat) (v : Word) : State :=
  match locate s.cfg a with
  | some (sp, i) => memWrite s sp i v
  | none         => s

/-- The address is that of CMD, offset 0x000 after rounding down to the word (R50, R67). -/
def isCmdAddr (a : Nat) : Bool := decide (a < 4)

/-- The reset input (R310): every piece of state at its reset value; the environment's later accesses stay. -/
def resetInput (s : State) : State := { State.resetWith s.cfg with pending := s.pending }

/-- What the block has accepted: a command word, or an access that is complete. -/
inductive Accepted where
  | command (w : Word) (s : State)
  | complete (s : State)
deriving DecidableEq, Repr

/-- Takes the access off the environment's list; the event `done` of the step before is over. -/
def takeAccess (rest : List Access) (s : State) : State := { s with pending := rest, done := false }

/-- Accepts the environment's next access (R70, R76, R80, R90). While a command executed the bus would be held off: in
ACCUMULATING and NEW_ROW, which never rest between steps, only the reset input is accepted (R76, R310; log 6). -/
def acceptNext (s : State) : Accepted :=
  match s.pending with
  | []             => .complete { s with done := false }
  | .rst :: rest   => .complete (resetInput (takeAccess rest s))
  | .read a :: rest =>
    match s.phase with
    | .accumulating => .complete s
    | .newRow       => .complete s
    | _             => .complete { takeAccess rest s with rdata := busRead s a }
  | .write a v :: rest =>
    match s.phase with
    | .accumulating => .complete s
    | .newRow       => .complete s
    | _             => if isCmdAddr a then .command v (takeAccess rest s) else .complete (busWrite (takeAccess rest s) a v)

end Sys2Proof.Machine
end

