-- ==== Sys2Proof/Machine/Rows.lean ====
section
/-! DEFINITION. The row operations of a BitBuffer: reading and writing one row bit (R63, R64), CLEAR, ADD_BIT, ADD_ROW and
ADD_SYNC (R120 to R125), and the comparison of rows (R153). The commands and the demodulators share them (R13). -/

namespace Sys2Proof.Machine

/-- `len(r) = bits_per_row[r]`. -/
def BitBuffer.len (x : BitBuffer) (r : Nat) : Nat := x.bitsPerRow.read r

/-- Bit `i` of a byte string packed MSB first: bit `7 - i mod 8` of byte `i div 8` (R62, R65). -/
def packedBit (m : Memory Byte) (base i : Nat) : Bool := (m.read (base + i / 8)).getLsbD (7 - i % 8)

/-- `bit(b, r, i)`: 0 at and beyond the row's length (R63). -/
def BitBuffer.bit (c : Params) (x : BitBuffer) (r i : Nat) : Bool :=
  decide (i < x.len r) && packedBit x.mem (r * c.cols) i

/-- The byte with bit `k` replaced by `v` (R64). -/
def replaceBit (y : Byte) (k : Nat) (v : Bool) : Byte :=
  (y &&& ~~~((1#8) <<< k)) ||| ((if v then 1#8 else 0#8) <<< k)

/-- The byte address of position `i` of the row at slot `r` (R62). -/
def bitAddr (c : Params) (r i : Nat) : Nat := r * c.cols + i / 8

/-- `setbit(b, r, i, v)` (R64): replaces the bit, does not OR into it. -/
def BitBuffer.setbit (c : Params) (r i : Nat) (v : Bool) (x : BitBuffer) : BitBuffer :=
  { x with mem := x.mem.write (bitAddr c r i) (replaceBit (x.mem.read (bitAddr c r i)) (7 - i % 8) v) }

/-- AUTOCREATE (R122). -/
def BitBuffer.autocreate (x : BitBuffer) : BitBuffer :=
  if x.numRows = 0 then { x with numRows := 1, freeRow := 1 } else x

/-- The slot where the current row starts, `cur = num_rows - 1` (R24). -/
def BitBuffer.cur (x : BitBuffer) : Nat := x.numRows - 1

/-- The next bit of the current row starts a new slot (R121). -/
def BitBuffer.startsSlot (c : Params) (x : BitBuffer) : Bool :=
  decide (0 < x.len x.cur) && decide (x.len x.cur % c.slotBits = 0)

/-- ADD_BIT finds no slot left and drops the bit (R121). -/
def BitBuffer.dropsBit (c : Params) (x : BitBuffer) : Bool :=
  x.autocreate.startsSlot c && decide (x.autocreate.freeRow = c.rows)

/-- The part of ADD_BIT after AUTOCREATE, when the bit is not dropped (R121): take the next slot if the bit starts one,
write the bit, count it: one byte, one count, at most one cursor (R130). -/
def BitBuffer.appendBit (c : Params) (v : Bool) (x : BitBuffer) : BitBuffer :=
  let nb := x.len x.cur
  let y := if x.startsSlot c then { x with freeRow := x.freeRow + 1 } else x
  let z := y.setbit c x.cur nb v
  { z with bitsPerRow := z.bitsPerRow.write x.cur (nb + 1) }

/-- The buffer after ADD_BIT (R121). -/
def BitBuffer.addBit (c : Params) (v : Bool) (x : BitBuffer) : BitBuffer :=
  if x.dropsBit c then x.autocreate else x.autocreate.appendBit c v

/-- ADD_ROW takes the overflow case: no free slot left (R123). -/
def BitBuffer.rowOverflows (c : Params) (x : BitBuffer) : Bool := decide (c.rows ≤ x.autocreate.freeRow)

/-- The buffer after ADD_ROW (R123): the two cursors only, but in the overflow case the bytes and counts of the current row too
(R130). -/
def BitBuffer.addRow (c : Params) (x : BitBuffer) : BitBuffer :=
  let y := x.autocreate
  if x.rowOverflows c then
    { mem            := y.mem.zeroRange (y.cur * c.cols) (y.freeRow * c.cols)
      bitsPerRow     := y.bitsPerRow.write y.cur 0
      syncsBeforeRow := y.syncsBeforeRow.write y.cur 0
      numRows        := y.numRows
      freeRow        := y.cur + 1 }
  else { y with numRows := y.freeRow + 1, freeRow := y.freeRow + 1 }

/-- ADD_SYNC forces a new row first: the current row has content (R125). -/
def BitBuffer.hasContent (x : BitBuffer) : Bool := decide (0 < x.len x.cur)

/-- A buffer together with the FLAGS register, as the row operations change the two. -/
abbrev Logged := BitBuffer × Word

/-- ADD_BIT with its flag (R121). -/
def Logged.addBit (c : Params) (v : Bool) (p : Logged) : Logged :=
  (p.1.addBit c v, raiseIf (p.1.dropsBit c) .wBitDropped p.2)

/-- `repeat n times: ADD_BIT(v)`. Once a bit is dropped, every later one is dropped too and sets the same sticky flag
(R131 (e)), so the repetition stops there (log 11; `addBits_eq_repeat` in Laws/Rows.lean). -/
def Logged.addBits (c : Params) (v : Bool) : Nat → Logged → Logged
  | 0, p => p
  | n + 1, p => if p.1.dropsBit c then p.addBit c v else Logged.addBits c v n (p.addBit c v)

/-- ADD_ROW with its flag (R123). -/
def Logged.addRow (c : Params) (p : Logged) : Logged :=
  (p.1.addRow c, raiseIf (p.1.rowOverflows c) .wRowOverflow p.2)

/-- The counting part of ADD_SYNC on the current row, saturating at 65535 (R125). -/
def Logged.countSync (p : Logged) : Logged :=
  let n := p.1.syncsBeforeRow.read p.1.cur
  if n = 65535#16 then (p.1, raiseIn .wSyncSat p.2)
  else ({ p.1 with syncsBeforeRow := p.1.syncsBeforeRow.write p.1.cur (n + 1) }, p.2)

/-- ADD_SYNC with its flags (R125). A forced ADD_ROW may take the overflow case, which R130 names for BB_ADDROW only: DEDUCED
(log 24). -/
def Logged.addSync (c : Params) (p : Logged) : Logged :=
  let q : Logged := (p.1.autocreate, p.2)
  (if q.1.hasContent then q.addRow c else q).countSync

/-- Applies a row operation to `bb[b]` and FLAGS of the block. -/
def State.onBuffer (b : Buf) (f : Logged → Logged) (s : State) : State :=
  (s.setBb b (f (s.bb b, s.flags)).1).setFlags (f (s.bb b, s.flags)).2

/-- `for every r in 0 .. num_rows - 1: for every i in 0 .. len(r) - 1`, ascending, carrying the previous input bit of the row,
0 before the first (R140, R142 to R144): `setbit(b, r, i, f(cur, prev))`. -/
def BitBuffer.mapBits (c : Params) (f : Bool → Bool → Bool) (x : BitBuffer) : BitBuffer :=
  upTo x.numRows (fun r y =>
    (upTo (y.len r) (fun i z => (z.1.setbit c r i (f (z.1.bit c r i) z.2), z.1.bit c r i)) (y, false)).1) x

/-- `bit(a, i) = bit(c, i)` for every `i < n` (R153). -/
def BitBuffer.sameBits (c : Params) (x : BitBuffer) (ra rb n : Nat) : Bool :=
  allBelow n (fun i => x.bit c ra i == x.bit c rb i)

/-- CMP(a, c, m) of R153: exact, or equal over the first `m > 0` bits of two rows that are both that long. -/
def BitBuffer.cmp (c : Params) (x : BitBuffer) (ra rb m : Nat) : Bool :=
  (x.len ra == x.len rb && x.sameBits c ra rb (x.len ra)) ||
  (decide (0 < m) && decide (m ≤ x.len ra) && decide (m ≤ x.len rb) && x.sameBits c ra rb m)

/-- The number of rows of the buffer that match `row` over `m` (R155). -/
def BitBuffer.matchCount (c : Params) (x : BitBuffer) (row m : Nat) : Nat :=
  countBelow x.numRows (fun r => x.cmp c row r m)

/-- The first row of at least `minBits` bits that at least `minRepeats` rows match over `m` (R157, R158). -/
def BitBuffer.findRepeated (c : Params) (x : BitBuffer) (minRepeats minBits m : Nat) : Option Nat :=
  leastFrom (fun r => decide (minBits ≤ x.len r) && decide (minRepeats ≤ x.matchCount c r m)) 0 x.numRows

/-- Eight bits as a byte, the first as its most significant bit (R65, R147). -/
def packByte (e : Nat → Bool) : Byte :=
  upTo 8 (fun k y => y ||| ((if e k then 1#8 else 0#8) <<< (7 - k))) 0#8

/-- The bit run of R147: `e(m) = bit(row, off + m)` if `m < L`, else 0. -/
def BitBuffer.run (c : Params) (x : BitBuffer) (row off len m : Nat) : Bool :=
  decide (m < len) && x.bit c row (off + m)

/-- Byte `j` of that run (R147). -/
def BitBuffer.runByte (c : Params) (x : BitBuffer) (row off len j : Nat) : Byte :=
  packByte (fun k => x.run c row off len (8 * j + k))

/-- `ceil(n / 8)`. -/
def bytesFor (n : Nat) : Nat := (n + 7) / 8

/-- HAS_DATA (R207). -/
def BitBuffer.hasData (x : BitBuffer) : Bool := decide (1 < x.numRows) || decide (0 < x.len 0)

end Sys2Proof.Machine
end

