-- ==== Sys2Proof/Machine/BufferAux.lean ====
section
/-! DEFINITION. The meanings of the transform and query commands (41_bitbuffer_aux.md). -/

namespace Sys2Proof.Machine

/-- BB_INVERT (R140). -/
def execBbInvert (buf : Buf) (s : State) : Host.Outcome State Fault Refusal :=
  command .buffer true (fun t => t.setBb buf ((t.bb buf).mapBits t.cfg (fun cur _ => !cur))) s

/-- BB_NRZS (R142): a change of level is a 0. -/
def execBbNrzs (buf : Buf) (s : State) : Host.Outcome State Fault Refusal :=
  command .buffer true (fun t => t.setBb buf ((t.bb buf).mapBits t.cfg (fun cur prev => !(cur ^^ prev)))) s

/-- BB_NRZM (R143): a change of level is a 1. -/
def execBbNrzm (buf : Buf) (s : State) : Host.Outcome State Fault Refusal :=
  command .buffer true (fun t => t.setBb buf ((t.bb buf).mapBits t.cfg (fun cur prev => cur ^^ prev))) s

/-- The length L that BB_EXTRACT uses (R147). -/
def extractLen (s : State) : Nat := min s.argNat1 (xcapBits s.cfg)

/-- BB_EXTRACT (R147): bytes `0 .. ceil(L/8) - 1` of XBUF, RES0 = L, W_XTRUNC if the length was clipped. -/
def execBbExtract (buf : Buf) (row : Nat) (s : State) : Host.Outcome State Fault Refusal :=
  command .buffer (rowInRange s.cfg row) (fun t =>
    let len := extractLen t
    (((t.raiseWhen (decide (xcapBits t.cfg < t.argNat1)) .wXtrunc).setXbuf
      (upTo (bytesFor len) (fun j m => m.write j ((t.bb buf).runByte t.cfg row t.argNat0 len j)) t.xbuf)).setRes0
      (resultWord len))) s

/-- The pattern of `pl` bits in PAT stands at position `i` of the row (R150). -/
def patternAt (c : Params) (x : BitBuffer) (pat : Memory Byte) (row pl i : Nat) : Bool :=
  decide (i + pl ≤ x.len row) && allBelow pl (fun k => x.bit c row (i + k) == packedBit pat 0 k)

/-- The answer of BB_SEARCH (R150): the least match at or after `start`, else the row's length. -/
def searchResult (c : Params) (x : BitBuffer) (pat : Memory Byte) (row start pl : Nat) : Nat :=
  if pl = 0 then x.len row
  else (leastFrom (patternAt c x pat row pl) start (x.len row + 1 - start)).getD (x.len row)

/-- BB_SEARCH (R150); a pattern longer than PAT is refused (R291 check 4). -/
def execBbSearch (buf : Buf) (row : Nat) (s : State) : Host.Outcome State Fault Refusal :=
  command .buffer (rowInRange s.cfg row && decide (s.argNat1 ≤ xcapBits s.cfg)) (fun t =>
    t.setRes0 (resultWord (searchResult t.cfg (t.bb buf) t.pat row t.argNat0 t.argNat1))) s

/-- BB_CMPROWS (R153). -/
def execBbCmpRows (buf : Buf) (rowA rowB : Nat) (s : State) : Host.Outcome State Fault Refusal :=
  command .buffer (rowInRange s.cfg rowA && rowInRange s.cfg rowB) (fun t =>
    t.setRes0 (if (t.bb buf).cmp t.cfg rowA rowB t.argNat0 then 1 else 0)) s

/-- BB_CNTREP (R155). -/
def execBbCntRep (buf : Buf) (row : Nat) (s : State) : Host.Outcome State Fault Refusal :=
  command .buffer (rowInRange s.cfg row) (fun t =>
    t.setRes0 (resultWord ((t.bb buf).matchCount t.cfg row t.argNat0))) s

/-- BB_FINDROW (R157): rows compared exactly. -/
def execBbFindRow (buf : Buf) (s : State) : Host.Outcome State Fault Refusal :=
  command .buffer true (fun t =>
    t.setRes0 (rowOrNone ((t.bb buf).findRepeated t.cfg t.argNat0 t.argNat1 0))) s

/-- BB_FINDPFX (R158): rows compared over their first `min_bits` bits. -/
def execBbFindPfx (buf : Buf) (s : State) : Host.Outcome State Fault Refusal :=
  command .buffer true (fun t =>
    t.setRes0 (rowOrNone ((t.bb buf).findRepeated t.cfg t.argNat0 t.argNat1 t.argNat1))) s

end Sys2Proof.Machine
end

