-- ==== Sys2Proof/Machine/BufferCore.lean ====
section
/-! DEFINITION. The meanings of BB_CLEAR, BB_ADDBIT, BB_ADDROW and BB_ADDSYNC (40_bitbuffer_core.md). -/

namespace Sys2Proof.Machine

/-- BB_CLEAR (R120). -/
def execBbClear (buf : Buf) (s : State) : Host.Outcome State Fault Refusal :=
  command .buffer true (fun t => t.setBb buf BitBuffer.empty) s

/-- BB_ADDBIT (R121). -/
def execBbAddBit (buf : Buf) (bit : Bool) (s : State) : Host.Outcome State Fault Refusal :=
  command .buffer true (fun t => t.onBuffer buf (Logged.addBit t.cfg bit)) s

/-- BB_ADDROW (R123). -/
def execBbAddRow (buf : Buf) (s : State) : Host.Outcome State Fault Refusal :=
  command .buffer true (fun t => t.onBuffer buf (Logged.addRow t.cfg)) s

/-- BB_ADDSYNC (R125). -/
def execBbAddSync (buf : Buf) (s : State) : Host.Outcome State Fault Refusal :=
  command .buffer true (fun t => t.onBuffer buf (Logged.addSync t.cfg)) s

end Sys2Proof.Machine
end

