-- ==== Sys2Proof/Machine/DemodPcm.lean ====
section
/-! DEFINITION. The PCM part of a run (44_demod_pcm.md): the entry latches with the calibration passes, and the action on one
symbol. -/

namespace Sys2Proof.Machine

/-- `P(n) = PT.pulse[n]` as a number (R192). -/
def PulseTrain.p (pt : PulseTrain) (n : Nat) : Nat := (pt.pulse.read n).toNat

/-- `G(n) = PT.gap[n]` as a number (R192). -/
def PulseTrain.g (pt : PulseTrain) (n : Nat) : Nat := (pt.gap.read n).toNat

/-- What the calibration passes read: the tolerance, the nominal widths, the coding, MAX_ZEROS and the parameters. -/
structure PcmNominal where
  nrz      : Bool
  sShort   : Nat
  sLong    : Nat
  tolEff   : Nat
  maxZeros : Nat
  fShort   : Fraction
  fLong    : Fraction
deriving DecidableEq, Repr

/-- `M_RZ(n)` (R235). -/
def matchRz (q : PcmNominal) (pt : PulseTrain) (n : Nat) : Bool :=
  decide (dist (pt.p n) q.sShort ≤ q.tolEff) && decide (dist (pt.p n + pt.g n) q.sLong ≤ q.tolEff)

/-- `M_NRZ(n)` (R235). -/
def matchNrz (q : PcmNominal) (pt : PulseTrain) (n : Nat) : Bool :=
  decide (dist (pt.p n) q.sShort ≤ q.tolEff) && decide (dist (pt.g n) q.sLong ≤ q.tolEff)

/-- `M(n)` (R235). -/
def matchSymbol (q : PcmNominal) (pt : PulseTrain) (n : Nat) : Bool :=
  if q.nrz then matchNrz q pt n else matchRz q pt n

/-- The sums over a run of matching symbols: `sp`, `sb`, the count `c` of bit periods, and the index `n` reached (R236). -/
structure MatchRun where
  sp : Nat
  sb : Nat
  c  : Nat
  n  : Nat
deriving DecidableEq, Repr

/-- The inner loop of R236: extends the run over matching symbols below `stop`. -/
def matchRun (q : PcmNominal) (pt : PulseTrain) (stop : Nat) : Nat → MatchRun → MatchRun
  | 0, m => m
  | fuel + 1, m =>
    if m.n < stop ∧ matchSymbol q pt m.n then
      matchRun q pt stop fuel ⟨m.sp + pt.p m.n, m.sb + pt.p m.n + pt.g m.n, m.c + (if q.nrz then 2 else 1), m.n + 1⟩
    else m

/-- The estimates the calibration keeps (R236): the two fractions, the least count still to beat, PREAMBLE_LEN. -/
structure Estimate where
  fShort      : Fraction
  fLong       : Fraction
  minc        : Nat
  preambleLen : Nat
deriving DecidableEq, Repr

/-- Takes a run over if it qualifies (R236). -/
def Estimate.consider (nrz : Bool) (m : MatchRun) (e : Estimate) : Estimate :=
  if e.minc ≤ m.c ∧ 0 < m.sp ∧ 0 < m.sb then
    ⟨if nrz then ⟨m.c, m.sb⟩ else ⟨m.c, m.sp⟩, ⟨m.c, m.sb⟩, m.c, m.c⟩
  else e

/-- The outer loop of R236 from index `n`: one maximal run, then the symbol that ended it is stepped over. -/
def preamblePass (q : PcmNominal) (pt : PulseTrain) (stop : Nat) : Nat → Nat → Estimate → Estimate
  | 0, _, e => e
  | fuel + 1, n, e =>
    if n < stop then
      let m := matchRun q pt stop (stop - n) ⟨0, 0, 0, n⟩
      preamblePass q pt stop fuel (m.n + 1) (e.consider q.nrz m)
    else e

/-- The sums of the RZ fallback (R237): `sp`, `sb`, `c` over all matching symbols. -/
def fallbackRzSums (q : PcmNominal) (pt : PulseTrain) (stop : Nat) : MatchRun :=
  upTo stop (fun n m => if matchRz q pt n then ⟨m.sp + pt.p n, m.sb + pt.p n + pt.g n, m.c + 1, n + 1⟩ else m) ⟨0, 0, 0, 0⟩

/-- The bit-equivalents of a pulse in the NRZ fallback (R237), 0 if it does not count. -/
def pulseEquiv (q : PcmNominal) (p : Nat) : Nat :=
  let k := rhu p q.fShort
  if 1 ≤ k ∧ dist p (k * q.sShort) ≤ q.tolEff then k else 0

/-- The bit-equivalents of a gap in the NRZ fallback (R237), 0 if it does not count. -/
def gapEquiv (q : PcmNominal) (g : Nat) : Nat :=
  let k := rhu g q.fLong
  if 1 ≤ k ∧ k ≤ q.maxZeros ∧ dist g (k * q.sLong) ≤ q.tolEff then k else 0

/-- The sums `(c, w)` of the NRZ fallback (R237). -/
def fallbackNrzSums (q : PcmNominal) (pt : PulseTrain) (stop : Nat) : Nat × Nat :=
  upTo stop (fun n a =>
    let kp := pulseEquiv q (pt.p n)
    let kg := gapEquiv q (pt.g n)
    (a.1 + kp + kg, a.2 + (if kp = 0 then 0 else pt.p n) + (if kg = 0 then 0 else pt.g n))) (0, 0)

/-- The second pass (R237): the estimates F_SHORT and F_LONG it leaves. -/
def fallback (c : Params) (q : PcmNominal) (pt : PulseTrain) (stop : Nat) : Fraction × Fraction :=
  if q.nrz then
    let a := fallbackNrzSums q pt stop
    if c.pcmFallbackNrz < a.1 ∧ 0 < a.2 then (⟨a.1, a.2⟩, ⟨a.1, a.2⟩) else (q.fShort, q.fLong)
  else
    let m := fallbackRzSums q pt stop
    if c.pcmFallbackRz < m.c ∧ 0 < m.sp ∧ 0 < m.sb then (⟨m.c, m.sp⟩, ⟨m.c, m.sb⟩) else (q.fShort, q.fLong)

/-- What R231 to R234 give before the calibration. -/
def pcmNominal (c : Params) (spec : ModSpec) (rate : Word) (l : Latches) : PcmNominal :=
  let gl := if 0 < l.sGap then l.sGap else l.sReset
  { nrz      := l.sShort == l.sLong
    sShort   := l.sShort
    sLong    := l.sLong
    tolEff   := if 0 < l.sTol then l.sTol else l.sLong / c.pcmTolDiv
    maxZeros := gl / l.sLong
    fShort   := ⟨1000000, spec.shortUs.toNat * rate.toNat⟩
    fLong    := ⟨1000000, spec.longUs.toNat * rate.toNat⟩ }

/-- The first pass over the whole train (R236). -/
def pcmPreamble (c : Params) (q : PcmNominal) (pt : PulseTrain) (stop : Nat) : Estimate :=
  preamblePass q pt stop stop 0 ⟨q.fShort, q.fLong, c.pcmPreambleMin, 0⟩

/-- Step E7 for PCM: the latches of R231 to R238, from the latches of E3, the registers and the train. -/
def pcmLatches (c : Params) (spec : ModSpec) (pt : PulseTrain) (l : Latches) : Latches :=
  let q := pcmNominal c spec pt.sampleRate l
  let e := pcmPreamble c q pt l.n.toNat
  let f := if e.preambleLen = 0 then fallback c q pt l.n.toNat else (e.fShort, e.fLong)
  { l with
    nrz := q.nrz
    gl := if 0 < l.sGap then l.sGap else l.sReset
    maxZeros := q.maxZeros
    tolEff := q.tolEff
    fShort := f.1
    fLong := f.2
    preambleLen := e.preambleLen }

/-- The one-count of a pulse (R241). -/
def pcmOnes (l : Latches) (p : Nat) : Nat := rhu p l.fShort

/-- The zero-count of a gap (R240, R241): 0 if `g + short - long` is not positive, else clamped by MAX_ZEROS. DEDUCED (log 23):
for `g = 0` R245 says "no zeros", but with S_SHORT > S_LONG the formula of R240, from which R245 is derived, can give some; the
model follows R240. -/
def pcmZeros (l : Latches) (g : Nat) : Nat :=
  if g + l.sShort ≤ l.sLong then 0 else min (rhu (g + l.sShort - l.sLong) l.fLong) l.maxZeros

/-- The pulse is outside tolerance of the nominal short width, in RZ coding (R242). -/
def pcmDrops (l : Latches) (p : Nat) : Bool := !l.nrz && decide (l.tolEff < dist p l.sShort)

/-- `STATE <- NEW_ROW ; <row operation on bb[0]> ; STATE <- ACCUMULATING` (R201). -/
def newRowBy (f : Logged → Logged) (s : State) : State :=
  (((s.setPhase .newRow).onBuffer .b0 f)).setPhase .accumulating

/-- SYMBOL(p, g, last) for PCM (R240). -/
def pcmSymbol (p g : Nat) (s : State) : State :=
  let t := (s.onBuffer .b0 (Logged.addBits s.cfg true (pcmOnes s.lat p))).onBuffer .b0
    (Logged.addBits s.cfg false (pcmZeros s.lat g))
  if pcmDrops s.lat p then (t.setBb .b0 BitBuffer.empty).raise .wFrameDrop
  else if s.lat.gl < g ∧ g ≤ s.lat.sReset then newRowBy (Logged.addRow s.cfg) t
  else t

end Sys2Proof.Machine
end

