-- ==== Sys2Proof/Machine/DemodPpm.lean ====
section
/-! DEFINITION. The PPM part of a run (45_demod_ppm.md): the window latches and the action on one symbol. -/

namespace Sys2Proof.Machine

/-- Step E7 for PPM: the six window latches (R251). -/
def ppmLatches (l : Latches) : Latches :=
  if 0 < l.sTol then
    { l with
      zeroL := (l.sShort : Int) - l.sTol
      zeroU := .fin ((l.sShort : Int) + l.sTol)
      oneL := (l.sLong : Int) - l.sTol
      oneU := .fin ((l.sLong : Int) + l.sTol)
      syncL := if 0 < l.sSync then (l.sSync : Int) - l.sTol else 0
      syncU := if 0 < l.sSync then .fin ((l.sSync : Int) + l.sTol) else .fin 0 }
  else
    { l with
      zeroL := 0
      zeroU := .fin (((l.sShort + l.sLong) / 2 : Nat) + 1)
      oneL := ((l.sShort + l.sLong) / 2 : Nat)
      oneU := .fin (if 0 < l.sGap then (l.sGap : Int) else l.sReset)
      syncL := 0
      syncU := .fin 0 }

/-- SYMBOL(p, g, last) for PPM (R255); the pulse plays no part (R252). -/
def ppmSymbol (g : Nat) (s : State) : State :=
  if inWindow s.lat.zeroL s.lat.zeroU g then s.onBuffer .b0 (Logged.addBit s.cfg false)
  else if inWindow s.lat.oneL s.lat.oneU g then s.onBuffer .b0 (Logged.addBit s.cfg true)
  else if inWindow s.lat.syncL s.lat.syncU g then newRowBy (Logged.addSync s.cfg) s
  else if g < s.lat.sReset then newRowBy (Logged.addRow s.cfg) s
  else s

end Sys2Proof.Machine
end

