-- ==== Sys2Proof/Machine/DemodPwm.lean ====
section
/-! DEFINITION. The PWM part of a run (46_demod_pwm.md): the band latches and the action on one symbol. -/

namespace Sys2Proof.Machine

/-- The integer midpoint `(a + b) div 2` of two nominal widths (R266). -/
def midpoint (a b : Nat) : Int := ((a + b) / 2 : Nat)

/-- Step E7 for PWM: the six window latches in strict mode or one of the four raw layouts (R266). A lower bound
`U - 1` of R266 is the midpoint itself, since `U` is the midpoint plus 1. -/
def pwmLatches (l : Latches) : Latches :=
  if 0 < l.sTol then
    { l with
      oneL := (l.sShort : Int) - l.sTol
      oneU := .fin ((l.sShort : Int) + l.sTol)
      zeroL := (l.sLong : Int) - l.sTol
      zeroU := .fin ((l.sLong : Int) + l.sTol)
      syncL := if 0 < l.sSync then (l.sSync : Int) - l.sTol else 0
      syncU := if 0 < l.sSync then .fin ((l.sSync : Int) + l.sTol) else .fin 0 }
  else if l.sSync = 0 then
    { l with
      oneL := 0
      oneU := .fin (midpoint l.sShort l.sLong + 1)
      zeroL := midpoint l.sShort l.sLong
      zeroU := .inf
      syncL := 0
      syncU := .fin 0 }
  else if l.sSync < l.sShort then
    { l with
      syncL := 0
      syncU := .fin (midpoint l.sSync l.sShort + 1)
      oneL := midpoint l.sSync l.sShort
      oneU := .fin (midpoint l.sShort l.sLong + 1)
      zeroL := midpoint l.sShort l.sLong
      zeroU := .inf }
  else if l.sSync < l.sLong then
    { l with
      oneL := 0
      oneU := .fin (midpoint l.sShort l.sSync + 1)
      syncL := midpoint l.sShort l.sSync
      syncU := .fin (midpoint l.sSync l.sLong + 1)
      zeroL := midpoint l.sSync l.sLong
      zeroU := .inf }
  else
    { l with
      oneL := 0
      oneU := .fin (midpoint l.sShort l.sLong + 1)
      zeroL := midpoint l.sShort l.sLong
      zeroU := .fin (midpoint l.sLong l.sSync + 1)
      syncL := midpoint l.sLong l.sSync
      syncU := .inf }

/-- The first part of SYMBOL for PWM (R270): what the pulse does. -/
def pwmPulse (p : Nat) (s : State) : State :=
  if inWindow s.lat.oneL s.lat.oneU p then s.onBuffer .b0 (Logged.addBit s.cfg true)
  else if inWindow s.lat.zeroL s.lat.zeroU p then s.onBuffer .b0 (Logged.addBit s.cfg false)
  else if inWindow s.lat.syncL s.lat.syncU p then newRowBy (Logged.addSync s.cfg) s
  else if (p : Int) ≤ s.lat.oneL then s
  else newRowBy (Logged.addRow s.cfg) s

/-- SYMBOL(p, g, last) for PWM (R270): the pulse, then the row break by gap if no message end stands at this symbol (R272). -/
def pwmSymbol (p g : Nat) (last : Bool) (s : State) : State :=
  let t := pwmPulse p s
  if !(last || decide (s.lat.sReset < g)) && (decide (0 < s.lat.sGap) && decide (s.lat.sGap < g)) then
    newRowBy (Logged.addRow s.cfg) t
  else t

end Sys2Proof.Machine
end

