-- ==== Sys2Proof/Machine/Demod.lean ====
section
/-! DEFINITION. The demodulator run, its entry and symbol loop, and the meanings of DM_RUN, DM_SINKRET and DM_STRING
(43_demod_common.md). -/

namespace Sys2Proof.Machine

/-- `scale(x) = floor(x * SAMPLE_RATE / 1000000)` (R191). -/
def scale (x rate : Word) : Nat := x.toNat * rate.toNat / 1000000

/-- The demodulator a MOD_KIND code names; codes 3 to 7 name none the block implements (R103, R195). -/
def demodOf (k : BitVec 3) : Option DemodKind :=
  if k = 0 then some .pcm else if k = 1 then some .ppm else if k = 2 then some .pwm else none

/-- Step E1 of R193. -/
def entryE1 (s : State) : State := (((s.setEvents 0).setDispatches 0).setCursor 0).setOrigin .run

/-- Step E3 of R193: KIND_L, N and the six scaled widths; the other latches keep their values (R194). -/
def entryE3 (k : DemodKind) (s : State) : State :=
  s.setLat { s.lat with
    kind := k
    n := s.pt.numPulses
    sShort := scale s.spec.shortUs s.pt.sampleRate
    sLong := scale s.spec.longUs s.pt.sampleRate
    sSync := scale s.spec.syncUs s.pt.sampleRate
    sGap := scale s.spec.gapUs s.pt.sampleRate
    sReset := scale s.spec.resetUs s.pt.sampleRate
    sTol := scale s.spec.tolUs s.pt.sampleRate }

/-- Check E4 of R193: PCM with a zero width (R196). -/
def configBad (s : State) : Bool := s.lat.kind == .pcm && (s.spec.shortUs == 0 || s.spec.longUs == 0)

/-- A configured nonzero width scaled to 0 samples (R197). -/
def widthLost (us : Word) (samples : Nat) : Bool := us != 0 && samples == 0

/-- Check E5 of R193 over all six widths (R197). -/
def rateTooLow (s : State) : Bool :=
  widthLost s.spec.shortUs s.lat.sShort || widthLost s.spec.longUs s.lat.sLong ||
  widthLost s.spec.syncUs s.lat.sSync || widthLost s.spec.gapUs s.lat.sGap ||
  widthLost s.spec.resetUs s.lat.sReset || widthLost s.spec.tolUs s.lat.sTol

/-- Step E7 of R193: the latches of the selected demodulator. -/
def demodLatches (s : State) : Latches :=
  match s.lat.kind with
  | .pcm => pcmLatches s.cfg s.spec s.pt s.lat
  | .ppm => ppmLatches s.lat
  | .pwm => pwmLatches s.lat

/-- END(g), the silence test (R206). -/
def endsMessage (l : Latches) (g : Nat) : Bool :=
  match l.kind with
  | .pcm => decide (l.sReset < g)
  | .ppm => decide (l.sReset ≤ g)
  | .pwm => decide (l.sReset < g)

/-- SYMBOL(p, g, last) of the latched demodulator (R205). -/
def symbol (p g : Nat) (last : Bool) (s : State) : State :=
  match s.lat.kind with
  | .pcm => pcmSymbol p g s
  | .ppm => ppmSymbol g s
  | .pwm => pwmSymbol p g last s

/-- The symbol step of R205 up to the message-end test, at index `n = CURSOR`. -/
def symbolStep (s : State) : State :=
  let n := s.cursor.toNat
  symbol (s.pt.p n) (s.pt.g n) (n == s.lat.n.toNat - 1) (s.setPhase .accumulating)

/-- `last or END(g)` at the symbol CURSOR names (R205, R208). -/
def messageEnds (s : State) : Bool :=
  s.cursor.toNat == s.lat.n.toNat - 1 || endsMessage s.lat (s.pt.g s.cursor.toNat)

/-- `CURSOR <- n + 1`. -/
def advance (s : State) : State := s.setCursor (s.cursor + 1)

/-- The RESUME line of R205, and what follows it in the same pass: `CLEAR(bb[0]) ; CURSOR <- n + 1`. -/
def resume (s : State) : State := advance (s.setBb .b0 BitBuffer.empty)

/-- RUN_LOOP of R205 for at most `fuel` symbol steps: to IDLE when the train is exhausted, or to DISPATCH. -/
def runLoop : Nat → State → State
  | 0, s => endRun s
  | fuel + 1, s =>
    if s.cursor.toNat < s.lat.n.toNat then
      let t := symbolStep s
      if messageEnds s then (if t.bb0.hasData then dispatch .run t else runLoop fuel (resume t))
      else runLoop fuel (advance t)
    else endRun s

/-- RUN_LOOP with the steps that the train still holds (R205: "the loop ends after exactly N steps"). -/
def runFrom (s : State) : State := runLoop (s.lat.n.toNat - s.cursor.toNat) s

/-- An aborted DM_RUN: the flag, STATE = IDLE, and the event `done` (R193, R199, R300). -/
def abortRun (f : Flag) (s : State) : State := endRun (s.raise f)

/-- ENTRY (R193, E2 to E7 after E1) and the run. -/
def runEntry (s : State) : State :=
  match demodOf s.spec.kind with
  | none   => abortRun .eKind s
  | some k =>
    let t := entryE3 k s
    if configBad t then abortRun .eConfig t
    else if rateTooLow t then abortRun .eRateLow t
    else
      let u := t.setBb .b0 BitBuffer.empty
      runFrom (u.setLat (demodLatches u))

/-- DM_RUN (R190, R193). -/
def execDmRun (s : State) : Host.Outcome State Fault Refusal :=
  command .start true (fun t => runEntry (entryE1 (t.setDone false))) s

/-- DM_SINKRET with a legal status (R214 to R216): aggregate, clear `bb[0]`, then IDLE or the rest of the run. -/
def sinkReturn (s : State) : State :=
  let t := aggregate s.sinkStatus s
  match s.origin with
  | .string => endRun (t.setBb .b0 BitBuffer.empty)
  | .run    => runFrom (resume t)

/-- DM_SINKRET (R214): the range check first, then the return. -/
def execDmSinkRet (s : State) : Host.Outcome State Fault Refusal :=
  command .sinkReturn true (fun t =>
    if t.sinkStatus < t.cfg.failMin then raiseFatal t.arg0 (t.setDone false) else sinkReturn (t.setDone false)) s

/-- DM_STRING (R219). -/
def execDmString (s : State) : Host.Outcome State Fault Refusal :=
  command .start true (fun t => dispatch .string (((t.setEvents 0).setDispatches 0).setCursor 0)) s

end Sys2Proof.Machine
end

