-- ==== Sys2Proof/Machine/LineDecoders.lean ====
section
/-! DEFINITION. The Manchester and differential-Manchester line decoders (42_line_decoders.md). -/

namespace Sys2Proof.Machine

/-- The end `n` of the input (R170): the row's length, cut at `start + 2 * mx` if `mx > 0`. -/
def inputEnd (len start mx : Nat) : Nat := if 0 < mx ∧ start + 2 * mx < len then start + 2 * mx else len

/-- Where a line decoder stands: destination and FLAGS, position `ipos`, bits decoded `cnt` (R170). -/
structure LineRun where
  out  : Logged
  ipos : Nat
  cnt  : Nat
deriving DecidableEq, Repr

/-- `ADD_BIT(d, v) ; cnt <- cnt + 1`, and `ipos <- ipos + 2`. -/
def LineRun.emit (c : Params) (v : Bool) (q : LineRun) : LineRun := ⟨q.out.addBit c v, q.ipos + 2, q.cnt + 1⟩

/-- The loop of LD_MANCH (R171) over the half-bits `h`, for at most `fuel` pairs. -/
def manchLoop (c : Params) (h : Nat → Bool) (n : Nat) : Nat → LineRun → LineRun
  | 0, q => q
  | fuel + 1, q =>
    if q.ipos + 1 < n then
      if h q.ipos = h (q.ipos + 1) then { q with ipos := q.ipos + 2 }
      else manchLoop c h n fuel (q.emit c (h (q.ipos + 1)))
    else q

/-- The steady state of LD_DMANCH (R175, phase 2); `prev` is the level before the cell at `ipos`. -/
def dmanchSteady (c : Params) (h : Nat → Bool) (n : Nat) : Nat → Bool → LineRun → LineRun
  | 0, _, q => q
  | fuel + 1, prev, q =>
    if q.ipos + 1 < n then
      if h q.ipos = prev then q
      else dmanchSteady c h n fuel (h (q.ipos + 1)) (q.emit c (h q.ipos != h (q.ipos + 1)))
    else q

/-- Phase 1 of LD_DMANCH (R175), finding the cell boundary, then the steady state. -/
def dmanchLoop (c : Params) (h : Nat → Bool) (n : Nat) : Nat → LineRun → LineRun
  | 0, q => q
  | fuel + 1, q =>
    if n ≤ q.ipos + 1 then q
    else if h q.ipos = h (q.ipos + 1) then dmanchSteady c h n (fuel + 1) (!h q.ipos) q
    else if n ≤ q.ipos + 2 then q
    else if h (q.ipos + 1) ≠ h (q.ipos + 2) then dmanchLoop c h n fuel (q.emit c true)
    else dmanchSteady c h n (fuel + 1) (h q.ipos) { q with ipos := q.ipos + 1 }

/-- The half-bit reader and the input end of a decoder's source row (R170). -/
def lineInputEnd (s : State) (buf : Buf) (row : Nat) : Nat := inputEnd ((s.bb buf).len row) s.argNat0 s.argNat1

/-- Where a decoder starts: the other buffer as it stands, FLAGS, `ipos = start`, `cnt = 0` (R170). -/
def lineStart (s : State) (buf : Buf) : LineRun := ⟨(s.bb (otherBuf buf), s.flags), s.argNat0, 0⟩

/-- Stores a decoder's outcome: destination, FLAGS, RES0 = ipos, RES1 = cnt (R170). -/
def storeLine (buf : Buf) (q : LineRun) (s : State) : State :=
  (((s.setBb (otherBuf buf) q.out.1).setFlags q.out.2).setRes0 (resultWord q.ipos)).setRes1 (resultWord q.cnt)

/-- LD_MANCH (R171). The row's length bounds the number of pairs. -/
def execLdManch (buf : Buf) (row : Nat) (s : State) : Host.Outcome State Fault Refusal :=
  command .buffer (rowInRange s.cfg row) (fun t =>
    storeLine buf (manchLoop t.cfg ((t.bb buf).bit t.cfg row) (lineInputEnd t buf row) ((t.bb buf).len row)
      (lineStart t buf)) t) s

/-- LD_DMANCH (R175). The row's length bounds the number of cells. -/
def execLdDmanch (buf : Buf) (row : Nat) (s : State) : Host.Outcome State Fault Refusal :=
  command .buffer (rowInRange s.cfg row) (fun t =>
    storeLine buf (dmanchLoop t.cfg ((t.bb buf).bit t.cfg row) (lineInputEnd t buf row) ((t.bb buf).len row)
      (lineStart t buf)) t) s

end Sys2Proof.Machine
end

