-- ==== Sys2Proof/Machine/Dispatch.lean ====
section
/-! DEFINITION. The meaning of every command (R95): one arm per constructor of Instr. -/

namespace Sys2Proof.Machine

def exec (i : Instr) (s : State) : Host.Outcome State Fault Refusal :=
  match i with
  | .bbClear buf => Sys2Proof.Machine.execBbClear buf s
  | .bbAddBit buf bit => Sys2Proof.Machine.execBbAddBit buf bit s
  | .bbAddRow buf => Sys2Proof.Machine.execBbAddRow buf s
  | .bbAddSync buf => Sys2Proof.Machine.execBbAddSync buf s
  | .bbInvert buf => Sys2Proof.Machine.execBbInvert buf s
  | .bbNrzs buf => Sys2Proof.Machine.execBbNrzs buf s
  | .bbNrzm buf => Sys2Proof.Machine.execBbNrzm buf s
  | .bbExtract buf row => Sys2Proof.Machine.execBbExtract buf row s
  | .bbSearch buf row => Sys2Proof.Machine.execBbSearch buf row s
  | .bbCmpRows buf rowA rowB => Sys2Proof.Machine.execBbCmpRows buf rowA rowB s
  | .bbCntRep buf row => Sys2Proof.Machine.execBbCntRep buf row s
  | .bbFindRow buf => Sys2Proof.Machine.execBbFindRow buf s
  | .bbFindPfx buf => Sys2Proof.Machine.execBbFindPfx buf s
  | .ldManch buf row => Sys2Proof.Machine.execLdManch buf row s
  | .ldDmanch buf row => Sys2Proof.Machine.execLdDmanch buf row s
  | .dmRun => Sys2Proof.Machine.execDmRun s
  | .dmSinkRet => Sys2Proof.Machine.execDmSinkRet s
  | .dmString => Sys2Proof.Machine.execDmString s

end Sys2Proof.Machine
end

