-- ==== Sys2Proof/Machine/Step.lean ====
section
/-! DEFINITION. One step of the block: it accepts the environment's next access; a write to CMD runs the command the word
encodes, whole (R76, R90), or refuses a reserved word (R94). -/

namespace Sys2Proof.Machine

/-- A command word at the command port: decode, then execute or refuse (R90, R93, R94). -/
def issue (w : Word) (s : State) : Host.Outcome State Fault Refusal :=
  match decode w with
  | .ok i    => exec i s
  | .error _ => .next (refuseReserved s)

/-- One step (R80): the next access takes effect, seeing the complete effect of all earlier ones. -/
def step (s : State) : Host.Outcome State Fault Refusal :=
  match acceptNext s with
  | .command w t => issue w t
  | .complete t  => .next t

/-- The block with a command word standing as the environment's next access, a write to CMD (log 2). -/
def State.withFetchWord (s : State) (nbits w : Nat) : State :=
  { s with pending := .write 0 (tableWord nbits w) :: s.pending }

end Sys2Proof.Machine
end

