-- ==== Sys2Proof/Machine/Outputs.lean ====
section
/-! DEFINITION. What the block shows outside: the status outputs of R300 and the observation of a run (R17). -/

namespace Sys2Proof.Machine

/-- Output `disp` (R300). -/
def State.dispOut (s : State) : Bool := decide (s.phase = .dispatch)

/-- Output `fatal` (R300). -/
def State.fatalOut (s : State) : Bool := decide (s.phase = .fatal)

/-- Output `warn`: FLAGS[30:0] is not zero (R300). -/
def State.warnOut (s : State) : Bool := decide (readFlags s.flags &&& 0x7FFFFFFF ≠ 0)

/-- Event output `done` of the last step (R300; log 4). -/
def State.doneOut (s : State) : Bool := s.done

/-- The observation of a run (R17): the snapshots of `bb[0]` at each entry to DISPATCH, the statuses the sink returned, and the
final values of EVENTS, DISPATCHES, STAT_FAIL, FLAGS and STATE. -/
structure Observation where
  snapshots  : List BitBuffer
  statuses   : List Word
  events     : Word
  dispatches : Word
  statFail   : Memory Word
  flags      : Word
  phase      : Phase
deriving DecidableEq, Repr

/-- The end of an observation: nothing dispatched, the final registers. -/
def Observation.final (s : State) : Observation :=
  ⟨[], [], s.events, s.dispatches, s.statFail, readFlags s.flags, s.phase⟩

/-- The next step takes the sink's answer: the block is in DISPATCH and accepts the word of DM_SINKRET (R214). -/
def answersSink (s : State) : Bool :=
  s.dispOut && (match acceptNext s with | .command w _ => w == encode .dmSinkRet | .complete _ => false)

/-- The step from `s` to `t` entered DISPATCH (R212). -/
def entersDispatch (s t : State) : Bool := t.dispOut && (!s.dispOut || answersSink s)

/-- What one step `s` to `t` adds to the observation (R17). -/
def Observation.add (s t : State) (o : Observation) : Observation :=
  { o with
    snapshots := if entersDispatch s t then t.bb0 :: o.snapshots else o.snapshots
    statuses := if answersSink s then s.arg0 :: o.statuses else o.statuses }

/-- The observation of `k` steps (R17); a step that did not answer a next state would end it. -/
def observe : Nat → State → Observation
  | 0, s => Observation.final s
  | k + 1, s =>
    match step s with
    | .next t    => (observe k t).add s t
    | .fault _   => Observation.final s
    | .refused _ => Observation.final s

end Sys2Proof.Machine
end

