-- ==== Sys2Proof/Safety.lean ====
section
/-! DEFINITION. What counts as a good state and a good step, in the terms claims use: the BitBuffer invariants of R26, the
ranges the spec gives the registers, and the run-time invariants that every step keeps. -/

namespace Sys2Proof.Machine

/-- The slots the row at `r` takes: `max(1, ceil(len(r) / (8*COLS)))` (R26 I2, I5). -/
def BitBuffer.extent (c : Params) (x : BitBuffer) (r : Nat) : Nat :=
  max 1 ((x.len r + c.slotBits - 1) / c.slotBits)

/-- R26 I1. -/
def BitBuffer.CursorsInRange (c : Params) (x : BitBuffer) : Prop :=
  x.numRows ≤ x.freeRow ∧ x.freeRow ≤ c.rows ∧ (x.numRows = 0 ↔ x.freeRow = 0)

/-- R26 I2. -/
def BitBuffer.FreeAfterCurrent (c : Params) (x : BitBuffer) : Prop :=
  0 < x.numRows → x.freeRow = x.cur + x.extent c x.cur

/-- R26 I3. -/
def BitBuffer.UnusedSlotsZero (x : BitBuffer) : Prop :=
  ∀ r, x.numRows ≤ r → x.len r = 0 ∧ x.syncsBeforeRow.read r = 0

/-- R26 I4, padding is zero: a bit of the storage that is set is an active bit of some row. -/
def BitBuffer.PaddingZero (c : Params) (x : BitBuffer) : Prop :=
  ∀ a k, k < 8 → (x.mem.read a).getLsbD k = true →
    ∃ r i, r < x.numRows ∧ i < x.len r ∧ a = bitAddr c r i ∧ k = 7 - i % 8

/-- R26 I5: the slots a row has spilled into are continuation slots, and no earlier row reaches the current one. -/
def BitBuffer.RowsDisjoint (c : Params) (x : BitBuffer) : Prop :=
  (∀ r, r < x.numRows → ∀ r', r < r' → r' < r + x.extent c r → x.len r' = 0 ∧ x.syncsBeforeRow.read r' = 0) ∧
  (∀ r, r < x.cur → r + x.extent c r ≤ x.cur)

/-- R22: the length of the row at slot `r` is at most `(ROWS - r) * COLS * 8`, and a `bits_per_row` entry, BPRW bits wide, can
hold it. The invariants of R26 imply it. -/
def BitBuffer.LengthsInRange (c : Params) (x : BitBuffer) : Prop :=
  ∀ r, x.len r ≤ (c.rows - r) * c.slotBits ∧ x.len r < 2 ^ c.bprw

/-- From `x` to `y` no storage byte changes but those at the addresses `bytes`, no bit count but those of the slots `counts`, and
no sync counter but those of the slots `syncs`; the two cursors may change. With at most one address and one slot in each it is
the bound of R130. -/
structure BitBuffer.TouchesOnly (x y : BitBuffer) (bytes counts syncs : Set Nat) : Prop where
  bytes  : ∀ a, a ∉ bytes → y.mem.read a = x.mem.read a
  counts : ∀ r, r ∉ counts → y.len r = x.len r
  syncs  : ∀ r, r ∉ syncs → y.syncsBeforeRow.read r = x.syncsBeforeRow.read r

/-- The three arrays of a buffer are in canonical form. -/
def BitBuffer.Canonical (x : BitBuffer) : Prop := x.mem.wf ∧ x.bitsPerRow.wf ∧ x.syncsBeforeRow.wf

/-- R26 whole, with the canonical form of the arrays. -/
structure BitBuffer.Good (c : Params) (x : BitBuffer) : Prop where
  cursors   : x.CursorsInRange c
  free      : x.FreeAfterCurrent c
  unused    : x.UnusedSlotsZero
  padding   : x.PaddingZero c
  disjoint  : x.RowsDisjoint c
  canonical : x.Canonical

/-- Every storage array of the block is in canonical form (log 9). -/
def State.MemoryCanonical (s : State) : Prop :=
  s.bb0.Canonical ∧ s.bb1.Canonical ∧ s.pt.pulse.wf ∧ s.pt.gap.wf ∧ s.pat.wf ∧ s.xbuf.wf ∧ s.statFail.wf

/-- STATE at rest is IDLE, DISPATCH or FATAL (R40, R76). -/
def State.AtRest (s : State) : Prop := s.phase = .idle ∨ s.phase = .dispatch ∨ s.phase = .fatal

/-- Reserved bits of FLAGS are 0, and F_FATAL mirrors STATE = FATAL (R39). -/
def State.FlagsSound (s : State) : Prop :=
  s.flags &&& flagsDefined = s.flags ∧ (s.flags.getLsbD Flag.fFatal.pos = true ↔ s.phase = .fatal)

/-- NUM_PULSES, N and CURSOR are in range (R30, R41, R45), and a pending dispatch of a run stands at a symbol of the train. -/
def State.CountsInRange (s : State) : Prop :=
  s.pt.numPulses.toNat ≤ s.cfg.maxp ∧ s.lat.n.toNat ≤ s.cfg.maxp ∧
  (s.phase = .dispatch → s.origin = .run → s.cursor.toNat < s.lat.n.toNat)

/-- What every step keeps. -/
structure State.Good (s : State) : Prop where
  legal  : s.cfg.Legal
  rest   : s.AtRest
  flags  : s.FlagsSound
  counts : s.CountsInRange
  bb0    : s.bb0.Good s.cfg
  bb1    : s.bb1.Good s.cfg
  arrays : s.MemoryCanonical

/-- The block accepts BB_ and LD_ commands: IDLE or DISPATCH (R293). -/
def State.AcceptsBuffer (s : State) : Prop := s.phase = .idle ∨ s.phase = .dispatch

/-! ### Terms for rows and commands -/

/-- Bit `k` of storage byte `a` is an active bit of some row (R26 I4). -/
def BitBuffer.ActiveBit (c : Params) (x : BitBuffer) (a k : Nat) : Prop :=
  ∃ r i, r < x.numRows ∧ i < x.len r ∧ a = bitAddr c r i ∧ k = 7 - i % 8

/-- The bit before position `i` of a row, 0 before the first (R142, R144). -/
def prevBit (c : Params) (x : BitBuffer) (r : Nat) : Nat → Bool
  | 0 => false
  | i + 1 => x.bit c r i

/-- CMP(ra, rb, m) of R153, written with quantifiers. -/
abbrev RowsMatch (c : Params) (x : BitBuffer) (ra rb m : Nat) : Prop :=
  (x.len ra = x.len rb ∧ ∀ i, i < x.len ra → x.bit c ra i = x.bit c rb i) ∨
  (0 < m ∧ m ≤ x.len ra ∧ m ≤ x.len rb ∧ ∀ i, i < m → x.bit c ra i = x.bit c rb i)

/-- How many rows of the buffer match `row` (R155). -/
def matchingRows (c : Params) (x : BitBuffer) (row m : Nat) : Nat :=
  ((Finset.range x.numRows).filter (fun r => RowsMatch c x row r m)).card

/-- ADD_BIT of each bit of a list, in order. -/
def Logged.addAll (c : Params) (bits : List Bool) (p : Logged) : Logged := bits.foldl (fun q v => q.addBit c v) p

/-- The bits a cell sequence of differential Manchester code stands for: 1 iff the two half-bits of a cell differ (R175). -/
def cellBits (h : Nat → Bool) (q k : Nat) : List Bool :=
  (List.range k).map (fun j => h (q + 2 * j) != h (q + 2 * j + 1))

/-- The steady state of R175 from `q`, `prev` before it, decodes exactly `k` cells: each begins with a change of level and lies
below `n`, and the next one does not. -/
def SteadyCells (h : Nat → Bool) (n q : Nat) (prev : Bool) (k : Nat) : Prop :=
  (∀ j, j < k → q + 2 * j + 1 < n ∧ h (q + 2 * j) ≠ (if j = 0 then prev else h (q + 2 * j - 1))) ∧
  (n ≤ q + 2 * k + 1 ∨ h (q + 2 * k) = (if k = 0 then prev else h (q + 2 * k - 1)))

/-! ### Terms for runs -/

/-- Every width that is configured scales to at least one sample (R197). -/
def State.RateSuffices (s : State) : Prop :=
  ∀ us ∈ [s.spec.shortUs, s.spec.longUs, s.spec.syncUs, s.spec.gapUs, s.spec.resetUs, s.spec.tolUs],
    us ≠ 0 → scale us s.pt.sampleRate ≠ 0

/-- PCM has both its widths (R196). -/
def State.WidthsConfigured (s : State) : Prop := s.spec.kind = 0 → s.spec.shortUs ≠ 0 ∧ s.spec.longUs ≠ 0

/-- DM_RUN in IDLE passes the checks E2, E4 and E5 of R193. -/
def State.RunStarts (s : State) : Prop :=
  s.phase = .idle ∧ s.spec.kind.toNat ≤ 2 ∧ s.WidthsConfigured ∧ s.RateSuffices

/-- The state RUN_LOOP starts from: ENTRY done for the demodulator `k` (R193, E1 to E7). -/
def State.entered (s : State) (k : DemodKind) : State :=
  let t := (entryE3 k (entryE1 (s.setDone false))).setBb .b0 BitBuffer.empty
  t.setLat (demodLatches t)

/-- RUN_LOOP of R205 as a relation, written case by case from the rule, with no bound on the number of symbol steps. -/
inductive RunLoop : State → State → Prop where
  /-- the train is exhausted: STATE <- IDLE, `done` (R209) -/
  | finish {s : State} : ¬ s.cursor.toNat < s.lat.n.toNat → RunLoop s (endRun s)
  /-- no message end at this symbol -/
  | symbol {s t : State} : s.cursor.toNat < s.lat.n.toNat → messageEnds s = false →
      RunLoop (advance (symbolStep s)) t → RunLoop s t
  /-- message end with data: the block waits for the sink (R208, R212) -/
  | message {s : State} : s.cursor.toNat < s.lat.n.toNat → messageEnds s = true → (symbolStep s).bb0.hasData = true →
      RunLoop s (dispatch .run (symbolStep s))
  /-- message end without data: the buffer is cleared at once (R208) -/
  | silence {s t : State} : s.cursor.toNat < s.lat.n.toNat → messageEnds s = true → (symbolStep s).bb0.hasData = false →
      RunLoop (resume (symbolStep s)) t → RunLoop s t

/-- The block while symbols of a run are left: what the run itself may change is all but these fields (R69, R213, R316). -/
def SameOutsideRun (s t : State) : Prop :=
  t.cfg = s.cfg ∧ t.bb1 = s.bb1 ∧ t.pt = s.pt ∧ t.spec = s.spec ∧ t.arg0 = s.arg0 ∧ t.arg1 = s.arg1 ∧
  t.res1 = s.res1 ∧ t.pat = s.pat ∧ t.xbuf = s.xbuf ∧ t.pending = s.pending ∧ t.rdata = s.rdata

/-! ### Terms for the calibration of PCM -/

/-- M(n) of R235, from the latches of the run: M_NRZ in NRZ coding, M_RZ otherwise. -/
abbrev PcmMatches (l : Latches) (pt : PulseTrain) (n : Nat) : Prop :=
  ((pt.p n : Int) - l.sShort).natAbs ≤ l.tolEff ∧
  ((if l.nrz then (pt.g n : Int) else pt.p n + pt.g n) - l.sLong).natAbs ≤ l.tolEff

/-- The bit periods that one matching symbol weighs (R235). -/
def bitWeight (l : Latches) : Nat := if l.nrz then 2 else 1

/-- The sum of the pulses of some symbols (`sp` of R236). -/
def pulseSum (pt : PulseTrain) (a : Finset Nat) : Nat := ∑ n ∈ a, pt.p n

/-- The sum of pulse and gap of some symbols (`sb` of R236). -/
def periodSum (pt : PulseTrain) (a : Finset Nat) : Nat := ∑ n ∈ a, (pt.p n + pt.g n)

/-- The symbols `a` to `b - 1` are a maximal run of matching symbols, and the run qualifies as a preamble (R236). -/
structure Preamble (c : Params) (l : Latches) (pt : PulseTrain) (a b : Nat) : Prop where
  nonempty : a < b
  inTrain  : b ≤ l.n.toNat
  inside   : ∀ n, a ≤ n → n < b → PcmMatches l pt n
  left     : a = 0 ∨ ¬ PcmMatches l pt (a - 1)
  right    : b = l.n.toNat ∨ ¬ PcmMatches l pt b
  long     : c.pcmPreambleMin ≤ bitWeight l * (b - a)
  pulses   : 0 < pulseSum pt (Finset.Ico a b)
  periods  : 0 < periodSum pt (Finset.Ico a b)

/-! ### Terms for the bus -/

/-- An upper bound as LAT shows it: INF is 2^63 - 1 (R48). -/
def Bound.value : Bound → Int
  | .fin v => v
  | .inf   => 2 ^ 63 - 1

/-- The 23 values of the space LAT in the order of R48. -/
def latValues (l : Latches) : List Int :=
  [l.sShort, l.sLong, l.sSync, l.sGap, l.sReset, l.sTol, l.gl, l.maxZeros, l.tolEff, l.fShort.num, l.fShort.den,
   l.fLong.num, l.fLong.den, l.preambleLen, if l.nrz then 1 else 0, l.oneL, l.oneU.value, l.zeroL, l.zeroU.value,
   l.syncL, l.syncU.value, l.n.toNat, match l.kind with | .pcm => 0 | .ppm => 1 | .pwm => 2]

/-- The windows of R71 outside REG: base address and size in bytes. -/
def busWindows (c : Params) : List (Nat × Nat) :=
  let m := c.addrMap
  let buffer : BufferWindows → List (Nat × Nat) := fun w =>
    [(w.mem, c.rows * c.cols), (w.bits, 4 * c.rows), (w.syncs, 4 * c.rows), (w.numRows, 4), (w.freeRow, 4)]
  [(m.lat, 8 * 23), (m.pat, c.xcap), (m.xbuf, c.xcap), (m.ptPulse, 4 * c.maxp), (m.ptGap, 4 * c.maxp)] ++
    buffer m.bb0 ++ buffer m.bb1

/-- The offsets of the registers a bus write stores to, CMD apart (R50, R72). -/
def writableRegisters : List Nat :=
  [0x008, 0x00C, 0x010, 0x040, 0x044, 0x048, 0x04C, 0x050, 0x054, 0x058, 0x05C, 0x060, 0x064]

end Sys2Proof.Machine
end

