-- ==== Sys2Proof/Certificates/Slice0/Obligations.lean ====
section
/-! DEFINITION. The statements for the provers. Each is a proposition about the model of the block; its docstring names the rules
of spec/ it comes from. `s.bb b` is `bb[b]`, `s.setBb b y` the block with `bb[b]` replaced. The model's own rendering is marked in
the assumption log: the list `pending` of accesses (log 2), the event `done` as a field (log 4), the word `rdata` of the last read
(log 5), `resultWord n` for a number in a 32-bit register, free from 2^32 on (log 7), canonical arrays (log 9). -/

open Sys2Proof Sys2Proof.Machine

/-- Decoding the word of a well-formed command gives that command, for all 18 commands and every operand value (R91 to R95). -/
def Obligations.DecodeEncode : Prop :=
  ∀ i : Instr, WellFormed i = true → decode (encode i) = .ok i

/-- No bit of an accepted word is dropped: a word that decodes to a command is that command's encoding (R92, R93). -/
def Obligations.EncodeDecode : Prop :=
  ∀ (w : Word) (i : Instr), decode w = .ok i → WellFormed i = true ∧ encode i = w

/-- A word is reserved exactly if it matches no row of R95 (R94), and 238 opcode values stand in no row. -/
def Obligations.ReservedIffNoRow : Prop :=
  (∀ w : Word, (∃ e, decode w = .error e) ↔ ∀ r ∈ opcodeTable, w &&& r.mask ≠ r.pattern) ∧
  ((List.range 256).filter (fun o => opcodeTable.all (fun r => r.opc.toNat != o))).length = 238

/-- The sample words of R106, a demodulator word and three reserved words (R94) decode as the spec says. -/
def Obligations.DecodeSamples : Prop :=
  decode 0x02000001 = .ok (.bbAddBit .b0 true) ∧ decode 0x03000002 = .ok (.bbAddRow .b1) ∧
  decode 0x15020500 = .ok (.bbCmpRows .b0 2 5) ∧ decode 0x20030000 = .ok (.ldManch .b0 3) ∧
  decode 0x30000000 = .ok .dmRun ∧ decode 0x31000000 = .ok .dmSinkRet ∧
  decode 0x00000000 = .error (.unknownOpcode 0x00) ∧ decode 0x01000004 = .error (.unusedFieldSet "BB_CLEAR") ∧
  decode 0x30000001 = .error (.unusedFieldSet "DM_RUN")

/-- A step whose next access writes to CMD a word that decodes to `i` is `exec i`, with the access taken (R90, R76). That
accesses wait in the list `pending` is the model's choice (log 2). -/
def Obligations.StepRunsCommand : Prop :=
  ∀ (s : State) (a : Nat) (w : Word) (rest : List Access) (i : Instr),
    s.AtRest → s.pending = .write a w :: rest → a < 4 → decode w = .ok i →
    step s = exec i { s with pending := rest, done := false }

/-- A model's step function is total: from every state a step answers a next state (R287). -/
def Obligations.StepAlwaysAnswers : Prop :=
  ∀ s : State, ∃ t, step s = .next t

/-- The three causes of `refuse(E_BADCMD)` and its effect: one flag, nothing else (R292). -/
def Obligations.BadCommandRefused : Prop :=
  ∀ (s : State) (b : Buf) (row other : Nat), s.AcceptsBuffer →
    (∀ (a : Nat) (w : Word) (rest : List Access), s.pending = .write a w :: rest → a < 4 →
      (∀ r ∈ opcodeTable, w &&& r.mask ≠ r.pattern) →
      step s = .next ((({ s with pending := rest, done := false } : State)).raise .eBadCmd)) ∧
    (s.cfg.rows ≤ row →
      ∀ i ∈ [Instr.bbExtract b row, .bbSearch b row, .bbCmpRows b row other, .bbCmpRows b other row, .bbCntRep b row,
        .ldManch b row, .ldDmanch b row], exec i s = .next (s.raise .eBadCmd)) ∧
    (8 * s.cfg.xcap < s.arg1.toNat → exec (.bbSearch b row) s = .next (s.raise .eBadCmd))

/-- DM_RUN and DM_STRING outside IDLE, DM_SINKRET outside DISPATCH (R224). -/
def Obligations.RunCommandsByState : Prop :=
  ∀ s : State,
    (s.phase = .dispatch → exec .dmRun s = .next (s.raise .eBadState) ∧ exec .dmString s = .next (s.raise .eBadState)) ∧
    (s.phase = .idle → exec .dmSinkRet s = .next (s.raise .eBadState)) ∧
    (s.phase = .fatal → exec .dmRun s = .next s ∧ exec .dmString s = .next s ∧ exec .dmSinkRet s = .next s)

/-- In FATAL a command has no effect at all, not even a flag (R293). -/
def Obligations.FatalIgnoresCommands : Prop :=
  ∀ (i : Instr) (s : State), s.phase = .fatal → exec i s = .next s

/-- In FATAL writes are ignored, reads work, only reset leaves it (R297). -/
def Obligations.FatalIsAbsorbing : Prop :=
  ∀ (s : State) (x : Access) (rest : List Access), s.phase = .fatal → s.pending = x :: rest →
    s.fatalOut = true ∧
    (∀ a v, x = .write a v → step s = .next { s with pending := rest, done := false }) ∧
    (∀ a, x = .read a → step s = .next { s with pending := rest, done := false, rdata := busRead s a }) ∧
    (x = .rst → ∃ t, step s = .next t ∧ t.phase = .idle)

/-- BB_CLEAR: every byte, count and cursor of the buffer is 0, its reset value; nothing else changes (R120). -/
def Obligations.ClearZeroes : Prop :=
  ∀ (s : State) (b : Buf), s.AcceptsBuffer →
    ∃ y : BitBuffer, exec (.bbClear b) s = .next (s.setBb b y) ∧
      (∀ a, y.mem.read a = 0) ∧ (∀ r, y.len r = 0) ∧ (∀ r, y.syncsBeforeRow.read r = 0) ∧
      y.numRows = 0 ∧ y.freeRow = 0 ∧ y = State.reset.bb b

/-- BB_ADDBIT (R121). `x` is the buffer after AUTOCREATE (R122). The byte stored to is `bitAddr` of the current row and its
length; every other byte, count and register is unchanged. -/
def Obligations.AddBitAppends : Prop :=
  ∀ (s : State) (b : Buf) (v : Bool), s.AcceptsBuffer → (s.bb b).Canonical →
    let c := s.cfg
    let x := (s.bb b).autocreate
    let nb := x.len x.cur
    (0 < nb ∧ nb % (8 * c.cols) = 0 ∧ x.freeRow = c.rows →
      exec (.bbAddBit b v) s = .next ((s.setBb b x).raise .wBitDropped)) ∧
    (¬(0 < nb ∧ nb % (8 * c.cols) = 0 ∧ x.freeRow = c.rows) →
      ∃ y : BitBuffer, exec (.bbAddBit b v) s = .next (s.setBb b y) ∧
        y.numRows = x.numRows ∧
        y.freeRow = (if 0 < nb ∧ nb % (8 * c.cols) = 0 then x.freeRow + 1 else x.freeRow) ∧
        (∀ r, y.len r = if r = x.cur then nb + 1 else x.len r) ∧
        (∀ r, y.syncsBeforeRow.read r = x.syncsBeforeRow.read r) ∧
        (∀ k, k < 8 → (y.mem.read (bitAddr c x.cur nb)).getLsbD k =
          if k = 7 - nb % 8 then v else (x.mem.read (bitAddr c x.cur nb)).getLsbD k) ∧
        (∀ a, a ≠ bitAddr c x.cur nb → y.mem.read a = x.mem.read a))

/-- ADD_BIT of a list on an empty buffer: positions, length truncated at row capacity, and the flag (R131). -/
def Obligations.AddBitsFillRow : Prop :=
  ∀ (c : Params) (bits : List Bool) (v : Word), c.Legal →
    let p := Logged.addAll c bits (BitBuffer.empty, v)
    p.1.len 0 = min bits.length (c.rows * (8 * c.cols)) ∧
    (∀ i, i < p.1.len 0 → p.1.bit c 0 i = bits.getD i false) ∧
    p.1.numRows = (if bits = [] then 0 else 1) ∧
    p.2 = (if c.rows * (8 * c.cols) < bits.length then raiseIn .wBitDropped v else v)

/-- BB_ADDROW (R123). `x` is the buffer after AUTOCREATE (R122); every byte outside the current row's own slots is unchanged. -/
def Obligations.AddRowStartsRow : Prop :=
  ∀ (s : State) (b : Buf), s.AcceptsBuffer → s.cfg.Legal → (s.bb b).Good s.cfg →
    let c := s.cfg
    let x := (s.bb b).autocreate
    (x.freeRow < c.rows →
      exec (.bbAddRow b) s = .next (s.setBb b { x with numRows := x.freeRow + 1, freeRow := x.freeRow + 1 }) ∧
      x.len x.freeRow = 0 ∧ x.syncsBeforeRow.read x.freeRow = 0 ∧
      ∀ a, x.freeRow * c.cols ≤ a → x.mem.read a = 0) ∧
    (¬ x.freeRow < c.rows →
      ∃ y : BitBuffer, exec (.bbAddRow b) s = .next ((s.setBb b y).raise .wRowOverflow) ∧
        y.numRows = x.numRows ∧ y.freeRow = x.cur + 1 ∧
        (∀ r, y.len r = if r = x.cur then 0 else x.len r) ∧
        (∀ r, y.syncsBeforeRow.read r = if r = x.cur then 0 else x.syncsBeforeRow.read r) ∧
        (∀ a, y.mem.read a = if x.cur * c.cols ≤ a ∧ a < x.freeRow * c.cols then 0 else x.mem.read a))

/-- BB_ADDSYNC (R125), its four cases. `x` is the buffer after AUTOCREATE (R122). -/
def Obligations.AddSyncCounts : Prop :=
  ∀ (s : State) (b : Buf), s.AcceptsBuffer → s.cfg.Legal → (s.bb b).Good s.cfg →
    let c := s.cfg
    let x := (s.bb b).autocreate
    (x.len x.cur = 0 → x.syncsBeforeRow.read x.cur ≠ 65535#16 →
      ∃ m, exec (.bbAddSync b) s = .next (s.setBb b { x with syncsBeforeRow := m }) ∧
        ∀ r, m.read r = if r = x.cur then x.syncsBeforeRow.read x.cur + 1 else x.syncsBeforeRow.read r) ∧
    (x.len x.cur = 0 → x.syncsBeforeRow.read x.cur = 65535#16 →
      exec (.bbAddSync b) s = .next ((s.setBb b x).raise .wSyncSat)) ∧
    (0 < x.len x.cur → x.freeRow < c.rows →
      ∃ m, exec (.bbAddSync b) s =
          .next (s.setBb b { x with numRows := x.freeRow + 1, freeRow := x.freeRow + 1, syncsBeforeRow := m }) ∧
        ∀ r, m.read r = if r = x.freeRow then 1 else x.syncsBeforeRow.read r) ∧
    (0 < x.len x.cur → ¬ x.freeRow < c.rows →
      ∃ y : BitBuffer, exec (.bbAddSync b) s = .next ((s.setBb b y).raise .wRowOverflow) ∧
        y.numRows = x.numRows ∧ y.freeRow = x.cur + 1 ∧
        (∀ r, y.len r = if r = x.cur then 0 else x.len r) ∧
        (∀ r, y.syncsBeforeRow.read r = if r = x.cur then 1 else x.syncsBeforeRow.read r) ∧
        (∀ a, y.mem.read a = if x.cur * c.cols ≤ a ∧ a < x.freeRow * c.cols then 0 else x.mem.read a))

/-- BB_CLEAR, BB_ADDBIT, BB_ADDROW and BB_ADDSYNC keep I1 to I5 (R128), leave the other buffer alone, and touch the bytes,
counts and sync counters named here and no others (R130). `x` is the buffer after AUTOCREATE (R122). That R130's overflow
case is also that of the ADD_ROW a BB_ADDSYNC forces is the reading of the model (log 24). -/
def Obligations.CoreKeepsInvariants : Prop :=
  ∀ (s t : State) (b : Buf) (v : Bool), s.cfg.Legal → (s.bb b).Good s.cfg →
    let c := s.cfg
    let x := (s.bb b).autocreate
    let only := BitBuffer.TouchesOnly (s.bb b) (t.bb b)
    let rowBytes := Set.Ico (x.cur * c.cols) (x.freeRow * c.cols)
    (∀ i ∈ [Instr.bbClear b, .bbAddBit b v, .bbAddRow b, .bbAddSync b], exec i s = .next t →
      (t.bb b).Good c ∧ t.bb (otherBuf b) = s.bb (otherBuf b) ∧
      ∀ a, c.rows * c.cols ≤ a → (t.bb b).mem.read a = (s.bb b).mem.read a) ∧
    (exec (.bbAddBit b v) s = .next t → only {bitAddr c x.cur (x.len x.cur)} {x.cur} ∅) ∧
    (exec (.bbAddRow b) s = .next t →
      (x.freeRow < c.rows → only ∅ ∅ ∅) ∧ (¬ x.freeRow < c.rows → only rowBytes {x.cur} {x.cur})) ∧
    (exec (.bbAddSync b) s = .next t →
      (x.len x.cur = 0 → only ∅ ∅ {x.cur}) ∧
      (0 < x.len x.cur → x.freeRow < c.rows → only ∅ ∅ {x.freeRow}) ∧
      (0 < x.len x.cur → ¬ x.freeRow < c.rows → only rowBytes {x.cur} {x.cur}))

/-- BB_INVERT: every active bit is inverted, no other storage bit and no other state changes (R140). -/
def Obligations.InvertFlipsActiveBits : Prop :=
  ∀ (s : State) (b : Buf), s.AcceptsBuffer → s.cfg.Legal → (s.bb b).Good s.cfg →
    let c := s.cfg
    let x := s.bb b
    ∃ m : Memory Byte, exec (.bbInvert b) s = .next (s.setBb b { x with mem := m }) ∧
      (∀ r i, r < x.numRows → i < x.len r →
        BitBuffer.bit c { x with mem := m } r i = !x.bit c r i) ∧
      (∀ a k, k < 8 → ¬ x.ActiveBit c a k → (m.read a).getLsbD k = (x.mem.read a).getLsbD k)

/-- BB_INVERT is its own inverse, and does nothing on an empty buffer (R141). -/
def Obligations.InvertTwiceRestores : Prop :=
  ∀ (s : State) (b : Buf), s.AcceptsBuffer → s.cfg.Legal → (s.bb b).Good s.cfg →
    (∃ t, exec (.bbInvert b) s = .next t ∧ exec (.bbInvert b) t = .next s) ∧
    ((s.bb b).numRows = 0 → exec (.bbInvert b) s = .next s)

/-- BB_NRZS: every active bit becomes the complement of itself xor its predecessor as they were (R142). -/
def Obligations.NrzsDecodes : Prop :=
  ∀ (s : State) (b : Buf), s.AcceptsBuffer → s.cfg.Legal → (s.bb b).Good s.cfg →
    let c := s.cfg
    let x := s.bb b
    ∃ m : Memory Byte, exec (.bbNrzs b) s = .next (s.setBb b { x with mem := m }) ∧
      (∀ r i, r < x.numRows → i < x.len r →
        BitBuffer.bit c { x with mem := m } r i = !(x.bit c r i ^^ prevBit c x r i)) ∧
      (∀ a k, k < 8 → ¬ x.ActiveBit c a k → (m.read a).getLsbD k = (x.mem.read a).getLsbD k)

/-- BB_NRZM: every active bit becomes itself xor its predecessor as they were (R143). -/
def Obligations.NrzmDecodes : Prop :=
  ∀ (s : State) (b : Buf), s.AcceptsBuffer → s.cfg.Legal → (s.bb b).Good s.cfg →
    let c := s.cfg
    let x := s.bb b
    ∃ m : Memory Byte, exec (.bbNrzm b) s = .next (s.setBb b { x with mem := m }) ∧
      (∀ r i, r < x.numRows → i < x.len r →
        BitBuffer.bit c { x with mem := m } r i = (x.bit c r i ^^ prevBit c x r i)) ∧
      (∀ a k, k < 8 → ¬ x.ActiveBit c a k → (m.read a).getLsbD k = (x.mem.read a).getLsbD k)

/-- The transforms keep I1 to I5, write active bits only, and change no length or cursor (R146). -/
def Obligations.TransformsKeepInvariants : Prop :=
  ∀ (s t : State) (b : Buf), s.cfg.Legal → (s.bb b).Good s.cfg →
    ∀ i ∈ [Instr.bbInvert b, .bbNrzs b, .bbNrzm b], exec i s = .next t →
      (t.bb b).Good s.cfg ∧ (t.bb b).bitsPerRow = (s.bb b).bitsPerRow ∧
      (t.bb b).syncsBeforeRow = (s.bb b).syncsBeforeRow ∧ (t.bb b).numRows = (s.bb b).numRows ∧
      (t.bb b).freeRow = (s.bb b).freeRow ∧
      ∀ a k, k < 8 → ¬ (s.bb b).ActiveBit s.cfg a k →
        ((t.bb b).mem.read a).getLsbD k = ((s.bb b).mem.read a).getLsbD k

/-- BB_EXTRACT (R147): XBUF bytes below `ceil(L/8)`, RES0 = L, W_XTRUNC on clipping, nothing else. -/
def Obligations.ExtractCopiesRun : Prop :=
  ∀ (s : State) (b : Buf) (row : Nat), s.AcceptsBuffer → row < s.cfg.rows → s.xbuf.wf →
    let off := s.arg0.toNat
    let len := if 8 * s.cfg.xcap < s.arg1.toNat then 8 * s.cfg.xcap else s.arg1.toNat
    ∃ m : Memory Byte,
      exec (.bbExtract b row) s = .next { s with
        xbuf := m
        res0 := resultWord len
        flags := if 8 * s.cfg.xcap < s.arg1.toNat then raiseIn .wXtrunc s.flags else s.flags } ∧
      (∀ j k, 8 * j < len → k < 8 →
        (m.read j).getLsbD (7 - k) = (decide (8 * j + k < len) && (s.bb b).bit s.cfg row (off + (8 * j + k)))) ∧
      (∀ j, len ≤ 8 * j → m.read j = s.xbuf.read j)

/-- BB_SEARCH (R150): RES0 is the least match at or after `start`, or the row's length; nothing else changes. -/
def Obligations.SearchFindsLeast : Prop :=
  ∀ (s : State) (b : Buf) (row : Nat), s.AcceptsBuffer → row < s.cfg.rows →
    let n := (s.bb b).len row
    let start := s.arg0.toNat
    let pl := s.arg1.toNat
    let stands : Nat → Prop := fun i => start ≤ i ∧ i + pl ≤ n ∧
      ∀ k, k < pl → (s.bb b).bit s.cfg row (i + k) = (s.pat.read (k / 8)).getLsbD (7 - k % 8)
    (8 * s.cfg.xcap < pl → exec (.bbSearch b row) s = .next (s.raise .eBadCmd)) ∧
    (pl ≤ 8 * s.cfg.xcap → ∃ p, exec (.bbSearch b row) s = .next { s with res0 := resultWord p } ∧
      (pl = 0 → p = n) ∧
      (pl ≠ 0 → (∃ i, stands i) → stands p ∧ ∀ i, stands i → p ≤ i) ∧
      (pl ≠ 0 → (¬ ∃ i, stands i) → p = n))

/-- BB_CMPROWS (R153): RES0 is 1 if CMP holds, else 0; nothing else changes. -/
def Obligations.CompareRowsResult : Prop :=
  ∀ (s : State) (b : Buf) (ra rb : Nat), s.AcceptsBuffer → ra < s.cfg.rows → rb < s.cfg.rows →
    exec (.bbCmpRows b ra rb) s =
      .next { s with res0 := if RowsMatch s.cfg (s.bb b) ra rb s.arg0.toNat then 1 else 0 }

/-- The comparison BB_CMPROWS, BB_CNTREP, BB_FINDROW and BB_FINDPFX use is an equivalence for each `m` (R154). -/
def Obligations.CompareIsEquivalence : Prop :=
  ∀ (c : Params) (x : BitBuffer) (m : Nat),
    let same : Nat → Nat → Prop := fun a b => x.len a = x.len b ∧ ∀ i, i < x.len a → x.bit c a i = x.bit c b i
    (∀ a, x.cmp c a a m = true) ∧ (∀ a b, x.cmp c a b m = true → x.cmp c b a m = true) ∧
    (∀ a b d, x.cmp c a b m = true → x.cmp c b d m = true → x.cmp c a d m = true) ∧
    (∀ a b, m = 0 → (x.cmp c a b m = true ↔ same a b)) ∧
    (∀ a b, 0 < m → x.len a < m → (x.cmp c a b m = true ↔ same a b)) ∧
    (∀ a b, 0 < m → m ≤ x.len a → m ≤ x.len b →
      (x.cmp c a b m = true ↔ ∀ i, i < m → x.bit c a i = x.bit c b i)) ∧
    (∀ a b, x.len a = 0 → x.len b = 0 → x.cmp c a b m = true)

/-- BB_CNTREP (R155): RES0 is the number of matching rows, at least 1 for a row of the buffer; nothing else changes. -/
def Obligations.CountRepeatsResult : Prop :=
  ∀ (s : State) (b : Buf) (row : Nat), s.AcceptsBuffer → row < s.cfg.rows →
    exec (.bbCntRep b row) s =
      .next { s with res0 := resultWord (matchingRows s.cfg (s.bb b) row s.arg0.toNat) } ∧
    (row < (s.bb b).numRows → 1 ≤ matchingRows s.cfg (s.bb b) row s.arg0.toNat) ∧
    ((s.bb b).Good s.cfg → (s.bb b).numRows ≤ row →
      matchingRows s.cfg (s.bb b) row s.arg0.toNat =
        ((Finset.range (s.bb b).numRows).filter (fun r => (s.bb b).len r = 0)).card)

/-- BB_FINDROW (R157): the least row that meets both thresholds, rows compared exactly, or 0xFFFFFFFF; nothing else changes. -/
def Obligations.FindRowResult : Prop :=
  ∀ (s : State) (b : Buf), s.AcceptsBuffer →
    let x := s.bb b
    let q := s.arg0.toNat
    let mb := s.arg1.toNat
    let meets : Nat → Prop := fun r => r < x.numRows ∧ mb ≤ x.len r ∧ q ≤ matchingRows s.cfg x r 0
    (∀ r, meets r → (∀ r', meets r' → r ≤ r') → exec (.bbFindRow b) s = .next { s with res0 := resultWord r }) ∧
    ((∀ r, ¬ meets r) → exec (.bbFindRow b) s = .next { s with res0 := 0xFFFFFFFF })

/-- BB_FINDPFX (R158): as BB_FINDROW with the rows compared over `min_bits` bits. -/
def Obligations.FindPrefixResult : Prop :=
  ∀ (s : State) (b : Buf), s.AcceptsBuffer →
    let x := s.bb b
    let q := s.arg0.toNat
    let mb := s.arg1.toNat
    let meets : Nat → Prop := fun r => r < x.numRows ∧ mb ≤ x.len r ∧ q ≤ matchingRows s.cfg x r mb
    (∀ r, meets r → (∀ r', meets r' → r ≤ r') → exec (.bbFindPfx b) s = .next { s with res0 := resultWord r }) ∧
    ((∀ r, ¬ meets r) → exec (.bbFindPfx b) s = .next { s with res0 := 0xFFFFFFFF })

/-- LD_MANCH (R171): the longest run of differing pairs is decoded to the second half-bits; an equal pair is stepped over and
ends it. -/
def Obligations.ManchesterDecodes : Prop :=
  ∀ (s : State) (b : Buf) (row : Nat), s.AcceptsBuffer → row < s.cfg.rows →
    let h := (s.bb b).bit s.cfg row
    let start := s.arg0.toNat
    let mx := s.arg1.toNat
    let len := (s.bb b).len row
    let n := if 0 < mx ∧ start + 2 * mx < len then start + 2 * mx else len
    ∃ cnt ipos, (∀ j, j < cnt → start + 2 * j + 1 < n ∧ h (start + 2 * j) ≠ h (start + 2 * j + 1)) ∧
      ((n ≤ start + 2 * cnt + 1 ∧ ipos = start + 2 * cnt) ∨
       (start + 2 * cnt + 1 < n ∧ h (start + 2 * cnt) = h (start + 2 * cnt + 1) ∧ ipos = start + 2 * cnt + 2)) ∧
      let out := Logged.addAll s.cfg ((List.range cnt).map (fun j => h (start + 2 * j + 1)))
        (s.bb (otherBuf b), s.flags)
      exec (.ldManch b row) s =
        .next ((((s.setBb (otherBuf b) out.1).setFlags out.2).setRes0 (resultWord ipos)).setRes1 (resultWord cnt))

/-- A row that holds, from `start` to its end, the Manchester code of some bits (0 as high, low; 1 as low, high) decodes to
those bits (R171). -/
def Obligations.ManchesterRoundTrip : Prop :=
  ∀ (s : State) (b : Buf) (row : Nat) (bits : List Bool), s.AcceptsBuffer → row < s.cfg.rows →
    s.arg1 = 0 → (s.bb b).len row = s.arg0.toNat + 2 * bits.length →
    (∀ j, j < bits.length →
      (s.bb b).bit s.cfg row (s.arg0.toNat + 2 * j) = (!bits.getD j false) ∧
      (s.bb b).bit s.cfg row (s.arg0.toNat + 2 * j + 1) = bits.getD j false) →
    let out := Logged.addAll s.cfg bits (s.bb (otherBuf b), s.flags)
    exec (.ldManch b row) s =
      .next ((((s.setBb (otherBuf b) out.1).setFlags out.2).setRes0 (resultWord ((s.bb b).len row))).setRes1
        (resultWord bits.length))

/-- LD_DMANCH (R175): phase 1 (`k1` ones), then the end of the input, or the steady state over `k2` cells. -/
def Obligations.DifferentialDecodes : Prop :=
  ∀ (s : State) (b : Buf) (row : Nat), s.AcceptsBuffer → row < s.cfg.rows →
    let h := (s.bb b).bit s.cfg row
    let start := s.arg0.toNat
    let mx := s.arg1.toNat
    let len := (s.bb b).len row
    let n := if 0 < mx ∧ start + 2 * mx < len then start + 2 * mx else len
    ∃ k1 k2 q, (∀ j, j < k1 → start + 2 * j + 2 < n ∧ h (start + 2 * j) ≠ h (start + 2 * j + 1) ∧
        h (start + 2 * j + 1) ≠ h (start + 2 * j + 2)) ∧
      (let p := start + 2 * k1
       (n ≤ p + 1 ∧ q = p ∧ k2 = 0) ∨
       (p + 1 < n ∧ h p = h (p + 1) ∧ q = p ∧ SteadyCells h n q (!h p) k2) ∨
       (p + 2 = n ∧ h p ≠ h (p + 1) ∧ q = p ∧ k2 = 0) ∨
       (p + 2 < n ∧ h p ≠ h (p + 1) ∧ h (p + 1) = h (p + 2) ∧ q = p + 1 ∧ SteadyCells h n q (h p) k2)) ∧
      let out := Logged.addAll s.cfg (List.replicate k1 true ++ cellBits h q k2) (s.bb (otherBuf b), s.flags)
      exec (.ldDmanch b row) s =
        .next ((((s.setBb (otherBuf b) out.1).setFlags out.2).setRes0 (resultWord (q + 2 * k2))).setRes1
          (resultWord (k1 + k2)))

/-- The line decoders keep I1 to I5, only read the source, and change the destination only through ADD_BIT (R180). -/
def Obligations.DecodersKeepInvariants : Prop :=
  ∀ (s t : State) (b : Buf) (row : Nat), s.cfg.Legal → s.bb0.Good s.cfg → s.bb1.Good s.cfg →
    ∀ i ∈ [Instr.ldManch b row, .ldDmanch b row], exec i s = .next t →
      t.bb0.Good s.cfg ∧ t.bb1.Good s.cfg ∧ otherBuf b ≠ b ∧ t.bb b = s.bb b ∧
      ∃ bits, t.bb (otherBuf b) = (Logged.addAll s.cfg bits (s.bb (otherBuf b), s.flags)).1

/-- DM_RUN with MOD_KIND 3 to 7: step E1, the flag, IDLE, `done`, nothing else (R195). -/
def Obligations.RunReservedKind : Prop :=
  ∀ s : State, s.phase = .idle → 3 ≤ s.spec.kind.toNat →
    exec .dmRun s = .next { s with
      events := 0, dispatches := 0, cursor := 0, origin := .run, flags := raiseIn .eKind s.flags, done := true }

/-- E_CONFIG: PCM with a zero width aborts (E1 and E3 done), PPM and PWM never raise it (R196). -/
def Obligations.RunWidthsMissing : Prop :=
  ∀ s : State, s.phase = .idle →
    (s.spec.kind = 0 → s.spec.shortUs = 0 ∨ s.spec.longUs = 0 →
      exec .dmRun s = .next { entryE3 .pcm (entryE1 s) with flags := raiseIn .eConfig s.flags, done := true }) ∧
    (s.spec.kind = 1 ∨ s.spec.kind = 2 → ∃ t, exec .dmRun s = .next t ∧
      t.flags.getLsbD Flag.eConfig.pos = s.flags.getLsbD Flag.eConfig.pos)

/-- E_RATE_LOW: every configured nonzero width must scale to at least one sample, else the run aborts (R197). -/
def Obligations.RunRateTooLow : Prop :=
  ∀ (s : State) (k : DemodKind), s.phase = .idle → demodOf s.spec.kind = some k → s.WidthsConfigured →
    (¬ s.RateSuffices →
      exec .dmRun s = .next { entryE3 k (entryE1 s) with flags := raiseIn .eRateLow s.flags, done := true }) ∧
    (s.pt.sampleRate = 0 → (s.RateSuffices ↔ s.spec.shortUs = 0 ∧ s.spec.longUs = 0 ∧ s.spec.syncUs = 0 ∧
      s.spec.gapUs = 0 ∧ s.spec.resetUs = 0 ∧ s.spec.tolUs = 0))

/-- DM_RUN latches MOD_KIND, NUM_PULSES and the six scaled widths (R191, R194), aborted or not; an aborted run leaves `bb[0]`
and the other latches. -/
def Obligations.RunLatchesConfiguration : Prop :=
  ∀ (s t : State) (k : DemodKind), s.phase = .idle → demodOf s.spec.kind = some k → exec .dmRun s = .next t →
    t.lat.kind = k ∧ t.lat.n = s.pt.numPulses ∧
    t.lat.sShort = s.spec.shortUs.toNat * s.pt.sampleRate.toNat / 1000000 ∧
    t.lat.sLong = s.spec.longUs.toNat * s.pt.sampleRate.toNat / 1000000 ∧
    t.lat.sSync = s.spec.syncUs.toNat * s.pt.sampleRate.toNat / 1000000 ∧
    t.lat.sGap = s.spec.gapUs.toNat * s.pt.sampleRate.toNat / 1000000 ∧
    t.lat.sReset = s.spec.resetUs.toNat * s.pt.sampleRate.toNat / 1000000 ∧
    t.lat.sTol = s.spec.tolUs.toNat * s.pt.sampleRate.toNat / 1000000 ∧
    t.events = 0 ∧ t.origin = .run ∧
    (¬ s.RunStarts → t.bb0 = s.bb0 ∧ t.phase = .idle ∧
      t.lat = { t.lat with
        nrz := s.lat.nrz, gl := s.lat.gl, maxZeros := s.lat.maxZeros, tolEff := s.lat.tolEff,
        fShort := s.lat.fShort, fLong := s.lat.fLong, preambleLen := s.lat.preambleLen, zeroL := s.lat.zeroL,
        zeroU := s.lat.zeroU, oneL := s.lat.oneL, oneU := s.lat.oneU, syncL := s.lat.syncL, syncU := s.lat.syncU })

/-- DM_RUN answers a next state, and RUN_LOOP of R205 (a relation with no bound on its steps) leads from ENTRY (R193) to that
state and no other; with what ENTRY leaves, step E7 among it, what a symbol step hands to SYMBOL, HAS_DATA (R207),
`dispatch` (R212) and the ends of the loop (R205, R209). That `done` is a field is the model's choice (log 4). -/
def Obligations.RunFollowsLoop : Prop :=
  (∀ (s : State) (k : DemodKind), s.RunStarts → demodOf s.spec.kind = some k →
    ∃ t, exec .dmRun s = .next t ∧ RunLoop (s.entered k) t ∧ ∀ u, RunLoop (s.entered k) u → u = t) ∧
  (∀ (s : State) (k : DemodKind),
    let samples : Word → Nat := fun us => us.toNat * s.pt.sampleRate.toNat / 1000000
    let l : Latches := { s.lat with
      kind := k, n := s.pt.numPulses, sShort := samples s.spec.shortUs, sLong := samples s.spec.longUs,
      sSync := samples s.spec.syncUs, sGap := samples s.spec.gapUs, sReset := samples s.spec.resetUs,
      sTol := samples s.spec.tolUs }
    s.entered k = { s with
      events := 0, dispatches := 0, cursor := 0, origin := .run, bb0 := BitBuffer.empty, done := false,
      lat := match k with
        | .pcm => pcmLatches s.cfg s.spec s.pt l
        | .ppm => ppmLatches l
        | .pwm => pwmLatches l }) ∧
  (∀ s : State, s.cursor.toNat < s.lat.n.toNat →
    let n := s.cursor.toNat
    symbolStep s = symbol (s.pt.pulse.read n).toNat (s.pt.gap.read n).toNat (decide (n + 1 = s.lat.n.toNat))
      { s with phase := .accumulating }) ∧
  (∀ x : BitBuffer, x.hasData = true ↔ 1 < x.numRows ∨ 0 < x.len 0) ∧
  ∀ s : State,
    (∀ o, ∃ d : Word, d.toNat = min (s.dispatches.toNat + 1) (2 ^ 32 - 1) ∧
      dispatch o s = { s with
        dispatches := d
        flags := if s.dispatches.toNat = 2 ^ 32 - 1 then raiseIn .wCntSat s.flags else s.flags
        origin := o
        phase := .dispatch }) ∧
    advance s = { s with cursor := s.cursor + 1 } ∧
    resume s = { s with bb0 := BitBuffer.empty, cursor := s.cursor + 1 } ∧
    endRun s = { s with phase := .idle, done := true }

/-- A started DM_RUN ends in IDLE at the end of the train, or in DISPATCH with data at the symbol that ended the message
(R209, R212, R213). -/
def Obligations.RunEndsIdleOrDispatch : Prop :=
  ∀ s t : State, s.RunStarts → exec .dmRun s = .next t →
    (t.phase = .idle ∧ t.cursor = t.lat.n ∧ t.bb0 = BitBuffer.empty ∧ t.dispatches = 0 ∧ t.done = true) ∨
    (t.phase = .dispatch ∧ t.origin = .run ∧ t.cursor.toNat < t.lat.n.toNat ∧ messageEnds t = true ∧
      (1 < t.bb0.numRows ∨ 0 < t.bb0.len 0) ∧ t.dispatches = 1 ∧ t.done = false)

/-- DM_RUN with N = 0: ENTRY completes, no symbol step, IDLE, no dispatch (R198). -/
def Obligations.EmptyTrainRun : Prop :=
  ∀ (s : State) (k : DemodKind), s.RunStarts → demodOf s.spec.kind = some k → s.pt.numPulses = 0 →
    exec .dmRun s = .next ((s.entered k).setDone true) ∧ (s.entered k).phase = .idle ∧
    (s.entered k).events = 0 ∧ (s.entered k).dispatches = 0 ∧ (s.entered k).bb0 = BitBuffer.empty

/-- The frame of DM_RUN, DM_STRING and DM_SINKRET: every byte of `bb[1]`, PAT, XBUF and the train, and the registers a run
does not write (R213, R316). -/
def Obligations.RunFrame : Prop :=
  ∀ s t : State,
    (∀ i ∈ [Instr.dmRun, .dmString, .dmSinkRet], exec i s = .next t → SameOutsideRun s t) ∧
    (∀ i ∈ [Instr.dmRun, .dmString], exec i s = .next t → t.res0 = s.res0 ∧ t.statFail = s.statFail) ∧
    (∀ i ∈ [Instr.dmString, .dmSinkRet], exec i s = .next t → t.lat = s.lat) ∧
    (exec .dmString s = .next t → t.bb0 = s.bb0) ∧
    (exec .dmSinkRet s = .next t → t.phase ≠ .fatal → t.res0 = s.res0)

/-- In PPM the pulse is read and ignored: runs that differ only in pulse widths stay so (R252). -/
def Obligations.PpmIgnoresPulses : Prop :=
  ∀ (s t : State) (m : Memory Word),
    let other : State → State := fun u => { u with pt := { u.pt with pulse := m } }
    (s.spec.kind = 1 → exec .dmRun s = .next t → exec .dmRun (other s) = .next (other t)) ∧
    (s.lat.kind = .ppm → exec .dmSinkRet s = .next t → exec .dmSinkRet (other s) = .next (other t))

/-- PPM: windows (R250), their latches at entry (R251), SYMBOL (R255), END (R206), and a raw-mode run over a train whose gaps
all lie below the upper end of the one-window, which decodes gap by gap and dispatches at the last symbol. -/
def Obligations.PpmRawRunDecodes : Prop :=
  (∀ (lo : Int) (w : Nat), (inWindow lo .inf w = true ↔ lo < w) ∧
      ∀ hi : Int, inWindow lo (.fin hi) w = true ↔ lo < w ∧ (w : Int) < hi) ∧
  (∀ l : Latches,
    let q := ppmLatches l
    let mid := (l.sShort + l.sLong) / 2
    q = { l with
      zeroL := q.zeroL, zeroU := q.zeroU, oneL := q.oneL, oneU := q.oneU, syncL := q.syncL, syncU := q.syncU } ∧
    (0 < l.sTol →
      q.zeroL = (l.sShort : Int) - l.sTol ∧ q.zeroU = .fin ((l.sShort : Int) + l.sTol) ∧
      q.oneL = (l.sLong : Int) - l.sTol ∧ q.oneU = .fin ((l.sLong : Int) + l.sTol) ∧
      (0 < l.sSync → q.syncL = (l.sSync : Int) - l.sTol ∧ q.syncU = .fin ((l.sSync : Int) + l.sTol)) ∧
      (l.sSync = 0 → q.syncL = 0 ∧ q.syncU = .fin 0)) ∧
    (l.sTol = 0 →
      q.zeroL = 0 ∧ q.zeroU = .fin ((mid : Int) + 1) ∧ q.oneL = mid ∧
      (0 < l.sGap → q.oneU = .fin l.sGap) ∧ (l.sGap = 0 → q.oneU = .fin l.sReset) ∧
      q.syncL = 0 ∧ q.syncU = .fin 0)) ∧
  (∀ (s : State) (p g : Nat) (last : Bool), s.phase = .accumulating → s.lat.kind = .ppm →
    let c := s.cfg
    let x : Logged := (s.bb0, s.flags)
    let out : Logged :=
      if inWindow s.lat.zeroL s.lat.zeroU g then x.addBit c false
      else if inWindow s.lat.oneL s.lat.oneU g then x.addBit c true
      else if inWindow s.lat.syncL s.lat.syncU g then x.addSync c
      else if g < s.lat.sReset then x.addRow c
      else x
    symbol p g last s = { s with bb0 := out.1, flags := out.2 }) ∧
  (∀ s : State, s.lat.kind = .ppm → s.cursor.toNat < s.lat.n.toNat →
    (messageEnds s = true ↔
      s.cursor.toNat + 1 = s.lat.n.toNat ∨ s.lat.sReset ≤ (s.pt.gap.read s.cursor.toNat).toNat)) ∧
  ∀ s : State, s.RunStarts → s.cfg.Legal → s.spec.kind = 1 → s.spec.tolUs = 0 → 0 < s.pt.numPulses.toNat →
    let rate := s.pt.sampleRate
    let mid := (scale s.spec.shortUs rate + scale s.spec.longUs rate) / 2
    let reset := scale s.spec.resetUs rate
    let top := if 0 < scale s.spec.gapUs rate then scale s.spec.gapUs rate else reset
    top ≤ reset →
    (∀ n, n < s.pt.numPulses.toNat → 0 < (s.pt.gap.read n).toNat ∧ (s.pt.gap.read n).toNat < top) →
    let out := Logged.addAll s.cfg
      ((List.range s.pt.numPulses.toNat).map (fun n => decide (mid < (s.pt.gap.read n).toNat)))
      (BitBuffer.empty, s.flags)
    ∃ t, exec .dmRun s = .next t ∧ t.phase = .dispatch ∧ t.cursor.toNat + 1 = s.pt.numPulses.toNat ∧
      t.bb0 = out.1 ∧ t.flags = out.2 ∧ t.dispatches = 1 ∧ t.events = 0

/-- PWM: the bands at entry (R266), SYMBOL (R270 with R265, R271, R272), END (R206), and the resync branch, unreachable for `p
> 0` in the raw layouts and taken by a pulse above ONE_L in no window (R273). -/
def Obligations.PwmRawBandsCover : Prop :=
  (∀ l : Latches,
    let q := pwmLatches l
    let mid : Nat → Nat → Int := fun a b => ((a + b) / 2 : Nat)
    q = { l with
      zeroL := q.zeroL, zeroU := q.zeroU, oneL := q.oneL, oneU := q.oneU, syncL := q.syncL, syncU := q.syncU } ∧
    (0 < l.sTol →
      q.oneL = (l.sShort : Int) - l.sTol ∧ q.oneU = .fin ((l.sShort : Int) + l.sTol) ∧
      q.zeroL = (l.sLong : Int) - l.sTol ∧ q.zeroU = .fin ((l.sLong : Int) + l.sTol) ∧
      (0 < l.sSync → q.syncL = (l.sSync : Int) - l.sTol ∧ q.syncU = .fin ((l.sSync : Int) + l.sTol)) ∧
      (l.sSync = 0 → q.syncL = 0 ∧ q.syncU = .fin 0)) ∧
    (l.sTol = 0 → l.sSync = 0 →
      q.oneL = 0 ∧ q.oneU = .fin (mid l.sShort l.sLong + 1) ∧ q.zeroL = mid l.sShort l.sLong ∧ q.zeroU = .inf ∧
      q.syncL = 0 ∧ q.syncU = .fin 0) ∧
    (l.sTol = 0 → 0 < l.sSync → l.sSync < l.sShort →
      q.syncL = 0 ∧ q.syncU = .fin (mid l.sSync l.sShort + 1) ∧ q.oneL = mid l.sSync l.sShort ∧
      q.oneU = .fin (mid l.sShort l.sLong + 1) ∧ q.zeroL = mid l.sShort l.sLong ∧ q.zeroU = .inf) ∧
    (l.sTol = 0 → 0 < l.sSync → l.sShort ≤ l.sSync → l.sSync < l.sLong →
      q.oneL = 0 ∧ q.oneU = .fin (mid l.sShort l.sSync + 1) ∧ q.syncL = mid l.sShort l.sSync ∧
      q.syncU = .fin (mid l.sSync l.sLong + 1) ∧ q.zeroL = mid l.sSync l.sLong ∧ q.zeroU = .inf) ∧
    (l.sTol = 0 → 0 < l.sSync → l.sShort ≤ l.sSync → l.sLong ≤ l.sSync →
      q.oneL = 0 ∧ q.oneU = .fin (mid l.sShort l.sLong + 1) ∧ q.zeroL = mid l.sShort l.sLong ∧
      q.zeroU = .fin (mid l.sLong l.sSync + 1) ∧ q.syncL = mid l.sLong l.sSync ∧ q.syncU = .inf)) ∧
  (∀ (s : State) (p g : Nat) (last : Bool), s.phase = .accumulating → s.lat.kind = .pwm →
    let c := s.cfg
    let x : Logged := (s.bb0, s.flags)
    let y : Logged :=
      if inWindow s.lat.oneL s.lat.oneU p then x.addBit c true
      else if inWindow s.lat.zeroL s.lat.zeroU p then x.addBit c false
      else if inWindow s.lat.syncL s.lat.syncU p then x.addSync c
      else if (p : Int) ≤ s.lat.oneL then x
      else x.addRow c
    let out : Logged :=
      if last = false ∧ g ≤ s.lat.sReset ∧ 0 < s.lat.sGap ∧ s.lat.sGap < g then y.addRow c else y
    symbol p g last s = { s with bb0 := out.1, flags := out.2 }) ∧
  (∀ s : State, s.lat.kind = .pwm → s.cursor.toNat < s.lat.n.toNat →
    (messageEnds s = true ↔
      s.cursor.toNat + 1 = s.lat.n.toNat ∨ s.lat.sReset < (s.pt.gap.read s.cursor.toNat).toNat)) ∧
  ∀ (s : State) (p : Nat),
    let one := s.onBuffer .b0 (Logged.addBit s.cfg true)
    let zero := s.onBuffer .b0 (Logged.addBit s.cfg false)
    let sync := (s.onBuffer .b0 (Logged.addSync s.cfg)).setPhase .accumulating
    (∀ l : Latches, l.sTol = 0 → s.lat = pwmLatches l → 0 < p →
      pwmPulse p s =
        if l.sSync = 0 then if p ≤ (l.sShort + l.sLong) / 2 then one else zero
        else if l.sSync < l.sShort then
          if (l.sSync + l.sShort) / 2 < p ∧ p ≤ (l.sShort + l.sLong) / 2 then one
          else if (l.sShort + l.sLong) / 2 < p then zero else sync
        else if l.sSync < l.sLong then
          if p ≤ (l.sShort + l.sSync) / 2 then one else if p ≤ (l.sSync + l.sLong) / 2 then sync else zero
        else if p ≤ (l.sShort + l.sLong) / 2 then one else if p ≤ (l.sLong + l.sSync) / 2 then zero else sync) ∧
    (inWindow s.lat.oneL s.lat.oneU p = false → inWindow s.lat.zeroL s.lat.zeroU p = false →
      inWindow s.lat.syncL s.lat.syncU p = false → s.lat.oneL < (p : Int) →
      pwmPulse p s = (s.onBuffer .b0 (Logged.addRow s.cfg)).setPhase .accumulating)

/-- SYMBOL(p, g) of PCM (R240): the rounded counts, the drop of an RZ pulse outside tolerance, the row break by gap; and END
(R206). For a gap of 0 and S_SHORT > S_LONG the zeros are those of R240, where R245 says none: the reading of the model
(log 23). -/
def Obligations.PcmSymbolAction : Prop :=
  (∀ (s : State) (p g : Nat) (last : Bool), s.lat.kind = .pcm → symbol p g last s = pcmSymbol p g s) ∧
  (∀ s : State, s.lat.kind = .pcm → s.cursor.toNat < s.lat.n.toNat →
    (messageEnds s = true ↔
      s.cursor.toNat + 1 = s.lat.n.toNat ∨ s.lat.sReset < (s.pt.gap.read s.cursor.toNat).toNat)) ∧
  ∀ (s : State) (p g : Nat), s.phase = .accumulating → 0 < s.lat.fShort.den → 0 < s.lat.fLong.den →
    ∃ k z : Nat,
      ((2 * k : Int) - 1) * s.lat.fShort.den ≤ 2 * (p * s.lat.fShort.num) ∧
      2 * (p * s.lat.fShort.num) < (2 * k + 1) * s.lat.fShort.den ∧
      (if g + s.lat.sShort ≤ s.lat.sLong then z = 0
       else ∃ y : Nat, z = min y s.lat.maxZeros ∧
        ((2 * y : Int) - 1) * s.lat.fLong.den ≤ 2 * ((g + s.lat.sShort - s.lat.sLong : Nat) * s.lat.fLong.num) ∧
        2 * ((g + s.lat.sShort - s.lat.sLong) * s.lat.fLong.num) < (2 * y + 1) * s.lat.fLong.den) ∧
      let out := Logged.addAll s.cfg (List.replicate k true ++ List.replicate z false) (s.bb0, s.flags)
      pcmSymbol p g s =
        if s.lat.nrz = false ∧ (s.lat.sShort + s.lat.tolEff < p ∨ p + s.lat.tolEff < s.lat.sShort) then
          { s with bb0 := BitBuffer.empty, flags := raiseIn .wFrameDrop out.2 }
        else if s.lat.gl < g ∧ g ≤ s.lat.sReset then
          { s with bb0 := (out.addRow s.cfg).1, flags := (out.addRow s.cfg).2 }
        else { s with bb0 := out.1, flags := out.2 }

/-- The calibration of PCM: latches (R231 to R233), first pass (R236), fallback (R237), and R238: a mean lies between the
extremes, so 1/F_SHORT and 1/F_LONG stay within any bounds that hold for the nominal values and for all that is averaged,
in RZ and in NRZ. -/
def Obligations.PcmCalibrationWithinBounds : Prop :=
  ∀ (c : Params) (spec : ModSpec) (pt : PulseTrain) (l : Latches),
    let r := pcmLatches c spec pt l
    let n := l.n.toNat
    let shortF : Fraction := ⟨1000000, spec.shortUs.toNat * pt.sampleRate.toNat⟩
    let longF : Fraction := ⟨1000000, spec.longUs.toNat * pt.sampleRate.toNat⟩
    let kp : Nat → Nat := fun i =>
      let k := rhu (pt.p i) shortF
      if 1 ≤ k ∧ ((pt.p i : Int) - k * l.sShort).natAbs ≤ r.tolEff then k else 0
    let kg : Nat → Nat := fun i =>
      let k := rhu (pt.g i) longF
      if 1 ≤ k ∧ k ≤ r.maxZeros ∧ ((pt.g i : Int) - k * l.sLong).natAbs ≤ r.tolEff then k else 0
    (r.nrz = decide (l.sShort = l.sLong) ∧ r.gl = (if 0 < l.sGap then l.sGap else l.sReset) ∧
      r.maxZeros = r.gl / l.sLong ∧ r.tolEff = (if 0 < l.sTol then l.sTol else l.sLong / c.pcmTolDiv)) ∧
    (∀ a b, Preamble c r pt a b →
      (∀ a' b', Preamble c r pt a' b' → b' - a' < b - a ∨ (b' - a' = b - a ∧ a' ≤ a)) →
      let k := bitWeight r * (b - a)
      r.preambleLen = k ∧
      r.fShort = ⟨k, if r.nrz then periodSum pt (Finset.Ico a b) else pulseSum pt (Finset.Ico a b)⟩ ∧
      r.fLong = ⟨k, periodSum pt (Finset.Ico a b)⟩) ∧
    ((∀ a b, ¬ Preamble c r pt a b) → r.preambleLen = 0 ∧
      (r.nrz = false →
        let m := (Finset.range n).filter (PcmMatches r pt)
        if c.pcmFallbackRz < m.card ∧ 0 < pulseSum pt m ∧ 0 < periodSum pt m then
          r.fShort = ⟨m.card, pulseSum pt m⟩ ∧ r.fLong = ⟨m.card, periodSum pt m⟩
        else r.fShort = shortF ∧ r.fLong = longF) ∧
      (r.nrz = true →
        let k := ∑ i ∈ Finset.range n, (kp i + kg i)
        let w := ∑ i ∈ Finset.range n, ((if kp i = 0 then 0 else pt.p i) + (if kg i = 0 then 0 else pt.g i))
        if c.pcmFallbackNrz < k ∧ 0 < w then r.fShort = ⟨k, w⟩ ∧ r.fLong = ⟨k, w⟩
        else r.fShort = shortF ∧ r.fLong = longF)) ∧
    ∀ lo hi : ℚ, 0 < lo →
      let within : Fraction → Prop := fun f => lo ≤ (f.den : ℚ) / f.num ∧ (f.den : ℚ) / f.num ≤ hi
      (r.nrz = false →
        (within shortF → (∀ i, i < n → PcmMatches r pt i → lo ≤ (pt.p i : ℚ) ∧ (pt.p i : ℚ) ≤ hi) → within r.fShort) ∧
        (within longF →
          (∀ i, i < n → PcmMatches r pt i → lo ≤ (pt.p i + pt.g i : ℚ) ∧ (pt.p i + pt.g i : ℚ) ≤ hi) →
          within r.fLong)) ∧
      (r.nrz = true → within shortF → within longF →
        (∀ i, i < n → PcmMatches r pt i → 2 * lo ≤ (pt.p i + pt.g i : ℚ) ∧ (pt.p i + pt.g i : ℚ) ≤ 2 * hi) →
        (∀ i, i < n → kp i ≠ 0 → lo * kp i ≤ (pt.p i : ℚ) ∧ (pt.p i : ℚ) ≤ hi * kp i) →
        (∀ i, i < n → kg i ≠ 0 → lo * kg i ≤ (pt.g i : ℚ) ∧ (pt.g i : ℚ) ≤ hi * kg i) →
        within r.fShort ∧ within r.fLong)

/-- DM_STRING: an unconditional dispatch with ORIGIN = 1; after the sink's legal return EVENTS = max(s, 0), `bb[0]` is clear,
STATE = IDLE (R219). -/
def Obligations.StringDispatches : Prop :=
  ∀ (s : State) (a : Word), s.phase = .idle →
    let t : State := { s with events := 0, dispatches := 1, cursor := 0, origin := .string, phase := .dispatch }
    exec .dmString s = .next t ∧
    (s.cfg.failMin ≤ a.toInt →
      ∃ u, exec .dmSinkRet { t with arg0 := a } = .next u ∧ u.phase = .idle ∧ u.bb0 = BitBuffer.empty ∧
        (u.events.toNat : Int) = max a.toInt 0)

/-- AGGREGATE (R215): EVENTS by a positive status, STAT_FAIL[-s] by any other, saturating with W_CNT_SAT. -/
def Obligations.SinkStatusAggregated : Prop :=
  ∀ (s : State) (st : Int), s.statFail.wf → s.cfg.failMin ≤ st →
    ∃ (ev : Word) (m : Memory Word) (fl : Word),
      aggregate st s = { s with events := ev, statFail := m, flags := fl } ∧
      (0 < st → (ev.toNat : Int) = min (s.events.toNat + st) (2 ^ 32 - 1) ∧ m = s.statFail ∧
        fl = if (2 ^ 32 - 1 : Int) < s.events.toNat + st then raiseIn .wCntSat s.flags else s.flags) ∧
      (st ≤ 0 → ev = s.events ∧
        (∀ k, (m.read k).toNat =
          if (k : Int) = -st then min ((s.statFail.read k).toNat + 1) (2 ^ 32 - 1) else (s.statFail.read k).toNat) ∧
        fl = if (s.statFail.read (-st).toNat).toNat = 2 ^ 32 - 1 then raiseIn .wCntSat s.flags else s.flags)

/-- DM_SINKRET with a legal status (R214): AGGREGATE, CLEAR, then IDLE or the rest of the run as R205 says. -/
def Obligations.SinkReturnResumes : Prop :=
  ∀ s : State, s.phase = .dispatch → s.cfg.failMin ≤ s.arg0.toInt →
    let a := (aggregate s.arg0.toInt (s.setDone false)).setBb .b0 BitBuffer.empty
    (s.origin = .string → exec .dmSinkRet s = .next { a with phase := .idle, done := true }) ∧
    (s.origin = .run → ∃ t, exec .dmSinkRet s = .next t ∧ RunLoop { a with cursor := a.cursor + 1 } t)

/-- `raise Fatal(ARG0)`: F_FATAL, RES0, STATE, nothing else (R296); the event `done` does not occur (R300). -/
def Obligations.SinkOutOfRangeIsFatal : Prop :=
  ∀ s : State, s.phase = .dispatch → s.arg0.toInt < s.cfg.failMin →
    exec .dmSinkRet s = .next { s with flags := raiseIn .fFatal s.flags, res0 := s.arg0, phase := .fatal, done := false }

/-- A legal return ends the run or dispatches again at a strictly later symbol, so a run needs at most N returns (R317, R329);
a saturated DISPATCHES sets W_CNT_SAT (R212). -/
def Obligations.SinkReturnMakesProgress : Prop :=
  ∀ s : State, s.phase = .dispatch → s.origin = .run → s.cursor.toNat < s.lat.n.toNat →
    s.cfg.failMin ≤ s.arg0.toInt →
    ∃ t, exec .dmSinkRet s = .next t ∧ t.lat = s.lat ∧
      ((t.phase = .idle ∧ t.cursor = s.lat.n ∧ t.bb0 = BitBuffer.empty ∧ t.dispatches = s.dispatches ∧ t.done = true) ∨
       (t.phase = .dispatch ∧ s.cursor.toNat < t.cursor.toNat ∧ t.cursor.toNat < s.lat.n.toNat ∧
        t.dispatches.toNat = min (s.dispatches.toNat + 1) (2 ^ 32 - 1) ∧
        (s.dispatches.toNat = 2 ^ 32 - 1 → t.flags.getLsbD Flag.wCntSat.pos = true)))

/-- DM_SINKRET works from the latches: other values in MOD_KIND, the microsecond registers, NUM_PULSES, SAMPLE_RATE or
FSK_F2_EST change nothing else (R82, R194, R322). -/
def Obligations.ConfigurationIsLatched : Prop :=
  ∀ (s t : State) (sp : ModSpec) (n rate fsk : Word),
    let other : State → State := fun u =>
      { u with spec := sp, pt := { u.pt with numPulses := n, sampleRate := rate, fskF2Est := fsk } }
    exec .dmSinkRet s = .next t → exec .dmSinkRet (other s) = .next (other t)

/-- A host write of NUM_PULSES (R30), and what a bus write to the other registers, to PAT and to read-only or unlisted
addresses stores (R31 to R34, R36, R38, R50, R67, R70 to R73). -/
def Obligations.NumPulsesClipped : Prop :=
  ∀ (s : State) (v : Word) (rest : List Access), s.AcceptsBuffer → s.cfg.Legal →
    (∀ a, a / 4 * 4 = 0x060 → s.pending = .write a v :: rest →
      ∃ n : Word, n.toNat = min v.toNat s.cfg.maxp ∧
        step s = .next { s with
          pending := rest
          done := false
          pt := { s.pt with numPulses := n }
          flags := if s.cfg.maxp < v.toNat then raiseIn .wPulsesTrunc s.flags else s.flags }) ∧
    (∀ e ∈ [(0x00C, { s with arg0 := v }), (0x010, { s with arg1 := v }),
        (0x040, { s with spec := { s.spec with kind := v.setWidth 3 } }),
        (0x044, { s with spec := { s.spec with shortUs := v } }), (0x048, { s with spec := { s.spec with longUs := v } }),
        (0x04C, { s with spec := { s.spec with syncUs := v } }), (0x050, { s with spec := { s.spec with gapUs := v } }),
        (0x054, { s with spec := { s.spec with resetUs := v } }), (0x058, { s with spec := { s.spec with tolUs := v } }),
        (0x05C, { s with pt := { s.pt with sampleRate := v } }), (0x064, { s with pt := { s.pt with fskF2Est := v } })],
      ∀ a, a / 4 * 4 = e.1 → s.pending = .write a v :: rest →
        step s = .next { e.2 with pending := rest, done := false }) ∧
    (∀ j, j < s.cfg.xcap → s.pat.wf → s.pending = .write (s.cfg.addrMap.pat + j) v :: rest →
      ∃ m, step s = .next { s with pending := rest, done := false, pat := m } ∧
        ∀ k, m.read k = if k = j then v.setWidth 8 else s.pat.read k) ∧
    (∀ a, 4 ≤ a → a / 4 * 4 ∉ writableRegisters →
      (∀ e ∈ [(s.cfg.addrMap.pat, s.cfg.xcap), (s.cfg.addrMap.ptPulse, 4 * s.cfg.maxp),
        (s.cfg.addrMap.ptGap, 4 * s.cfg.maxp)], ¬(e.1 ≤ a ∧ a < e.1 + e.2)) →
      s.pending = .write a v :: rest → step s = .next { s with pending := rest, done := false })

/-- Bus writes to PT.pulse and PT.gap: stored in IDLE, refused with E_BADSTATE in DISPATCH (R72, R83), at every byte address
of the word (R67). -/
def Obligations.PulseTrainWrite : Prop :=
  ∀ (s : State) (n j : Nat) (v : Word) (rest : List Access), s.cfg.Legal → s.pt.pulse.wf → s.pt.gap.wf → n < s.cfg.maxp →
    j < 4 →
    (s.pending = .write (s.cfg.addrMap.ptPulse + 4 * n + j) v :: rest →
      (s.phase = .idle → ∃ m, step s = .next { s with pending := rest, done := false, pt := { s.pt with pulse := m } } ∧
        ∀ k, m.read k = if k = n then v else s.pt.pulse.read k) ∧
      (s.phase = .dispatch →
        step s = .next { s with pending := rest, done := false, flags := raiseIn .eBadState s.flags })) ∧
    (s.pending = .write (s.cfg.addrMap.ptGap + 4 * n + j) v :: rest →
      (s.phase = .idle → ∃ m, step s = .next { s with pending := rest, done := false, pt := { s.pt with gap := m } } ∧
        ∀ k, m.read k = if k = n then v else s.pt.gap.read k) ∧
      (s.phase = .dispatch →
        step s = .next { s with pending := rest, done := false, flags := raiseIn .eBadState s.flags }))

/-- FLAGS is write-one-to-clear, and F_FATAL cannot be cleared by a write (R39), at every byte address of the word (R67). -/
def Obligations.FlagsWriteOneToClear : Prop :=
  ∀ (s : State) (a : Nat) (v : Word) (rest : List Access), s.AcceptsBuffer → a / 4 * 4 = 0x008 →
    s.pending = .write a v :: rest →
    ∃ f : Word, step s = .next { s with pending := rest, done := false, flags := f } ∧
      ∀ i, i < 32 → f.getLsbD i = (s.flags.getLsbD i && (!v.getLsbD i || decide (i = 31)))

/-- A set flag stays set in every step that takes neither `rst` nor a write to FLAGS (R39). -/
def Obligations.FlagsAreSticky : Prop :=
  ∀ (s t : State) (i : Nat), step s = .next t →
    (∀ rest, s.pending ≠ .rst :: rest) → (∀ a v rest, s.pending = .write a v :: rest → ¬(8 ≤ a ∧ a < 12)) →
    s.flags.getLsbD i = true → t.flags.getLsbD i = true

/-- A pending dispatch ends only by DM_SINKRET or reset, and the run context is kept in place (R298, R324). -/
def Obligations.DispatchEndsOnlyBySink : Prop :=
  ∀ s t : State, s.phase = .dispatch → step s = .next t → (∀ rest, s.pending ≠ .rst :: rest) →
    (∀ a w rest, s.pending = .write a w :: rest → a < 4 → w ≠ 0x31000000) →
    t.phase = .dispatch ∧ t.cursor = s.cursor ∧ t.origin = s.origin ∧ t.lat = s.lat ∧ t.events = s.events ∧
    t.dispatches = s.dispatches ∧ t.statFail = s.statFail

/-- The bus cannot write a BitBuffer, XBUF, a result, a counter or a latch (R60, R72); a read has no side effect (R69), and it
returns the element of the address map (R48, R50, R66, R71, R73). That an unaligned address is rounded down also in the
word windows of a BitBuffer is the reading of the model (log 8). -/
def Obligations.BusCannotWriteBuffers : Prop :=
  (∀ (s t : State) (x : Access) (rest : List Access), s.AtRest → s.pending = x :: rest → step s = .next t →
    (∀ a v, x = .write a v → 4 ≤ a →
      t.bb0 = s.bb0 ∧ t.bb1 = s.bb1 ∧ t.xbuf = s.xbuf ∧ t.res0 = s.res0 ∧ t.res1 = s.res1 ∧ t.phase = s.phase ∧
      t.cursor = s.cursor ∧ t.events = s.events ∧ t.dispatches = s.dispatches ∧ t.statFail = s.statFail ∧
      t.origin = s.origin ∧ t.lat = s.lat) ∧
    (∀ a, x = .read a → t = { s with pending := rest, done := false, rdata := busRead s a })) ∧
  ∀ s : State, s.cfg.Legal →
    let c := s.cfg
    let m := c.addrMap
    ((∀ a, a < 0x100 → busRead s a = busRead s (a / 4 * 4)) ∧
      (∀ e ∈ [(0x000, (0 : Word)), (0x00C, s.arg0), (0x010, s.arg1), (0x014, s.res0), (0x018, s.res1), (0x01C, s.events),
          (0x020, s.dispatches), (0x024, s.cursor), (0x044, s.spec.shortUs), (0x048, s.spec.longUs),
          (0x04C, s.spec.syncUs), (0x050, s.spec.gapUs), (0x054, s.spec.resetUs), (0x058, s.spec.tolUs),
          (0x05C, s.pt.sampleRate), (0x060, s.pt.numPulses), (0x064, s.pt.fskF2Est)], busRead s e.1 = e.2) ∧
      busRead s 0x004 = (match s.phase with | .idle => 0 | .accumulating => 1 | .newRow => 2 | .dispatch => 3 | .fatal => 7) ∧
      (∀ i, i < 32 →
        (busRead s 0x008).getLsbD i = (s.flags.getLsbD i && decide (i < 7 ∨ (8 ≤ i ∧ i ≤ 12) ∨ i = 31))) ∧
      busRead s 0x028 = (match s.origin with | .run => 0 | .string => 1) ∧
      (busRead s 0x040).toNat = s.spec.kind.toNat ∧
      (∀ k, k < c.nfail → busRead s (0x080 + 4 * k) = s.statFail.read k) ∧
      (∀ a, a < 0x100 → (0x02C ≤ a ∧ a < 0x040) ∨ (0x068 ≤ a ∧ a < 0x080) ∨ 0x080 + 4 * c.nfail ≤ a →
        busRead s a = 0)) ∧
    (∀ k j, k < 23 → j < 4 →
      (busRead s (m.lat + 8 * k + 4 + j) ++ busRead s (m.lat + 8 * k + j) : BitVec 64) =
        BitVec.ofInt 64 ((latValues s.lat).getD k 0)) ∧
    (∀ j, j < c.xcap → (busRead s (m.pat + j)).toNat = (s.pat.read j).toNat ∧
      (busRead s (m.xbuf + j)).toNat = (s.xbuf.read j).toNat) ∧
    (∀ n j, n < c.maxp → j < 4 → busRead s (m.ptPulse + 4 * n + j) = s.pt.pulse.read n ∧
      busRead s (m.ptGap + 4 * n + j) = s.pt.gap.read n) ∧
    (∀ b : Buf,
      let w := (match b with | .b0 => m.bb0 | .b1 => m.bb1)
      let x := s.bb b
      (∀ a, a < c.rows * c.cols → (busRead s (w.mem + a)).toNat = (x.mem.read a).toNat) ∧
      (∀ r j, r < c.rows → j < 4 → busRead s (w.bits + 4 * r + j) = resultWord (x.len r) ∧
        (busRead s (w.syncs + 4 * r + j)).toNat = (x.syncsBeforeRow.read r).toNat) ∧
      (∀ j, j < 4 → busRead s (w.numRows + j) = resultWord x.numRows ∧
        busRead s (w.freeRow + j) = resultWord x.freeRow)) ∧
    (∀ a, 0x100 ≤ a → (∀ e ∈ busWindows c, ¬(e.1 ≤ a ∧ a < e.1 + e.2)) → busRead s a = 0)

/-- After reset every piece of state is zero and STATE = IDLE (R51). The parameters and the environment's later accesses are
no state of the block. -/
def Obligations.ResetZeroesEverything : Prop :=
  (∀ (s : State) (rest : List Access), s.pending = .rst :: rest →
      step s = .next { State.resetWith s.cfg with pending := rest }) ∧
    ∀ c : Params, let z := State.resetWith c
      (∀ b, (∀ a, (z.bb b).mem.read a = 0) ∧ (∀ r, (z.bb b).len r = 0) ∧ (∀ r, (z.bb b).syncsBeforeRow.read r = 0) ∧
        (z.bb b).numRows = 0 ∧ (z.bb b).freeRow = 0) ∧
      (∀ n, z.pt.pulse.read n = 0 ∧ z.pt.gap.read n = 0) ∧ z.pt.numPulses = 0 ∧ z.pt.sampleRate = 0 ∧
      z.pt.fskF2Est = 0 ∧ z.spec = ⟨0, 0, 0, 0, 0, 0, 0⟩ ∧ z.arg0 = 0 ∧ z.arg1 = 0 ∧ z.res0 = 0 ∧ z.res1 = 0 ∧
      (∀ j, z.pat.read j = 0 ∧ z.xbuf.read j = 0) ∧ z.flags = 0 ∧ z.phase = .idle ∧ z.cursor = 0 ∧ z.events = 0 ∧
      z.dispatches = 0 ∧ (∀ k, z.statFail.read k = 0) ∧ z.origin = .run ∧ ∀ k, latRead z.lat k = 0

/-- The invariants of R26, R39, R40, R30 and R41, from every state that satisfies them, through every access and all 18
commands, and with them the width of `bits_per_row` (R8, R22). The canonical form of the arrays among them is the model's
(log 9). -/
def Obligations.StepKeepsGood : Prop :=
  ∀ s t : State, s.Good → step s = .next t → t.Good ∧ ∀ b, (t.bb b).LengthsInRange t.cfg

/-- The state after reset satisfies the invariants of StepKeepsGood (R51), also with the suggested parameters (log 1). -/
def Obligations.ResetIsGood : Prop :=
  (∀ c : Params, c.Legal → (State.resetWith c).Good) ∧ State.reset.Good
end

