-- ==== Sys2Proof/Laws/Memory.lean ====
section
/-! SUPPORT. The laws of the storage arrays: reads after writes, the canonical form kept, and equality from equal reads. -/

namespace Sys2Proof.Machine

variable {α : Type} [Zero α] [DecidableEq α]

omit [DecidableEq α] in
@[simp] theorem Memory.read_nil (k : Nat) : Memory.read ([] : Memory α) k = 0 := rfl

theorem Memory.wf_nil : Memory.wf ([] : Memory α) := ⟨List.Pairwise.nil, by simp⟩

theorem Memory.wf_tail {e : Nat × α} {t : Memory α} (h : Memory.wf (e :: t)) : Memory.wf t :=
  ⟨(List.pairwise_cons.1 h.1).2, fun x hx => h.2 x (List.mem_cons_of_mem _ hx)⟩

omit [DecidableEq α] in
/-- Below every listed index an array reads 0. -/
theorem Memory.read_below {m : Memory α} {k : Nat} (h : ∀ e ∈ m, k < e.1) : Memory.read m k = 0 := by
  induction m with
  | nil => rfl
  | cons e t ih =>
    have h1 := h e (by simp)
    have h2 := ih fun x hx => h x (List.mem_cons_of_mem _ hx)
    simp only [Memory.read]
    rw [if_neg (by omega)]
    exact h2

omit [Zero α] [DecidableEq α] in
theorem Memory.head_below {e : Nat × α} {t : Memory α} {k : Nat} (h : (e :: t).Pairwise (fun x y => x.1 < y.1))
    (hk : k ≤ e.1) : ∀ x ∈ t, k < x.1 := fun x hx => lt_of_le_of_lt hk ((List.pairwise_cons.1 h).1 x hx)

/-- A write leaves every other element alone. -/
theorem Memory.read_write_other (m : Memory α) {k j : Nat} (v : α) (h : j ≠ k) :
    Memory.read (Memory.write m k v) j = Memory.read m j := by
  induction m with
  | nil =>
    by_cases hv : v = 0
    · simp [Memory.write, hv]
    · simp [Memory.write, hv, Memory.read, h.symm]
  | cons e t ih =>
    obtain ⟨a, x⟩ := e
    simp only [Memory.write]
    split
    · split
      · rfl
      · simp [Memory.read, h.symm]
    · split
      · subst_vars
        split <;> simp [Memory.read, h.symm]
      · simp [Memory.read, ih]

/-- A read after a write to the same place gives the value written. -/
theorem Memory.read_write_same {m : Memory α} (hm : m.Pairwise (fun x y => x.1 < y.1)) (k : Nat) (v : α) :
    Memory.read (Memory.write m k v) k = v := by
  induction m with
  | nil =>
    by_cases hv : v = 0
    · simp [Memory.write, hv]
    · simp [Memory.write, hv, Memory.read]
  | cons e t ih =>
    obtain ⟨a, x⟩ := e
    simp only [Memory.write]
    split
    · rename_i hka
      split
      · subst_vars
        refine Memory.read_below fun y hy => ?_
        rcases List.mem_cons.1 hy with rfl | hy
        · exact hka
        · exact Memory.head_below hm (le_of_lt hka) y hy
      · simp [Memory.read]
    · split
      · subst_vars
        split
        · subst_vars
          exact Memory.read_below (Memory.head_below hm (le_refl _))
        · simp [Memory.read]
      · rename_i h1 h2
        simp only [Memory.read]
        rw [if_neg (fun h => h2 h.symm)]
        exact ih (List.pairwise_cons.1 hm).2

/-- Both cases of a read after a write. -/
theorem Memory.read_write {m : Memory α} (hm : m.wf) (k j : Nat) (v : α) :
    Memory.read (Memory.write m k v) j = if j = k then v else Memory.read m j := by
  split
  · subst_vars; exact Memory.read_write_same hm.1 _ v
  · exact Memory.read_write_other m v ‹_›

theorem Memory.mem_write {m : Memory α} {k : Nat} {v : α} {e : Nat × α} (h : e ∈ Memory.write m k v) :
    e ∈ m ∨ (e = (k, v) ∧ v ≠ 0) := by
  induction m with
  | nil =>
    by_cases hv : v = 0
    · simp [Memory.write, hv] at h
    · simp only [Memory.write, if_neg hv, List.mem_singleton] at h
      exact .inr ⟨h, hv⟩
  | cons d t ih =>
    obtain ⟨a, x⟩ := d
    simp only [Memory.write] at h
    split at h
    · split at h
      · exact .inl h
      · rcases List.mem_cons.1 h with h | h
        · exact .inr ⟨h, ‹_›⟩
        · exact .inl h
    · split at h
      · split at h
        · exact .inl (List.mem_cons_of_mem _ h)
        · rcases List.mem_cons.1 h with h | h
          · exact .inr ⟨h, ‹_›⟩
          · exact .inl (List.mem_cons_of_mem _ h)
      · rcases List.mem_cons.1 h with h | h
        · exact .inl (h ▸ List.mem_cons_self)
        · rcases ih h with h | h
          · exact .inl (List.mem_cons_of_mem _ h)
          · exact .inr h

/-- A write keeps the canonical form. -/
theorem Memory.wf_write {m : Memory α} (hm : m.wf) (k : Nat) (v : α) : Memory.wf (Memory.write m k v) := by
  refine ⟨?_, fun e he => ?_⟩
  · induction m with
    | nil => by_cases hv : v = 0 <;> simp [Memory.write, hv]
    | cons d t ih =>
      obtain ⟨a, x⟩ := d
      have ht := Memory.wf_tail hm
      simp only [Memory.write]
      split
      · rename_i hka
        split
        · exact hm.1
        · refine List.pairwise_cons.2 ⟨fun y hy => ?_, hm.1⟩
          rcases List.mem_cons.1 hy with rfl | hy
          · exact hka
          · exact Memory.head_below hm.1 (le_of_lt hka) y hy
      · split
        · subst_vars
          split
          · exact ht.1
          · exact List.pairwise_cons.2 ⟨(List.pairwise_cons.1 hm.1).1, ht.1⟩
        · refine List.pairwise_cons.2 ⟨fun y hy => ?_, ih ht⟩
          rcases Memory.mem_write hy with hy | ⟨rfl, _⟩
          · exact (List.pairwise_cons.1 hm.1).1 y hy
          · simp only; omega
  · rcases Memory.mem_write he with he | ⟨rfl, hv⟩
    · exact hm.2 e he
    · exact hv

omit [DecidableEq α] in
theorem Memory.read_zeroRange (m : Memory α) (lo hi k : Nat) :
    Memory.read (Memory.zeroRange m lo hi) k = if lo ≤ k ∧ k < hi then 0 else Memory.read m k := by
  induction m with
  | nil => simp [Memory.zeroRange]
  | cons e t ih =>
    obtain ⟨a, x⟩ := e
    simp only [Memory.zeroRange] at ih ⊢
    by_cases ha : lo ≤ a ∧ a < hi
    · have : (!(decide (lo ≤ a) && decide (a < hi))) = false := by simp [ha]
      rw [List.filter_cons_of_neg (by simp [ha]), ih]
      split
      · rfl
      · simp only [Memory.read]
        rw [if_neg]
        rintro rfl
        exact absurd ha ‹_›
    · rw [List.filter_cons_of_pos (by simp; omega)]
      simp only [Memory.read, ih]
      by_cases hk : a = k
      · subst hk; simp [ha]
      · simp [hk]

/-- Zeroing a range keeps the canonical form. -/
theorem Memory.wf_zeroRange {m : Memory α} (hm : m.wf) (lo hi : Nat) : Memory.wf (Memory.zeroRange m lo hi) :=
  ⟨hm.1.filter _, fun e he => hm.2 e (List.mem_of_mem_filter he)⟩

/-- Equal memories are equal data: canonical arrays with equal reads are equal. -/
theorem Memory.ext_of_read {m m' : Memory α} (h : m.wf) (h' : m'.wf)
    (hr : ∀ k, Memory.read m k = Memory.read m' k) : m = m' := by
  induction m generalizing m' with
  | nil =>
    cases m' with
    | nil => rfl
    | cons e t =>
      have := hr e.1
      simp only [Memory.read, if_true] at this
      exact absurd this.symm (h'.2 e List.mem_cons_self)
  | cons e t ih =>
    cases m' with
    | nil =>
      have := hr e.1
      simp only [Memory.read, if_true] at this
      exact absurd this (h.2 e List.mem_cons_self)
    | cons d u =>
      obtain ⟨a, x⟩ := e
      obtain ⟨b, y⟩ := d
      have hx : x ≠ 0 := h.2 _ List.mem_cons_self
      have hy : y ≠ 0 := h'.2 _ List.mem_cons_self
      have hab : a = b := by
        rcases Nat.lt_trichotomy a b with hlt | heq | hgt
        · have h1 := hr a
          have h2 : Memory.read ((b, y) :: u) a = 0 := Memory.read_below fun z hz => by
            rcases List.mem_cons.1 hz with rfl | hz
            · exact hlt
            · exact Memory.head_below h'.1 (le_of_lt hlt) z hz
          rw [h2] at h1
          simp only [Memory.read, if_true] at h1
          exact absurd h1 hx
        · exact heq
        · have h1 := hr b
          have h2 : Memory.read ((a, x) :: t) b = 0 := Memory.read_below fun z hz => by
            rcases List.mem_cons.1 hz with rfl | hz
            · exact hgt
            · exact Memory.head_below h.1 (le_of_lt hgt) z hz
          rw [h2] at h1
          simp only [Memory.read, if_true] at h1
          exact absurd h1.symm hy
      subst hab
      have hxy : x = y := by have := hr a; simpa [Memory.read] using this
      subst hxy
      congr 1
      refine ih (Memory.wf_tail h) (Memory.wf_tail h') fun k => ?_
      by_cases hk : a = k
      · subst hk
        rw [Memory.read_below (Memory.head_below h.1 (le_refl _)), Memory.read_below (Memory.head_below h'.1 (le_refl _))]
      · have := hr k
        simpa [Memory.read, hk] using this

end Sys2Proof.Machine
end

