-- ==== Sys2Proof/Laws/State.lean ====
section
/-! SUPPORT. The record updates of State, one lemma per field per update, and the same for the operations that raise a flag or
change one buffer: no later proof unfolds an update. -/

namespace Sys2Proof.Machine

variable (s : State)


/-! ### setRes0 -/

@[simp] theorem State.setRes0_cfg (v : Word) : (s.setRes0 v).cfg = s.cfg := rfl
@[simp] theorem State.setRes0_bb0 (v : Word) : (s.setRes0 v).bb0 = s.bb0 := rfl
@[simp] theorem State.setRes0_bb1 (v : Word) : (s.setRes0 v).bb1 = s.bb1 := rfl
@[simp] theorem State.setRes0_pt (v : Word) : (s.setRes0 v).pt = s.pt := rfl
@[simp] theorem State.setRes0_spec (v : Word) : (s.setRes0 v).spec = s.spec := rfl
@[simp] theorem State.setRes0_arg0 (v : Word) : (s.setRes0 v).arg0 = s.arg0 := rfl
@[simp] theorem State.setRes0_arg1 (v : Word) : (s.setRes0 v).arg1 = s.arg1 := rfl
@[simp] theorem State.setRes0_res0 (v : Word) : (s.setRes0 v).res0 = v := rfl
@[simp] theorem State.setRes0_res1 (v : Word) : (s.setRes0 v).res1 = s.res1 := rfl
@[simp] theorem State.setRes0_pat (v : Word) : (s.setRes0 v).pat = s.pat := rfl
@[simp] theorem State.setRes0_xbuf (v : Word) : (s.setRes0 v).xbuf = s.xbuf := rfl
@[simp] theorem State.setRes0_flags (v : Word) : (s.setRes0 v).flags = s.flags := rfl
@[simp] theorem State.setRes0_phase (v : Word) : (s.setRes0 v).phase = s.phase := rfl
@[simp] theorem State.setRes0_cursor (v : Word) : (s.setRes0 v).cursor = s.cursor := rfl
@[simp] theorem State.setRes0_events (v : Word) : (s.setRes0 v).events = s.events := rfl
@[simp] theorem State.setRes0_dispatches (v : Word) : (s.setRes0 v).dispatches = s.dispatches := rfl
@[simp] theorem State.setRes0_statFail (v : Word) : (s.setRes0 v).statFail = s.statFail := rfl
@[simp] theorem State.setRes0_origin (v : Word) : (s.setRes0 v).origin = s.origin := rfl
@[simp] theorem State.setRes0_lat (v : Word) : (s.setRes0 v).lat = s.lat := rfl
@[simp] theorem State.setRes0_pending (v : Word) : (s.setRes0 v).pending = s.pending := rfl
@[simp] theorem State.setRes0_rdata (v : Word) : (s.setRes0 v).rdata = s.rdata := rfl
@[simp] theorem State.setRes0_done (v : Word) : (s.setRes0 v).done = s.done := rfl
@[simp] theorem State.setRes0_bb (v : Word) (b : Buf) : (s.setRes0 v).bb b = s.bb b := by cases b <;> rfl

/-! ### setRes1 -/

@[simp] theorem State.setRes1_cfg (v : Word) : (s.setRes1 v).cfg = s.cfg := rfl
@[simp] theorem State.setRes1_bb0 (v : Word) : (s.setRes1 v).bb0 = s.bb0 := rfl
@[simp] theorem State.setRes1_bb1 (v : Word) : (s.setRes1 v).bb1 = s.bb1 := rfl
@[simp] theorem State.setRes1_pt (v : Word) : (s.setRes1 v).pt = s.pt := rfl
@[simp] theorem State.setRes1_spec (v : Word) : (s.setRes1 v).spec = s.spec := rfl
@[simp] theorem State.setRes1_arg0 (v : Word) : (s.setRes1 v).arg0 = s.arg0 := rfl
@[simp] theorem State.setRes1_arg1 (v : Word) : (s.setRes1 v).arg1 = s.arg1 := rfl
@[simp] theorem State.setRes1_res0 (v : Word) : (s.setRes1 v).res0 = s.res0 := rfl
@[simp] theorem State.setRes1_res1 (v : Word) : (s.setRes1 v).res1 = v := rfl
@[simp] theorem State.setRes1_pat (v : Word) : (s.setRes1 v).pat = s.pat := rfl
@[simp] theorem State.setRes1_xbuf (v : Word) : (s.setRes1 v).xbuf = s.xbuf := rfl
@[simp] theorem State.setRes1_flags (v : Word) : (s.setRes1 v).flags = s.flags := rfl
@[simp] theorem State.setRes1_phase (v : Word) : (s.setRes1 v).phase = s.phase := rfl
@[simp] theorem State.setRes1_cursor (v : Word) : (s.setRes1 v).cursor = s.cursor := rfl
@[simp] theorem State.setRes1_events (v : Word) : (s.setRes1 v).events = s.events := rfl
@[simp] theorem State.setRes1_dispatches (v : Word) : (s.setRes1 v).dispatches = s.dispatches := rfl
@[simp] theorem State.setRes1_statFail (v : Word) : (s.setRes1 v).statFail = s.statFail := rfl
@[simp] theorem State.setRes1_origin (v : Word) : (s.setRes1 v).origin = s.origin := rfl
@[simp] theorem State.setRes1_lat (v : Word) : (s.setRes1 v).lat = s.lat := rfl
@[simp] theorem State.setRes1_pending (v : Word) : (s.setRes1 v).pending = s.pending := rfl
@[simp] theorem State.setRes1_rdata (v : Word) : (s.setRes1 v).rdata = s.rdata := rfl
@[simp] theorem State.setRes1_done (v : Word) : (s.setRes1 v).done = s.done := rfl
@[simp] theorem State.setRes1_bb (v : Word) (b : Buf) : (s.setRes1 v).bb b = s.bb b := by cases b <;> rfl

/-! ### setXbuf -/

@[simp] theorem State.setXbuf_cfg (m : Memory Byte) : (s.setXbuf m).cfg = s.cfg := rfl
@[simp] theorem State.setXbuf_bb0 (m : Memory Byte) : (s.setXbuf m).bb0 = s.bb0 := rfl
@[simp] theorem State.setXbuf_bb1 (m : Memory Byte) : (s.setXbuf m).bb1 = s.bb1 := rfl
@[simp] theorem State.setXbuf_pt (m : Memory Byte) : (s.setXbuf m).pt = s.pt := rfl
@[simp] theorem State.setXbuf_spec (m : Memory Byte) : (s.setXbuf m).spec = s.spec := rfl
@[simp] theorem State.setXbuf_arg0 (m : Memory Byte) : (s.setXbuf m).arg0 = s.arg0 := rfl
@[simp] theorem State.setXbuf_arg1 (m : Memory Byte) : (s.setXbuf m).arg1 = s.arg1 := rfl
@[simp] theorem State.setXbuf_res0 (m : Memory Byte) : (s.setXbuf m).res0 = s.res0 := rfl
@[simp] theorem State.setXbuf_res1 (m : Memory Byte) : (s.setXbuf m).res1 = s.res1 := rfl
@[simp] theorem State.setXbuf_pat (m : Memory Byte) : (s.setXbuf m).pat = s.pat := rfl
@[simp] theorem State.setXbuf_xbuf (m : Memory Byte) : (s.setXbuf m).xbuf = m := rfl
@[simp] theorem State.setXbuf_flags (m : Memory Byte) : (s.setXbuf m).flags = s.flags := rfl
@[simp] theorem State.setXbuf_phase (m : Memory Byte) : (s.setXbuf m).phase = s.phase := rfl
@[simp] theorem State.setXbuf_cursor (m : Memory Byte) : (s.setXbuf m).cursor = s.cursor := rfl
@[simp] theorem State.setXbuf_events (m : Memory Byte) : (s.setXbuf m).events = s.events := rfl
@[simp] theorem State.setXbuf_dispatches (m : Memory Byte) : (s.setXbuf m).dispatches = s.dispatches := rfl
@[simp] theorem State.setXbuf_statFail (m : Memory Byte) : (s.setXbuf m).statFail = s.statFail := rfl
@[simp] theorem State.setXbuf_origin (m : Memory Byte) : (s.setXbuf m).origin = s.origin := rfl
@[simp] theorem State.setXbuf_lat (m : Memory Byte) : (s.setXbuf m).lat = s.lat := rfl
@[simp] theorem State.setXbuf_pending (m : Memory Byte) : (s.setXbuf m).pending = s.pending := rfl
@[simp] theorem State.setXbuf_rdata (m : Memory Byte) : (s.setXbuf m).rdata = s.rdata := rfl
@[simp] theorem State.setXbuf_done (m : Memory Byte) : (s.setXbuf m).done = s.done := rfl
@[simp] theorem State.setXbuf_bb (m : Memory Byte) (b : Buf) : (s.setXbuf m).bb b = s.bb b := by cases b <;> rfl

/-! ### setFlags -/

@[simp] theorem State.setFlags_cfg (v : Word) : (s.setFlags v).cfg = s.cfg := rfl
@[simp] theorem State.setFlags_bb0 (v : Word) : (s.setFlags v).bb0 = s.bb0 := rfl
@[simp] theorem State.setFlags_bb1 (v : Word) : (s.setFlags v).bb1 = s.bb1 := rfl
@[simp] theorem State.setFlags_pt (v : Word) : (s.setFlags v).pt = s.pt := rfl
@[simp] theorem State.setFlags_spec (v : Word) : (s.setFlags v).spec = s.spec := rfl
@[simp] theorem State.setFlags_arg0 (v : Word) : (s.setFlags v).arg0 = s.arg0 := rfl
@[simp] theorem State.setFlags_arg1 (v : Word) : (s.setFlags v).arg1 = s.arg1 := rfl
@[simp] theorem State.setFlags_res0 (v : Word) : (s.setFlags v).res0 = s.res0 := rfl
@[simp] theorem State.setFlags_res1 (v : Word) : (s.setFlags v).res1 = s.res1 := rfl
@[simp] theorem State.setFlags_pat (v : Word) : (s.setFlags v).pat = s.pat := rfl
@[simp] theorem State.setFlags_xbuf (v : Word) : (s.setFlags v).xbuf = s.xbuf := rfl
@[simp] theorem State.setFlags_flags (v : Word) : (s.setFlags v).flags = v := rfl
@[simp] theorem State.setFlags_phase (v : Word) : (s.setFlags v).phase = s.phase := rfl
@[simp] theorem State.setFlags_cursor (v : Word) : (s.setFlags v).cursor = s.cursor := rfl
@[simp] theorem State.setFlags_events (v : Word) : (s.setFlags v).events = s.events := rfl
@[simp] theorem State.setFlags_dispatches (v : Word) : (s.setFlags v).dispatches = s.dispatches := rfl
@[simp] theorem State.setFlags_statFail (v : Word) : (s.setFlags v).statFail = s.statFail := rfl
@[simp] theorem State.setFlags_origin (v : Word) : (s.setFlags v).origin = s.origin := rfl
@[simp] theorem State.setFlags_lat (v : Word) : (s.setFlags v).lat = s.lat := rfl
@[simp] theorem State.setFlags_pending (v : Word) : (s.setFlags v).pending = s.pending := rfl
@[simp] theorem State.setFlags_rdata (v : Word) : (s.setFlags v).rdata = s.rdata := rfl
@[simp] theorem State.setFlags_done (v : Word) : (s.setFlags v).done = s.done := rfl
@[simp] theorem State.setFlags_bb (v : Word) (b : Buf) : (s.setFlags v).bb b = s.bb b := by cases b <;> rfl

/-! ### setPhase -/

@[simp] theorem State.setPhase_cfg (p : Phase) : (s.setPhase p).cfg = s.cfg := rfl
@[simp] theorem State.setPhase_bb0 (p : Phase) : (s.setPhase p).bb0 = s.bb0 := rfl
@[simp] theorem State.setPhase_bb1 (p : Phase) : (s.setPhase p).bb1 = s.bb1 := rfl
@[simp] theorem State.setPhase_pt (p : Phase) : (s.setPhase p).pt = s.pt := rfl
@[simp] theorem State.setPhase_spec (p : Phase) : (s.setPhase p).spec = s.spec := rfl
@[simp] theorem State.setPhase_arg0 (p : Phase) : (s.setPhase p).arg0 = s.arg0 := rfl
@[simp] theorem State.setPhase_arg1 (p : Phase) : (s.setPhase p).arg1 = s.arg1 := rfl
@[simp] theorem State.setPhase_res0 (p : Phase) : (s.setPhase p).res0 = s.res0 := rfl
@[simp] theorem State.setPhase_res1 (p : Phase) : (s.setPhase p).res1 = s.res1 := rfl
@[simp] theorem State.setPhase_pat (p : Phase) : (s.setPhase p).pat = s.pat := rfl
@[simp] theorem State.setPhase_xbuf (p : Phase) : (s.setPhase p).xbuf = s.xbuf := rfl
@[simp] theorem State.setPhase_flags (p : Phase) : (s.setPhase p).flags = s.flags := rfl
@[simp] theorem State.setPhase_phase (p : Phase) : (s.setPhase p).phase = p := rfl
@[simp] theorem State.setPhase_cursor (p : Phase) : (s.setPhase p).cursor = s.cursor := rfl
@[simp] theorem State.setPhase_events (p : Phase) : (s.setPhase p).events = s.events := rfl
@[simp] theorem State.setPhase_dispatches (p : Phase) : (s.setPhase p).dispatches = s.dispatches := rfl
@[simp] theorem State.setPhase_statFail (p : Phase) : (s.setPhase p).statFail = s.statFail := rfl
@[simp] theorem State.setPhase_origin (p : Phase) : (s.setPhase p).origin = s.origin := rfl
@[simp] theorem State.setPhase_lat (p : Phase) : (s.setPhase p).lat = s.lat := rfl
@[simp] theorem State.setPhase_pending (p : Phase) : (s.setPhase p).pending = s.pending := rfl
@[simp] theorem State.setPhase_rdata (p : Phase) : (s.setPhase p).rdata = s.rdata := rfl
@[simp] theorem State.setPhase_done (p : Phase) : (s.setPhase p).done = s.done := rfl
@[simp] theorem State.setPhase_bb (p : Phase) (b : Buf) : (s.setPhase p).bb b = s.bb b := by cases b <;> rfl

/-! ### setCursor -/

@[simp] theorem State.setCursor_cfg (v : Word) : (s.setCursor v).cfg = s.cfg := rfl
@[simp] theorem State.setCursor_bb0 (v : Word) : (s.setCursor v).bb0 = s.bb0 := rfl
@[simp] theorem State.setCursor_bb1 (v : Word) : (s.setCursor v).bb1 = s.bb1 := rfl
@[simp] theorem State.setCursor_pt (v : Word) : (s.setCursor v).pt = s.pt := rfl
@[simp] theorem State.setCursor_spec (v : Word) : (s.setCursor v).spec = s.spec := rfl
@[simp] theorem State.setCursor_arg0 (v : Word) : (s.setCursor v).arg0 = s.arg0 := rfl
@[simp] theorem State.setCursor_arg1 (v : Word) : (s.setCursor v).arg1 = s.arg1 := rfl
@[simp] theorem State.setCursor_res0 (v : Word) : (s.setCursor v).res0 = s.res0 := rfl
@[simp] theorem State.setCursor_res1 (v : Word) : (s.setCursor v).res1 = s.res1 := rfl
@[simp] theorem State.setCursor_pat (v : Word) : (s.setCursor v).pat = s.pat := rfl
@[simp] theorem State.setCursor_xbuf (v : Word) : (s.setCursor v).xbuf = s.xbuf := rfl
@[simp] theorem State.setCursor_flags (v : Word) : (s.setCursor v).flags = s.flags := rfl
@[simp] theorem State.setCursor_phase (v : Word) : (s.setCursor v).phase = s.phase := rfl
@[simp] theorem State.setCursor_cursor (v : Word) : (s.setCursor v).cursor = v := rfl
@[simp] theorem State.setCursor_events (v : Word) : (s.setCursor v).events = s.events := rfl
@[simp] theorem State.setCursor_dispatches (v : Word) : (s.setCursor v).dispatches = s.dispatches := rfl
@[simp] theorem State.setCursor_statFail (v : Word) : (s.setCursor v).statFail = s.statFail := rfl
@[simp] theorem State.setCursor_origin (v : Word) : (s.setCursor v).origin = s.origin := rfl
@[simp] theorem State.setCursor_lat (v : Word) : (s.setCursor v).lat = s.lat := rfl
@[simp] theorem State.setCursor_pending (v : Word) : (s.setCursor v).pending = s.pending := rfl
@[simp] theorem State.setCursor_rdata (v : Word) : (s.setCursor v).rdata = s.rdata := rfl
@[simp] theorem State.setCursor_done (v : Word) : (s.setCursor v).done = s.done := rfl
@[simp] theorem State.setCursor_bb (v : Word) (b : Buf) : (s.setCursor v).bb b = s.bb b := by cases b <;> rfl

/-! ### setEvents -/

@[simp] theorem State.setEvents_cfg (v : Word) : (s.setEvents v).cfg = s.cfg := rfl
@[simp] theorem State.setEvents_bb0 (v : Word) : (s.setEvents v).bb0 = s.bb0 := rfl
@[simp] theorem State.setEvents_bb1 (v : Word) : (s.setEvents v).bb1 = s.bb1 := rfl
@[simp] theorem State.setEvents_pt (v : Word) : (s.setEvents v).pt = s.pt := rfl
@[simp] theorem State.setEvents_spec (v : Word) : (s.setEvents v).spec = s.spec := rfl
@[simp] theorem State.setEvents_arg0 (v : Word) : (s.setEvents v).arg0 = s.arg0 := rfl
@[simp] theorem State.setEvents_arg1 (v : Word) : (s.setEvents v).arg1 = s.arg1 := rfl
@[simp] theorem State.setEvents_res0 (v : Word) : (s.setEvents v).res0 = s.res0 := rfl
@[simp] theorem State.setEvents_res1 (v : Word) : (s.setEvents v).res1 = s.res1 := rfl
@[simp] theorem State.setEvents_pat (v : Word) : (s.setEvents v).pat = s.pat := rfl
@[simp] theorem State.setEvents_xbuf (v : Word) : (s.setEvents v).xbuf = s.xbuf := rfl
@[simp] theorem State.setEvents_flags (v : Word) : (s.setEvents v).flags = s.flags := rfl
@[simp] theorem State.setEvents_phase (v : Word) : (s.setEvents v).phase = s.phase := rfl
@[simp] theorem State.setEvents_cursor (v : Word) : (s.setEvents v).cursor = s.cursor := rfl
@[simp] theorem State.setEvents_events (v : Word) : (s.setEvents v).events = v := rfl
@[simp] theorem State.setEvents_dispatches (v : Word) : (s.setEvents v).dispatches = s.dispatches := rfl
@[simp] theorem State.setEvents_statFail (v : Word) : (s.setEvents v).statFail = s.statFail := rfl
@[simp] theorem State.setEvents_origin (v : Word) : (s.setEvents v).origin = s.origin := rfl
@[simp] theorem State.setEvents_lat (v : Word) : (s.setEvents v).lat = s.lat := rfl
@[simp] theorem State.setEvents_pending (v : Word) : (s.setEvents v).pending = s.pending := rfl
@[simp] theorem State.setEvents_rdata (v : Word) : (s.setEvents v).rdata = s.rdata := rfl
@[simp] theorem State.setEvents_done (v : Word) : (s.setEvents v).done = s.done := rfl
@[simp] theorem State.setEvents_bb (v : Word) (b : Buf) : (s.setEvents v).bb b = s.bb b := by cases b <;> rfl

/-! ### setDispatches -/

@[simp] theorem State.setDispatches_cfg (v : Word) : (s.setDispatches v).cfg = s.cfg := rfl
@[simp] theorem State.setDispatches_bb0 (v : Word) : (s.setDispatches v).bb0 = s.bb0 := rfl
@[simp] theorem State.setDispatches_bb1 (v : Word) : (s.setDispatches v).bb1 = s.bb1 := rfl
@[simp] theorem State.setDispatches_pt (v : Word) : (s.setDispatches v).pt = s.pt := rfl
@[simp] theorem State.setDispatches_spec (v : Word) : (s.setDispatches v).spec = s.spec := rfl
@[simp] theorem State.setDispatches_arg0 (v : Word) : (s.setDispatches v).arg0 = s.arg0 := rfl
@[simp] theorem State.setDispatches_arg1 (v : Word) : (s.setDispatches v).arg1 = s.arg1 := rfl
@[simp] theorem State.setDispatches_res0 (v : Word) : (s.setDispatches v).res0 = s.res0 := rfl
@[simp] theorem State.setDispatches_res1 (v : Word) : (s.setDispatches v).res1 = s.res1 := rfl
@[simp] theorem State.setDispatches_pat (v : Word) : (s.setDispatches v).pat = s.pat := rfl
@[simp] theorem State.setDispatches_xbuf (v : Word) : (s.setDispatches v).xbuf = s.xbuf := rfl
@[simp] theorem State.setDispatches_flags (v : Word) : (s.setDispatches v).flags = s.flags := rfl
@[simp] theorem State.setDispatches_phase (v : Word) : (s.setDispatches v).phase = s.phase := rfl
@[simp] theorem State.setDispatches_cursor (v : Word) : (s.setDispatches v).cursor = s.cursor := rfl
@[simp] theorem State.setDispatches_events (v : Word) : (s.setDispatches v).events = s.events := rfl
@[simp] theorem State.setDispatches_dispatches (v : Word) : (s.setDispatches v).dispatches = v := rfl
@[simp] theorem State.setDispatches_statFail (v : Word) : (s.setDispatches v).statFail = s.statFail := rfl
@[simp] theorem State.setDispatches_origin (v : Word) : (s.setDispatches v).origin = s.origin := rfl
@[simp] theorem State.setDispatches_lat (v : Word) : (s.setDispatches v).lat = s.lat := rfl
@[simp] theorem State.setDispatches_pending (v : Word) : (s.setDispatches v).pending = s.pending := rfl
@[simp] theorem State.setDispatches_rdata (v : Word) : (s.setDispatches v).rdata = s.rdata := rfl
@[simp] theorem State.setDispatches_done (v : Word) : (s.setDispatches v).done = s.done := rfl
@[simp] theorem State.setDispatches_bb (v : Word) (b : Buf) : (s.setDispatches v).bb b = s.bb b := by cases b <;> rfl

/-! ### setStatFail -/

@[simp] theorem State.setStatFail_cfg (m : Memory Word) : (s.setStatFail m).cfg = s.cfg := rfl
@[simp] theorem State.setStatFail_bb0 (m : Memory Word) : (s.setStatFail m).bb0 = s.bb0 := rfl
@[simp] theorem State.setStatFail_bb1 (m : Memory Word) : (s.setStatFail m).bb1 = s.bb1 := rfl
@[simp] theorem State.setStatFail_pt (m : Memory Word) : (s.setStatFail m).pt = s.pt := rfl
@[simp] theorem State.setStatFail_spec (m : Memory Word) : (s.setStatFail m).spec = s.spec := rfl
@[simp] theorem State.setStatFail_arg0 (m : Memory Word) : (s.setStatFail m).arg0 = s.arg0 := rfl
@[simp] theorem State.setStatFail_arg1 (m : Memory Word) : (s.setStatFail m).arg1 = s.arg1 := rfl
@[simp] theorem State.setStatFail_res0 (m : Memory Word) : (s.setStatFail m).res0 = s.res0 := rfl
@[simp] theorem State.setStatFail_res1 (m : Memory Word) : (s.setStatFail m).res1 = s.res1 := rfl
@[simp] theorem State.setStatFail_pat (m : Memory Word) : (s.setStatFail m).pat = s.pat := rfl
@[simp] theorem State.setStatFail_xbuf (m : Memory Word) : (s.setStatFail m).xbuf = s.xbuf := rfl
@[simp] theorem State.setStatFail_flags (m : Memory Word) : (s.setStatFail m).flags = s.flags := rfl
@[simp] theorem State.setStatFail_phase (m : Memory Word) : (s.setStatFail m).phase = s.phase := rfl
@[simp] theorem State.setStatFail_cursor (m : Memory Word) : (s.setStatFail m).cursor = s.cursor := rfl
@[simp] theorem State.setStatFail_events (m : Memory Word) : (s.setStatFail m).events = s.events := rfl
@[simp] theorem State.setStatFail_dispatches (m : Memory Word) : (s.setStatFail m).dispatches = s.dispatches := rfl
@[simp] theorem State.setStatFail_statFail (m : Memory Word) : (s.setStatFail m).statFail = m := rfl
@[simp] theorem State.setStatFail_origin (m : Memory Word) : (s.setStatFail m).origin = s.origin := rfl
@[simp] theorem State.setStatFail_lat (m : Memory Word) : (s.setStatFail m).lat = s.lat := rfl
@[simp] theorem State.setStatFail_pending (m : Memory Word) : (s.setStatFail m).pending = s.pending := rfl
@[simp] theorem State.setStatFail_rdata (m : Memory Word) : (s.setStatFail m).rdata = s.rdata := rfl
@[simp] theorem State.setStatFail_done (m : Memory Word) : (s.setStatFail m).done = s.done := rfl
@[simp] theorem State.setStatFail_bb (m : Memory Word) (b : Buf) : (s.setStatFail m).bb b = s.bb b := by cases b <;> rfl

/-! ### setOrigin -/

@[simp] theorem State.setOrigin_cfg (o : Origin) : (s.setOrigin o).cfg = s.cfg := rfl
@[simp] theorem State.setOrigin_bb0 (o : Origin) : (s.setOrigin o).bb0 = s.bb0 := rfl
@[simp] theorem State.setOrigin_bb1 (o : Origin) : (s.setOrigin o).bb1 = s.bb1 := rfl
@[simp] theorem State.setOrigin_pt (o : Origin) : (s.setOrigin o).pt = s.pt := rfl
@[simp] theorem State.setOrigin_spec (o : Origin) : (s.setOrigin o).spec = s.spec := rfl
@[simp] theorem State.setOrigin_arg0 (o : Origin) : (s.setOrigin o).arg0 = s.arg0 := rfl
@[simp] theorem State.setOrigin_arg1 (o : Origin) : (s.setOrigin o).arg1 = s.arg1 := rfl
@[simp] theorem State.setOrigin_res0 (o : Origin) : (s.setOrigin o).res0 = s.res0 := rfl
@[simp] theorem State.setOrigin_res1 (o : Origin) : (s.setOrigin o).res1 = s.res1 := rfl
@[simp] theorem State.setOrigin_pat (o : Origin) : (s.setOrigin o).pat = s.pat := rfl
@[simp] theorem State.setOrigin_xbuf (o : Origin) : (s.setOrigin o).xbuf = s.xbuf := rfl
@[simp] theorem State.setOrigin_flags (o : Origin) : (s.setOrigin o).flags = s.flags := rfl
@[simp] theorem State.setOrigin_phase (o : Origin) : (s.setOrigin o).phase = s.phase := rfl
@[simp] theorem State.setOrigin_cursor (o : Origin) : (s.setOrigin o).cursor = s.cursor := rfl
@[simp] theorem State.setOrigin_events (o : Origin) : (s.setOrigin o).events = s.events := rfl
@[simp] theorem State.setOrigin_dispatches (o : Origin) : (s.setOrigin o).dispatches = s.dispatches := rfl
@[simp] theorem State.setOrigin_statFail (o : Origin) : (s.setOrigin o).statFail = s.statFail := rfl
@[simp] theorem State.setOrigin_origin (o : Origin) : (s.setOrigin o).origin = o := rfl
@[simp] theorem State.setOrigin_lat (o : Origin) : (s.setOrigin o).lat = s.lat := rfl
@[simp] theorem State.setOrigin_pending (o : Origin) : (s.setOrigin o).pending = s.pending := rfl
@[simp] theorem State.setOrigin_rdata (o : Origin) : (s.setOrigin o).rdata = s.rdata := rfl
@[simp] theorem State.setOrigin_done (o : Origin) : (s.setOrigin o).done = s.done := rfl
@[simp] theorem State.setOrigin_bb (o : Origin) (b : Buf) : (s.setOrigin o).bb b = s.bb b := by cases b <;> rfl

/-! ### setLat -/

@[simp] theorem State.setLat_cfg (l : Latches) : (s.setLat l).cfg = s.cfg := rfl
@[simp] theorem State.setLat_bb0 (l : Latches) : (s.setLat l).bb0 = s.bb0 := rfl
@[simp] theorem State.setLat_bb1 (l : Latches) : (s.setLat l).bb1 = s.bb1 := rfl
@[simp] theorem State.setLat_pt (l : Latches) : (s.setLat l).pt = s.pt := rfl
@[simp] theorem State.setLat_spec (l : Latches) : (s.setLat l).spec = s.spec := rfl
@[simp] theorem State.setLat_arg0 (l : Latches) : (s.setLat l).arg0 = s.arg0 := rfl
@[simp] theorem State.setLat_arg1 (l : Latches) : (s.setLat l).arg1 = s.arg1 := rfl
@[simp] theorem State.setLat_res0 (l : Latches) : (s.setLat l).res0 = s.res0 := rfl
@[simp] theorem State.setLat_res1 (l : Latches) : (s.setLat l).res1 = s.res1 := rfl
@[simp] theorem State.setLat_pat (l : Latches) : (s.setLat l).pat = s.pat := rfl
@[simp] theorem State.setLat_xbuf (l : Latches) : (s.setLat l).xbuf = s.xbuf := rfl
@[simp] theorem State.setLat_flags (l : Latches) : (s.setLat l).flags = s.flags := rfl
@[simp] theorem State.setLat_phase (l : Latches) : (s.setLat l).phase = s.phase := rfl
@[simp] theorem State.setLat_cursor (l : Latches) : (s.setLat l).cursor = s.cursor := rfl
@[simp] theorem State.setLat_events (l : Latches) : (s.setLat l).events = s.events := rfl
@[simp] theorem State.setLat_dispatches (l : Latches) : (s.setLat l).dispatches = s.dispatches := rfl
@[simp] theorem State.setLat_statFail (l : Latches) : (s.setLat l).statFail = s.statFail := rfl
@[simp] theorem State.setLat_origin (l : Latches) : (s.setLat l).origin = s.origin := rfl
@[simp] theorem State.setLat_lat (l : Latches) : (s.setLat l).lat = l := rfl
@[simp] theorem State.setLat_pending (l : Latches) : (s.setLat l).pending = s.pending := rfl
@[simp] theorem State.setLat_rdata (l : Latches) : (s.setLat l).rdata = s.rdata := rfl
@[simp] theorem State.setLat_done (l : Latches) : (s.setLat l).done = s.done := rfl
@[simp] theorem State.setLat_bb (l : Latches) (b : Buf) : (s.setLat l).bb b = s.bb b := by cases b <;> rfl

/-! ### setDone -/

@[simp] theorem State.setDone_cfg (d : Bool) : (s.setDone d).cfg = s.cfg := rfl
@[simp] theorem State.setDone_bb0 (d : Bool) : (s.setDone d).bb0 = s.bb0 := rfl
@[simp] theorem State.setDone_bb1 (d : Bool) : (s.setDone d).bb1 = s.bb1 := rfl
@[simp] theorem State.setDone_pt (d : Bool) : (s.setDone d).pt = s.pt := rfl
@[simp] theorem State.setDone_spec (d : Bool) : (s.setDone d).spec = s.spec := rfl
@[simp] theorem State.setDone_arg0 (d : Bool) : (s.setDone d).arg0 = s.arg0 := rfl
@[simp] theorem State.setDone_arg1 (d : Bool) : (s.setDone d).arg1 = s.arg1 := rfl
@[simp] theorem State.setDone_res0 (d : Bool) : (s.setDone d).res0 = s.res0 := rfl
@[simp] theorem State.setDone_res1 (d : Bool) : (s.setDone d).res1 = s.res1 := rfl
@[simp] theorem State.setDone_pat (d : Bool) : (s.setDone d).pat = s.pat := rfl
@[simp] theorem State.setDone_xbuf (d : Bool) : (s.setDone d).xbuf = s.xbuf := rfl
@[simp] theorem State.setDone_flags (d : Bool) : (s.setDone d).flags = s.flags := rfl
@[simp] theorem State.setDone_phase (d : Bool) : (s.setDone d).phase = s.phase := rfl
@[simp] theorem State.setDone_cursor (d : Bool) : (s.setDone d).cursor = s.cursor := rfl
@[simp] theorem State.setDone_events (d : Bool) : (s.setDone d).events = s.events := rfl
@[simp] theorem State.setDone_dispatches (d : Bool) : (s.setDone d).dispatches = s.dispatches := rfl
@[simp] theorem State.setDone_statFail (d : Bool) : (s.setDone d).statFail = s.statFail := rfl
@[simp] theorem State.setDone_origin (d : Bool) : (s.setDone d).origin = s.origin := rfl
@[simp] theorem State.setDone_lat (d : Bool) : (s.setDone d).lat = s.lat := rfl
@[simp] theorem State.setDone_pending (d : Bool) : (s.setDone d).pending = s.pending := rfl
@[simp] theorem State.setDone_rdata (d : Bool) : (s.setDone d).rdata = s.rdata := rfl
@[simp] theorem State.setDone_done (d : Bool) : (s.setDone d).done = d := rfl
@[simp] theorem State.setDone_bb (d : Bool) (b : Buf) : (s.setDone d).bb b = s.bb b := by cases b <;> rfl

/-! ### setBb -/

@[simp] theorem State.setBb_cfg (b : Buf) (x : BitBuffer) : (s.setBb b x).cfg = s.cfg := by cases b <;> rfl
@[simp] theorem State.setBb_pt (b : Buf) (x : BitBuffer) : (s.setBb b x).pt = s.pt := by cases b <;> rfl
@[simp] theorem State.setBb_spec (b : Buf) (x : BitBuffer) : (s.setBb b x).spec = s.spec := by cases b <;> rfl
@[simp] theorem State.setBb_arg0 (b : Buf) (x : BitBuffer) : (s.setBb b x).arg0 = s.arg0 := by cases b <;> rfl
@[simp] theorem State.setBb_arg1 (b : Buf) (x : BitBuffer) : (s.setBb b x).arg1 = s.arg1 := by cases b <;> rfl
@[simp] theorem State.setBb_res0 (b : Buf) (x : BitBuffer) : (s.setBb b x).res0 = s.res0 := by cases b <;> rfl
@[simp] theorem State.setBb_res1 (b : Buf) (x : BitBuffer) : (s.setBb b x).res1 = s.res1 := by cases b <;> rfl
@[simp] theorem State.setBb_pat (b : Buf) (x : BitBuffer) : (s.setBb b x).pat = s.pat := by cases b <;> rfl
@[simp] theorem State.setBb_xbuf (b : Buf) (x : BitBuffer) : (s.setBb b x).xbuf = s.xbuf := by cases b <;> rfl
@[simp] theorem State.setBb_flags (b : Buf) (x : BitBuffer) : (s.setBb b x).flags = s.flags := by cases b <;> rfl
@[simp] theorem State.setBb_phase (b : Buf) (x : BitBuffer) : (s.setBb b x).phase = s.phase := by cases b <;> rfl
@[simp] theorem State.setBb_cursor (b : Buf) (x : BitBuffer) : (s.setBb b x).cursor = s.cursor := by cases b <;> rfl
@[simp] theorem State.setBb_events (b : Buf) (x : BitBuffer) : (s.setBb b x).events = s.events := by cases b <;> rfl
@[simp] theorem State.setBb_dispatches (b : Buf) (x : BitBuffer) : (s.setBb b x).dispatches = s.dispatches := by cases b <;> rfl
@[simp] theorem State.setBb_statFail (b : Buf) (x : BitBuffer) : (s.setBb b x).statFail = s.statFail := by cases b <;> rfl
@[simp] theorem State.setBb_origin (b : Buf) (x : BitBuffer) : (s.setBb b x).origin = s.origin := by cases b <;> rfl
@[simp] theorem State.setBb_lat (b : Buf) (x : BitBuffer) : (s.setBb b x).lat = s.lat := by cases b <;> rfl
@[simp] theorem State.setBb_pending (b : Buf) (x : BitBuffer) : (s.setBb b x).pending = s.pending := by cases b <;> rfl
@[simp] theorem State.setBb_rdata (b : Buf) (x : BitBuffer) : (s.setBb b x).rdata = s.rdata := by cases b <;> rfl
@[simp] theorem State.setBb_done (b : Buf) (x : BitBuffer) : (s.setBb b x).done = s.done := by cases b <;> rfl
@[simp] theorem State.setBb_b0_bb0 (x : BitBuffer) : (s.setBb .b0 x).bb0 = x := rfl
@[simp] theorem State.setBb_b0_bb1 (x : BitBuffer) : (s.setBb .b0 x).bb1 = s.bb1 := rfl
@[simp] theorem State.setBb_b1_bb0 (x : BitBuffer) : (s.setBb .b1 x).bb0 = s.bb0 := rfl
@[simp] theorem State.setBb_b1_bb1 (x : BitBuffer) : (s.setBb .b1 x).bb1 = x := rfl
@[simp] theorem State.setBb_bb (b : Buf) (x : BitBuffer) : (s.setBb b x).bb b = x := by cases b <;> rfl
@[simp] theorem State.setBb_bb_other (b : Buf) (x : BitBuffer) : (s.setBb b x).bb (otherBuf b) = s.bb (otherBuf b) := by
  cases b <;> rfl
@[simp] theorem State.setBb_other_bb (b : Buf) (x : BitBuffer) : (s.setBb (otherBuf b) x).bb b = s.bb b := by
  cases b <;> rfl
theorem State.setBb_bb_ne (b d : Buf) (x : BitBuffer) (h : d ≠ b) : (s.setBb b x).bb d = s.bb d := by
  cases b <;> cases d <;> first | rfl | exact absurd rfl h
@[simp] theorem State.bb_b0 : s.bb .b0 = s.bb0 := rfl
@[simp] theorem State.bb_b1 : s.bb .b1 = s.bb1 := rfl


/-! ### raise -/

@[simp] theorem State.raise_cfg (f : Flag) : (s.raise f).cfg = s.cfg := rfl
@[simp] theorem State.raise_bb0 (f : Flag) : (s.raise f).bb0 = s.bb0 := rfl
@[simp] theorem State.raise_bb1 (f : Flag) : (s.raise f).bb1 = s.bb1 := rfl
@[simp] theorem State.raise_pt (f : Flag) : (s.raise f).pt = s.pt := rfl
@[simp] theorem State.raise_spec (f : Flag) : (s.raise f).spec = s.spec := rfl
@[simp] theorem State.raise_arg0 (f : Flag) : (s.raise f).arg0 = s.arg0 := rfl
@[simp] theorem State.raise_arg1 (f : Flag) : (s.raise f).arg1 = s.arg1 := rfl
@[simp] theorem State.raise_res0 (f : Flag) : (s.raise f).res0 = s.res0 := rfl
@[simp] theorem State.raise_res1 (f : Flag) : (s.raise f).res1 = s.res1 := rfl
@[simp] theorem State.raise_pat (f : Flag) : (s.raise f).pat = s.pat := rfl
@[simp] theorem State.raise_xbuf (f : Flag) : (s.raise f).xbuf = s.xbuf := rfl
@[simp] theorem State.raise_phase (f : Flag) : (s.raise f).phase = s.phase := rfl
@[simp] theorem State.raise_cursor (f : Flag) : (s.raise f).cursor = s.cursor := rfl
@[simp] theorem State.raise_events (f : Flag) : (s.raise f).events = s.events := rfl
@[simp] theorem State.raise_dispatches (f : Flag) : (s.raise f).dispatches = s.dispatches := rfl
@[simp] theorem State.raise_statFail (f : Flag) : (s.raise f).statFail = s.statFail := rfl
@[simp] theorem State.raise_origin (f : Flag) : (s.raise f).origin = s.origin := rfl
@[simp] theorem State.raise_lat (f : Flag) : (s.raise f).lat = s.lat := rfl
@[simp] theorem State.raise_pending (f : Flag) : (s.raise f).pending = s.pending := rfl
@[simp] theorem State.raise_rdata (f : Flag) : (s.raise f).rdata = s.rdata := rfl
@[simp] theorem State.raise_done (f : Flag) : (s.raise f).done = s.done := rfl
@[simp] theorem State.raise_bb (f : Flag) (b : Buf) : (s.raise f).bb b = s.bb b := by cases b <;> rfl

/-! ### raiseWhen -/

@[simp] theorem State.raiseWhen_cfg (p : Bool) (f : Flag) : (s.raiseWhen p f).cfg = s.cfg := rfl
@[simp] theorem State.raiseWhen_bb0 (p : Bool) (f : Flag) : (s.raiseWhen p f).bb0 = s.bb0 := rfl
@[simp] theorem State.raiseWhen_bb1 (p : Bool) (f : Flag) : (s.raiseWhen p f).bb1 = s.bb1 := rfl
@[simp] theorem State.raiseWhen_pt (p : Bool) (f : Flag) : (s.raiseWhen p f).pt = s.pt := rfl
@[simp] theorem State.raiseWhen_spec (p : Bool) (f : Flag) : (s.raiseWhen p f).spec = s.spec := rfl
@[simp] theorem State.raiseWhen_arg0 (p : Bool) (f : Flag) : (s.raiseWhen p f).arg0 = s.arg0 := rfl
@[simp] theorem State.raiseWhen_arg1 (p : Bool) (f : Flag) : (s.raiseWhen p f).arg1 = s.arg1 := rfl
@[simp] theorem State.raiseWhen_res0 (p : Bool) (f : Flag) : (s.raiseWhen p f).res0 = s.res0 := rfl
@[simp] theorem State.raiseWhen_res1 (p : Bool) (f : Flag) : (s.raiseWhen p f).res1 = s.res1 := rfl
@[simp] theorem State.raiseWhen_pat (p : Bool) (f : Flag) : (s.raiseWhen p f).pat = s.pat := rfl
@[simp] theorem State.raiseWhen_xbuf (p : Bool) (f : Flag) : (s.raiseWhen p f).xbuf = s.xbuf := rfl
@[simp] theorem State.raiseWhen_phase (p : Bool) (f : Flag) : (s.raiseWhen p f).phase = s.phase := rfl
@[simp] theorem State.raiseWhen_cursor (p : Bool) (f : Flag) : (s.raiseWhen p f).cursor = s.cursor := rfl
@[simp] theorem State.raiseWhen_events (p : Bool) (f : Flag) : (s.raiseWhen p f).events = s.events := rfl
@[simp] theorem State.raiseWhen_dispatches (p : Bool) (f : Flag) : (s.raiseWhen p f).dispatches = s.dispatches := rfl
@[simp] theorem State.raiseWhen_statFail (p : Bool) (f : Flag) : (s.raiseWhen p f).statFail = s.statFail := rfl
@[simp] theorem State.raiseWhen_origin (p : Bool) (f : Flag) : (s.raiseWhen p f).origin = s.origin := rfl
@[simp] theorem State.raiseWhen_lat (p : Bool) (f : Flag) : (s.raiseWhen p f).lat = s.lat := rfl
@[simp] theorem State.raiseWhen_pending (p : Bool) (f : Flag) : (s.raiseWhen p f).pending = s.pending := rfl
@[simp] theorem State.raiseWhen_rdata (p : Bool) (f : Flag) : (s.raiseWhen p f).rdata = s.rdata := rfl
@[simp] theorem State.raiseWhen_done (p : Bool) (f : Flag) : (s.raiseWhen p f).done = s.done := rfl
@[simp] theorem State.raiseWhen_bb (p : Bool) (f : Flag) (b : Buf) : (s.raiseWhen p f).bb b = s.bb b := by cases b <;> rfl

/-! ### refuse -/

@[simp] theorem State.refuse_cfg (f : Flag) : (s.refuse f).cfg = s.cfg := rfl
@[simp] theorem State.refuse_bb0 (f : Flag) : (s.refuse f).bb0 = s.bb0 := rfl
@[simp] theorem State.refuse_bb1 (f : Flag) : (s.refuse f).bb1 = s.bb1 := rfl
@[simp] theorem State.refuse_pt (f : Flag) : (s.refuse f).pt = s.pt := rfl
@[simp] theorem State.refuse_spec (f : Flag) : (s.refuse f).spec = s.spec := rfl
@[simp] theorem State.refuse_arg0 (f : Flag) : (s.refuse f).arg0 = s.arg0 := rfl
@[simp] theorem State.refuse_arg1 (f : Flag) : (s.refuse f).arg1 = s.arg1 := rfl
@[simp] theorem State.refuse_res0 (f : Flag) : (s.refuse f).res0 = s.res0 := rfl
@[simp] theorem State.refuse_res1 (f : Flag) : (s.refuse f).res1 = s.res1 := rfl
@[simp] theorem State.refuse_pat (f : Flag) : (s.refuse f).pat = s.pat := rfl
@[simp] theorem State.refuse_xbuf (f : Flag) : (s.refuse f).xbuf = s.xbuf := rfl
@[simp] theorem State.refuse_phase (f : Flag) : (s.refuse f).phase = s.phase := rfl
@[simp] theorem State.refuse_cursor (f : Flag) : (s.refuse f).cursor = s.cursor := rfl
@[simp] theorem State.refuse_events (f : Flag) : (s.refuse f).events = s.events := rfl
@[simp] theorem State.refuse_dispatches (f : Flag) : (s.refuse f).dispatches = s.dispatches := rfl
@[simp] theorem State.refuse_statFail (f : Flag) : (s.refuse f).statFail = s.statFail := rfl
@[simp] theorem State.refuse_origin (f : Flag) : (s.refuse f).origin = s.origin := rfl
@[simp] theorem State.refuse_lat (f : Flag) : (s.refuse f).lat = s.lat := rfl
@[simp] theorem State.refuse_pending (f : Flag) : (s.refuse f).pending = s.pending := rfl
@[simp] theorem State.refuse_rdata (f : Flag) : (s.refuse f).rdata = s.rdata := rfl
@[simp] theorem State.refuse_done (f : Flag) : (s.refuse f).done = s.done := rfl
@[simp] theorem State.refuse_bb (f : Flag) (b : Buf) : (s.refuse f).bb b = s.bb b := by cases b <;> rfl
@[simp] theorem State.raise_flags (f : Flag) : (s.raise f).flags = raiseIn f s.flags := rfl
@[simp] theorem State.raiseWhen_flags (p : Bool) (f : Flag) : (s.raiseWhen p f).flags = raiseIf p f s.flags := rfl
@[simp] theorem State.refuse_flags (f : Flag) : (s.refuse f).flags = raiseIn f s.flags := rfl


/-! ### onBuffer -/

@[simp] theorem State.onBuffer_cfg (b : Buf) (f : Logged → Logged) : (s.onBuffer b f).cfg = s.cfg := by cases b <;> rfl
@[simp] theorem State.onBuffer_pt (b : Buf) (f : Logged → Logged) : (s.onBuffer b f).pt = s.pt := by cases b <;> rfl
@[simp] theorem State.onBuffer_spec (b : Buf) (f : Logged → Logged) : (s.onBuffer b f).spec = s.spec := by cases b <;> rfl
@[simp] theorem State.onBuffer_arg0 (b : Buf) (f : Logged → Logged) : (s.onBuffer b f).arg0 = s.arg0 := by cases b <;> rfl
@[simp] theorem State.onBuffer_arg1 (b : Buf) (f : Logged → Logged) : (s.onBuffer b f).arg1 = s.arg1 := by cases b <;> rfl
@[simp] theorem State.onBuffer_res0 (b : Buf) (f : Logged → Logged) : (s.onBuffer b f).res0 = s.res0 := by cases b <;> rfl
@[simp] theorem State.onBuffer_res1 (b : Buf) (f : Logged → Logged) : (s.onBuffer b f).res1 = s.res1 := by cases b <;> rfl
@[simp] theorem State.onBuffer_pat (b : Buf) (f : Logged → Logged) : (s.onBuffer b f).pat = s.pat := by cases b <;> rfl
@[simp] theorem State.onBuffer_xbuf (b : Buf) (f : Logged → Logged) : (s.onBuffer b f).xbuf = s.xbuf := by cases b <;> rfl
@[simp] theorem State.onBuffer_phase (b : Buf) (f : Logged → Logged) : (s.onBuffer b f).phase = s.phase := by cases b <;> rfl
@[simp] theorem State.onBuffer_cursor (b : Buf) (f : Logged → Logged) : (s.onBuffer b f).cursor = s.cursor := by cases b <;> rfl
@[simp] theorem State.onBuffer_events (b : Buf) (f : Logged → Logged) : (s.onBuffer b f).events = s.events := by cases b <;> rfl
@[simp] theorem State.onBuffer_dispatches (b : Buf) (f : Logged → Logged) : (s.onBuffer b f).dispatches = s.dispatches := by cases b <;> rfl
@[simp] theorem State.onBuffer_statFail (b : Buf) (f : Logged → Logged) : (s.onBuffer b f).statFail = s.statFail := by cases b <;> rfl
@[simp] theorem State.onBuffer_origin (b : Buf) (f : Logged → Logged) : (s.onBuffer b f).origin = s.origin := by cases b <;> rfl
@[simp] theorem State.onBuffer_lat (b : Buf) (f : Logged → Logged) : (s.onBuffer b f).lat = s.lat := by cases b <;> rfl
@[simp] theorem State.onBuffer_pending (b : Buf) (f : Logged → Logged) : (s.onBuffer b f).pending = s.pending := by cases b <;> rfl
@[simp] theorem State.onBuffer_rdata (b : Buf) (f : Logged → Logged) : (s.onBuffer b f).rdata = s.rdata := by cases b <;> rfl
@[simp] theorem State.onBuffer_done (b : Buf) (f : Logged → Logged) : (s.onBuffer b f).done = s.done := by cases b <;> rfl
@[simp] theorem State.onBuffer_flags (b : Buf) (f : Logged → Logged) :
    (s.onBuffer b f).flags = (f (s.bb b, s.flags)).2 := rfl
@[simp] theorem State.onBuffer_bb (b : Buf) (f : Logged → Logged) : (s.onBuffer b f).bb b = (f (s.bb b, s.flags)).1 := by
  cases b <;> rfl
@[simp] theorem State.onBuffer_bb_other (b : Buf) (f : Logged → Logged) :
    (s.onBuffer b f).bb (otherBuf b) = s.bb (otherBuf b) := by cases b <;> rfl
@[simp] theorem State.onBuffer_b0_bb0 (f : Logged → Logged) : (s.onBuffer .b0 f).bb0 = (f (s.bb0, s.flags)).1 := rfl
@[simp] theorem State.onBuffer_b0_bb1 (f : Logged → Logged) : (s.onBuffer .b0 f).bb1 = s.bb1 := rfl

/-- A state is its buffers and the rest: replacing a buffer by itself changes nothing. -/
@[simp] theorem State.setBb_self (b : Buf) : s.setBb b (s.bb b) = s := by cases b <;> rfl
@[simp] theorem State.setFlags_self : s.setFlags s.flags = s := rfl

@[simp] theorem otherBuf_otherBuf (b : Buf) : otherBuf (otherBuf b) = b := by cases b <;> rfl
theorem otherBuf_ne (b : Buf) : otherBuf b ≠ b := by cases b <;> simp [otherBuf]

end Sys2Proof.Machine
end

