-- ==== Sys2Proof/Laws/Bus.lean ====
section
/-! SUPPORT. The host bus: where the address map of R71 leads, and what a step that accepts one bus access does. -/

namespace Sys2Proof.Machine

variable {c : Params} {s : State}

/-! ### The address map (R71) -/

theorem inSpan_iff (base n w a : Nat) : inSpan base n w a = true ↔ base ≤ a ∧ a < base + w * n := by simp [inSpan]

/-- Every address below 0x100 is a register's, rounded down to the word (R50, R67). -/
theorem locate_reg {a : Nat} (h : a < 0x100) : locate c a = some (.reg, a / 4 * 4) := by
  rw [locate, if_pos h]

/-- The bases of R71 in order, as one chain of inequalities. -/
theorem mapOrder (h : c.Legal) :
    0x100 ≤ c.addrMap.lat ∧ c.addrMap.lat + 8 * 23 ≤ c.addrMap.pat ∧ c.addrMap.pat + c.xcap ≤ c.addrMap.xbuf ∧
    c.addrMap.xbuf + c.xcap ≤ c.addrMap.ptPulse ∧ c.addrMap.ptPulse + 4 * c.maxp ≤ c.addrMap.ptGap ∧
    c.addrMap.ptGap + 4 * c.maxp ≤ c.addrMap.bb0.mem ∧ c.addrMap.bb0.freeRow + 4 ≤ c.addrMap.bb1.mem := by
  obtain ⟨-, -, -, -, -, -, -, -, -, h1, h2, h3, h4, h5, -, -, -, h6, h7⟩ := h
  exact ⟨h1, h2, h3, h4, h5, h6.1, h7.1⟩

/-- The windows of one buffer in order (R71). -/
theorem bufferOrder (h : c.Legal) (b : Buf) :
    let w := bufferWindows c b
    c.addrMap.ptGap + 4 * c.maxp ≤ w.mem ∧ w.mem + c.rows * c.cols ≤ w.bits ∧ w.bits + 4 * c.rows ≤ w.syncs ∧
    w.syncs + 4 * c.rows ≤ w.numRows ∧ w.numRows + 4 ≤ w.freeRow := by
  have h0 := mapOrder h
  obtain ⟨-, -, -, -, -, -, -, -, -, -, -, -, -, -, -, -, -, h6, h7⟩ := h
  cases b
  · exact ⟨h6.1, h6.2.1, h6.2.2.1, h6.2.2.2.1, h6.2.2.2.2.1⟩
  · refine ⟨?_, h7.2.1, h7.2.2.1, h7.2.2.2.1, h7.2.2.2.2.1⟩
    have h8 := h7.1
    have h9 := h6
    simp only [bufferWindows]
    omega

theorem locate_lat (h : c.Legal) {k j : Nat} (hk : k < 23) (hj : j < 8) :
    locate c (c.addrMap.lat + 8 * k + j) = some (.lat, k) := by
  have h0 := mapOrder h
  simp only [locate, inSpan_iff]
  rw [if_neg (by omega), if_pos (by omega), show (c.addrMap.lat + 8 * k + j - c.addrMap.lat) / 8 = k by omega]

theorem locate_pat (h : c.Legal) {j : Nat} (hj : j < c.xcap) : locate c (c.addrMap.pat + j) = some (.pat, j) := by
  have h0 := mapOrder h
  simp only [locate, inSpan_iff]
  rw [if_neg (by omega), if_neg (by omega), if_pos (by omega), Nat.add_sub_cancel_left]

theorem locate_xbuf (h : c.Legal) {j : Nat} (hj : j < c.xcap) : locate c (c.addrMap.xbuf + j) = some (.xbuf, j) := by
  have h0 := mapOrder h
  simp only [locate, inSpan_iff]
  rw [if_neg (by omega), if_neg (by omega), if_neg (by omega), if_pos (by omega), Nat.add_sub_cancel_left]

theorem locate_ptPulse (h : c.Legal) {n j : Nat} (hn : n < c.maxp) (hj : j < 4) :
    locate c (c.addrMap.ptPulse + 4 * n + j) = some (.ptPulse, n) := by
  have h0 := mapOrder h
  simp only [locate, inSpan_iff]
  rw [if_neg (by omega), if_neg (by omega), if_neg (by omega), if_neg (by omega), if_pos (by omega),
    show (c.addrMap.ptPulse + 4 * n + j - c.addrMap.ptPulse) / 4 = n by omega]

theorem locate_ptGap (h : c.Legal) {n j : Nat} (hn : n < c.maxp) (hj : j < 4) :
    locate c (c.addrMap.ptGap + 4 * n + j) = some (.ptGap, n) := by
  have h0 := mapOrder h
  simp only [locate, inSpan_iff]
  rw [if_neg (by omega), if_neg (by omega), if_neg (by omega), if_neg (by omega), if_neg (by omega), if_pos (by omega),
    show (c.addrMap.ptGap + 4 * n + j - c.addrMap.ptGap) / 4 = n by omega]

/-- Outside the five windows of a buffer its map leads nowhere. -/
theorem locateBuffer_none {b : Buf} {a : Nat} (h : ∀ e ∈ [((bufferWindows c b).mem, c.rows * c.cols),
    ((bufferWindows c b).bits, 4 * c.rows), ((bufferWindows c b).syncs, 4 * c.rows), ((bufferWindows c b).numRows, 4),
    ((bufferWindows c b).freeRow, 4)], ¬(e.1 ≤ a ∧ a < e.1 + e.2)) : locateBuffer c b a = none := by
  simp only [List.forall_mem_cons] at h
  obtain ⟨h1, h2, h3, h4, h5, -⟩ := h
  simp only [locateBuffer, inSpan_iff]
  rw [if_neg (by omega), if_neg (by omega), if_neg (by omega), if_neg (by omega), if_neg (by omega)]

/-- Behind the windows of PT the map is that of the buffer whose windows hold the address. -/
theorem locate_buffer (h : c.Legal) {b : Buf} {a : Nat} {x : Space × Nat} (h1 : (bufferWindows c b).mem ≤ a)
    (h2 : a < (bufferWindows c b).freeRow + 4) (hx : locateBuffer c b a = some x) : locate c a = some x := by
  have h0 := mapOrder h
  have h3 := bufferOrder h b
  simp only [locate, inSpan_iff]
  rw [if_neg (by omega), if_neg (by omega), if_neg (by omega), if_neg (by omega), if_neg (by omega), if_neg (by omega)]
  cases b
  · rw [hx]
  · have h4 := bufferOrder h .b0
    rw [locateBuffer_none (b := .b0), hx]
    simp only [bufferWindows] at h1 h4 ⊢
    simp only [List.forall_mem_cons]
    exact ⟨by omega, by omega, by omega, by omega, by omega, by simp⟩

theorem locate_mem (h : c.Legal) (b : Buf) {a : Nat} (ha : a < c.rows * c.cols) :
    locate c ((bufferWindows c b).mem + a) = some (.mem b, a) := by
  have h3 := bufferOrder h b
  refine locate_buffer h (b := b) (by omega) (by omega) ?_
  simp only [locateBuffer, inSpan_iff]
  rw [if_pos (by omega), Nat.add_sub_cancel_left]

theorem locate_bits (h : c.Legal) (b : Buf) {r j : Nat} (hr : r < c.rows) (hj : j < 4) :
    locate c ((bufferWindows c b).bits + 4 * r + j) = some (.bits b, r) := by
  have h3 := bufferOrder h b
  refine locate_buffer h (b := b) (by omega) (by omega) ?_
  simp only [locateBuffer, inSpan_iff]
  rw [if_neg (by omega), if_pos (by omega),
    show ((bufferWindows c b).bits + 4 * r + j - (bufferWindows c b).bits) / 4 = r by omega]

theorem locate_syncs (h : c.Legal) (b : Buf) {r j : Nat} (hr : r < c.rows) (hj : j < 4) :
    locate c ((bufferWindows c b).syncs + 4 * r + j) = some (.syncs b, r) := by
  have h3 := bufferOrder h b
  refine locate_buffer h (b := b) (by omega) (by omega) ?_
  simp only [locateBuffer, inSpan_iff]
  rw [if_neg (by omega), if_neg (by omega), if_pos (by omega),
    show ((bufferWindows c b).syncs + 4 * r + j - (bufferWindows c b).syncs) / 4 = r by omega]

theorem locate_numRows (h : c.Legal) (b : Buf) {j : Nat} (hj : j < 4) :
    locate c ((bufferWindows c b).numRows + j) = some (.numRows b, 0) := by
  have h3 := bufferOrder h b
  refine locate_buffer h (b := b) (by omega) (by omega) ?_
  simp only [locateBuffer, inSpan_iff]
  rw [if_neg (by omega), if_neg (by omega), if_neg (by omega), if_pos (by omega)]

theorem locate_freeRow (h : c.Legal) (b : Buf) {j : Nat} (hj : j < 4) :
    locate c ((bufferWindows c b).freeRow + j) = some (.freeRow b, 0) := by
  have h3 := bufferOrder h b
  refine locate_buffer h (b := b) (by omega) (by omega) ?_
  simp only [locateBuffer, inSpan_iff]
  rw [if_neg (by omega), if_neg (by omega), if_neg (by omega), if_neg (by omega), if_pos (by omega)]

/-- Outside REG and every window the map leads nowhere (R71). -/
theorem locate_none {a : Nat} (h0 : 0x100 ≤ a) (h : ∀ e ∈ busWindows c, ¬(e.1 ≤ a ∧ a < e.1 + e.2)) : locate c a = none := by
  simp only [busWindows, List.forall_mem_append] at h
  obtain ⟨⟨h1, h2⟩, h3⟩ := h
  simp only [List.forall_mem_cons] at h1
  obtain ⟨h4, h5, h6, h7, h8, -⟩ := h1
  simp only [locate, inSpan_iff]
  rw [if_neg (by omega), if_neg (by omega), if_neg (by omega), if_neg (by omega), if_neg (by omega), if_neg (by omega),
    locateBuffer_none (b := .b0) h2, locateBuffer_none (b := .b1) h3]

/-! ### What a read returns (R50, R66, R73) -/

/-- The word of an element of 32 bits or less is the element, zero-extended (R73). -/
theorem extractLsb'_setWidth (v : Word) : (v.setWidth 64).extractLsb' 0 32 = v := by
  apply BitVec.eq_of_getLsbD_eq
  intro i hi
  simp only [BitVec.getLsbD_extractLsb', BitVec.getLsbD_setWidth, Nat.zero_add]
  simp [hi, show i < 64 by omega]

theorem extractLsb'_toNat_of_lt {w : Nat} (v : BitVec w) (hw : w ≤ 32) :
    ((v.setWidth 64).extractLsb' 0 32).toNat = v.toNat := by
  have h1 := v.isLt
  have h2 : 2 ^ w ≤ 2 ^ 32 := Nat.pow_le_pow_right (by omega) hw
  simp
  omega

/-- The two words of a LAT element make up the element (R66). -/
theorem append_extractLsb' (x : BitVec 64) : (x.extractLsb' 32 32 ++ x.extractLsb' 0 32 : BitVec 64) = x := by
  apply BitVec.eq_of_getLsbD_eq
  intro i hi
  simp only [BitVec.getLsbD_append, BitVec.getLsbD_extractLsb', Nat.zero_add]
  by_cases h : i < 32
  · simp [h]
  · simp [h, show 32 + (i - 32) = i by omega, show i - 32 < 32 by omega]

theorem busRead_reg {a : Nat} (h : a < 0x100) : busRead s a = regRead s (a / 4 * 4) := by
  simp only [busRead, locate_reg h, memRead, extractLsb'_setWidth]

/-- From offset 0x068 on REG holds STAT_FAIL and nothing else (R50). -/
theorem regRead_statFail {off : Nat} (h : 0x068 ≤ off) : regRead s off =
    if 0x080 ≤ off ∧ off < 0x080 + 4 * s.cfg.nfail ∧ off % 4 = 0 then s.statFail.read ((off - 0x080) / 4) else 0 := by
  unfold regRead
  split <;> first | omega | rfl

/-- Between ORIGIN and MOD_KIND no register is listed (R50). -/
theorem regRead_gap {off : Nat} (h : 0x02C ≤ off) (h' : off < 0x040) : regRead s off = 0 := by
  unfold regRead
  split <;> first | omega | exact if_neg (by omega)

/-- LAT[k] is the value of R48 as a 64-bit two's-complement pattern (log 19). -/
theorem latRead_eq (l : Latches) {k : Nat} (hk : k < 23) : latRead l k = BitVec.ofInt 64 ((latValues l).getD k 0) := by
  have hb : ∀ u : Bound, u.code = BitVec.ofInt 64 u.value := fun u => by cases u <;> rfl
  interval_cases k <;> simp only [latRead, latValues, hb, List.getD_cons_zero, List.getD_cons_succ, BitVec.ofInt_natCast]
  · cases l.nrz <;> rfl
  · exact BitVec.eq_of_toNat_eq (by simp)
  · cases l.kind <;> rfl

/-! ### One access (R70, R76) -/

/-- At rest the block accepts a write; other than to CMD it is complete in the same step. -/
theorem step_write {a : Nat} {v : Word} {rest : List Access} (hs : s.AtRest) (hp : s.pending = .write a v :: rest)
    (ha : 4 ≤ a) : step s = .next (busWrite (takeAccess rest s) a v) := by
  have h1 : isCmdAddr a = false := by simp [isCmdAddr]; omega
  unfold step acceptNext
  rw [hp]
  rcases hs with h | h | h <;> simp [h, h1]

/-- At rest the block accepts a read; nothing but the word it returns is kept. -/
theorem step_read {a : Nat} {rest : List Access} (hs : s.AtRest) (hp : s.pending = .read a :: rest) :
    step s = .next { takeAccess rest s with rdata := busRead s a } := by
  unfold step acceptNext
  rw [hp]
  rcases hs with h | h | h <;> simp [h]

theorem State.AcceptsBuffer.atRest (h : s.AcceptsBuffer) : s.AtRest := h.elim Or.inl (fun h => Or.inr (Or.inl h))

/-- In IDLE and DISPATCH a write reaches the element its address names (R70, R72). -/
theorem step_writeElement {a : Nat} {v : Word} {rest : List Access} {sp : Space} {i : Nat} (hs : s.AcceptsBuffer)
    (hp : s.pending = .write a v :: rest) (ha : 4 ≤ a) (hl : locate s.cfg a = some (sp, i)) :
    step s = .next (writeElement (takeAccess rest s) sp i v) := by
  have h1 : (takeAccess rest s).phase ≠ .fatal := by
    have h2 : (takeAccess rest s).phase = s.phase := rfl
    rw [h2]; rcases hs with h | h <;> simp [h]
  have h2 : (takeAccess rest s).cfg = s.cfg := rfl
  rw [step_write hs.atRest hp ha, busWrite, h2, hl]
  simp only [memWrite, if_neg h1]

/-- A write to an address that names nothing changes nothing (R71). -/
theorem step_writeNowhere {a : Nat} {v : Word} {rest : List Access} (hs : s.AtRest) (hp : s.pending = .write a v :: rest)
    (ha : 4 ≤ a) (hl : locate s.cfg a = none) : step s = .next (takeAccess rest s) := by
  have h2 : (takeAccess rest s).cfg = s.cfg := rfl
  rw [step_write hs hp ha, busWrite, h2, hl]

end Sys2Proof.Machine
end

