-- ==== Sys2Proof/Laws/Ops.lean ====
section
/-! SUPPORT. One lemma for each shared operation of Machine/Ops.lean that says once what it does. -/

namespace Sys2Proof.Machine

/-! ### Counted loops and searches -/

@[simp] theorem upTo_zero {α : Type} (f : Nat → α → α) (x : α) : upTo 0 f x = x := rfl

theorem upTo_succ {α : Type} (n : Nat) (f : Nat → α → α) (x : α) : upTo (n + 1) f x = f n (upTo n f x) := rfl

/-- The induction of a counted loop, once: what holds before it and is kept by round `i < n` holds after it. -/
theorem upTo_induction {α : Type} {motive : Nat → α → Prop} {n : Nat} {f : Nat → α → α} {x : α} (h0 : motive 0 x)
    (hs : ∀ i y, i < n → motive i y → motive (i + 1) (f i y)) : motive n (upTo n f x) := by
  induction n with
  | zero => exact h0
  | succ n ih => exact hs n _ (Nat.lt_succ_self n) (ih fun i y hi => hs i y (Nat.lt_succ_of_lt hi))

theorem allBelow_iff (n : Nat) (p : Nat → Bool) : allBelow n p = true ↔ ∀ i, i < n → p i = true := by
  induction n with
  | zero => simp [allBelow]
  | succ n ih =>
    have : allBelow (n + 1) p = (allBelow n p && p n) := rfl
    rw [this, Bool.and_eq_true, ih]
    constructor
    · rintro ⟨h1, h2⟩ i hi
      rcases Nat.lt_succ_iff_lt_or_eq.1 hi with h | rfl
      · exact h1 i h
      · exact h2
    · exact fun h => ⟨fun i hi => h i (Nat.lt_succ_of_lt hi), h n (Nat.lt_succ_self n)⟩

theorem countBelow_succ (n : Nat) (p : Nat → Bool) :
    countBelow (n + 1) p = countBelow n p + (if p n then 1 else 0) := by
  have : countBelow (n + 1) p = if p n then countBelow n p + 1 else countBelow n p := rfl
  rw [this]; split <;> rfl

/-- A count of indices is the size of the set counted. -/
theorem countBelow_eq_card (n : Nat) (p : Nat → Bool) : countBelow n p = ((List.range n).filter p).length := by
  induction n with
  | zero => rfl
  | succ n ih => rw [countBelow_succ, List.range_succ, List.filter_append, List.length_append, ih]; cases h : p n <;> simp [h]

theorem countBelow_le (n : Nat) (p : Nat → Bool) : countBelow n p ≤ n := by
  rw [countBelow_eq_card]; exact (List.length_filter_le _ _).trans (by simp)

/-- A search that answers gives the least index from its start on. -/
theorem leastFrom_eq_some {p : Nat → Bool} {start count r : Nat} (h : leastFrom p start count = some r) :
    start ≤ r ∧ r < start + count ∧ p r = true ∧ ∀ i, start ≤ i → i < r → p i = false := by
  induction count generalizing start with
  | zero => simp [leastFrom] at h
  | succ n ih =>
    simp only [leastFrom] at h
    split at h
    · simp only [Option.some.injEq] at h
      subst h
      exact ⟨le_refl _, by omega, ‹_›, fun i h1 h2 => by omega⟩
    · obtain ⟨h1, h2, h3, h4⟩ := ih h
      refine ⟨by omega, by omega, h3, fun i hi hr => ?_⟩
      rcases Nat.eq_or_lt_of_le hi with rfl | hi
      · simpa using ‹¬p start = true›
      · exact h4 i hi hr

/-- A search that does not answer finds no index in its range. -/
theorem leastFrom_eq_none {p : Nat → Bool} {start count : Nat} :
    leastFrom p start count = none ↔ ∀ i, start ≤ i → i < start + count → p i = false := by
  induction count generalizing start with
  | zero => simp [leastFrom]; omega
  | succ n ih =>
    simp only [leastFrom]
    split
    · rename_i hp
      simp only [reduceCtorEq, false_iff, not_forall]
      exact ⟨start, le_refl _, by omega, by simp [hp]⟩
    · rename_i hp
      rw [ih]
      refine ⟨fun h i h1 h2 => ?_, fun h i h1 h2 => h i (by omega) (by omega)⟩
      rcases Nat.eq_or_lt_of_le h1 with rfl | h1
      · simpa using hp
      · exact h i h1 (by omega)

/-! ### Arithmetic primitives -/

/-- `dist` is the absolute value of the difference (R12). -/
theorem dist_eq_natAbs (a b : Nat) : dist a b = ((a : Int) - b).natAbs := by simp only [dist]; omega

theorem dist_le_iff (a b t : Nat) : dist a b ≤ t ↔ a ≤ b + t ∧ b ≤ a + t := by simp only [dist]; omega

@[simp] theorem sat32_toNat (v : Nat) : (sat32 v).toNat = min v (2 ^ 32 - 1) := by
  simp only [sat32, BitVec.toNat_ofNat]; omega

theorem inWindow_inf (l : Int) (w : Nat) : inWindow l .inf w = decide (l < (w : Int)) := by simp [inWindow]

theorem inWindow_fin (l u : Int) (w : Nat) : inWindow l (.fin u) w = decide (l < (w : Int) ∧ (w : Int) < u) := by
  simp [inWindow, Bool.decide_and]

theorem resultWord_of_lt {n : Nat} (h : n < 2 ^ 32) : resultWord n = BitVec.ofNat 32 n := if_pos h

/-! ### Admission of a command -/

theorem command_executes {cls : CommandClass} {ok : Bool} {effect : State → State} {s : State}
    (h : verdictOn s.phase cls = .executes) (hok : ok = true) : command cls ok effect s = .next (effect s) := by
  simp [command, h, hok]

theorem command_operand_refused {cls : CommandClass} {effect : State → State} {s : State}
    (h : verdictOn s.phase cls = .executes) : command cls false effect s = .next (s.refuse .eBadCmd) := by
  simp [command, h]

theorem command_badState {cls : CommandClass} {ok : Bool} {effect : State → State} {s : State}
    (h : verdictOn s.phase cls = .badState) : command cls ok effect s = .next (s.refuse .eBadState) := by
  simp [command, h]

theorem command_fatal {cls : CommandClass} {ok : Bool} {effect : State → State} {s : State}
    (h : s.phase = .fatal) : command cls ok effect s = .next s := by
  simp [command, h, verdictOn]

/-- Everything a command can do, once: its effect, one of the two refusals, or nothing. -/
theorem command_cases (cls : CommandClass) (ok : Bool) (effect : State → State) (s : State) :
    (verdictOn s.phase cls = .executes ∧ ok = true ∧ command cls ok effect s = .next (effect s)) ∨
    (verdictOn s.phase cls = .executes ∧ ok = false ∧ command cls ok effect s = .next (s.refuse .eBadCmd)) ∨
    (verdictOn s.phase cls = .badState ∧ command cls ok effect s = .next (s.refuse .eBadState)) ∨
    ((verdictOn s.phase cls = .ignored ∨ verdictOn s.phase cls = .heldOff) ∧ command cls ok effect s = .next s) := by
  unfold command
  cases verdictOn s.phase cls <;> cases ok <;> simp

theorem verdict_buffer {p : Phase} (h : p = .idle ∨ p = .dispatch) : verdictOn p .buffer = .executes := by
  rcases h with rfl | rfl <;> rfl

/-! ### Flags -/

theorem raiseIf_true (f : Flag) (v : Word) : raiseIf true f v = raiseIn f v := rfl
theorem raiseIf_false (f : Flag) (v : Word) : raiseIf false f v = v := rfl

/-- Raising a flag sets that bit and leaves the others (R14). -/
theorem raiseIn_getLsbD (f : Flag) (v : Word) (i : Nat) :
    (raiseIn f v).getLsbD i = (v.getLsbD i || decide (i = f.pos)) := by
  have key : f.mask.getLsbD i = decide (i = f.pos) := by
    have hp : f.pos < 32 := by cases f <;> decide
    simp only [Flag.mask, BitVec.getLsbD_shiftLeft, BitVec.getLsbD_one]
    by_cases h : i = f.pos
    · subst h; simp [hp]
    · simp only [h, decide_false]
      by_cases h1 : i < f.pos
      · simp [h1]
      · have : i - f.pos ≠ 0 := by omega
        simp [this]
  simp [raiseIn, key]

theorem raiseIn_idem (f : Flag) (v : Word) : raiseIn f (raiseIn f v) = raiseIn f v := by
  simp [raiseIn, BitVec.or_assoc]

/-! ### Dispatch, the end of a run, and the moves of CURSOR, field by field -/

@[simp] theorem dispatch_cfg (o : Origin) (s : State) : (dispatch o s).cfg = s.cfg := rfl
@[simp] theorem dispatch_bb0 (o : Origin) (s : State) : (dispatch o s).bb0 = s.bb0 := rfl
@[simp] theorem dispatch_bb1 (o : Origin) (s : State) : (dispatch o s).bb1 = s.bb1 := rfl
@[simp] theorem dispatch_pt (o : Origin) (s : State) : (dispatch o s).pt = s.pt := rfl
@[simp] theorem dispatch_spec (o : Origin) (s : State) : (dispatch o s).spec = s.spec := rfl
@[simp] theorem dispatch_arg0 (o : Origin) (s : State) : (dispatch o s).arg0 = s.arg0 := rfl
@[simp] theorem dispatch_arg1 (o : Origin) (s : State) : (dispatch o s).arg1 = s.arg1 := rfl
@[simp] theorem dispatch_res0 (o : Origin) (s : State) : (dispatch o s).res0 = s.res0 := rfl
@[simp] theorem dispatch_res1 (o : Origin) (s : State) : (dispatch o s).res1 = s.res1 := rfl
@[simp] theorem dispatch_pat (o : Origin) (s : State) : (dispatch o s).pat = s.pat := rfl
@[simp] theorem dispatch_xbuf (o : Origin) (s : State) : (dispatch o s).xbuf = s.xbuf := rfl
@[simp] theorem dispatch_flags (o : Origin) (s : State) : (dispatch o s).flags = raiseIf (s.dispatches.toNat + 1 > 2 ^ 32 - 1) .wCntSat s.flags := rfl
@[simp] theorem dispatch_phase (o : Origin) (s : State) : (dispatch o s).phase = .dispatch := rfl
@[simp] theorem dispatch_cursor (o : Origin) (s : State) : (dispatch o s).cursor = s.cursor := rfl
@[simp] theorem dispatch_events (o : Origin) (s : State) : (dispatch o s).events = s.events := rfl
@[simp] theorem dispatch_dispatches (o : Origin) (s : State) : (dispatch o s).dispatches = sat32 (s.dispatches.toNat + 1) := rfl
@[simp] theorem dispatch_statFail (o : Origin) (s : State) : (dispatch o s).statFail = s.statFail := rfl
@[simp] theorem dispatch_origin (o : Origin) (s : State) : (dispatch o s).origin = o := rfl
@[simp] theorem dispatch_lat (o : Origin) (s : State) : (dispatch o s).lat = s.lat := rfl
@[simp] theorem dispatch_pending (o : Origin) (s : State) : (dispatch o s).pending = s.pending := rfl
@[simp] theorem dispatch_rdata (o : Origin) (s : State) : (dispatch o s).rdata = s.rdata := rfl
@[simp] theorem dispatch_done (o : Origin) (s : State) : (dispatch o s).done = s.done := rfl

@[simp] theorem endRun_cfg (s : State) : (endRun s).cfg = s.cfg := rfl
@[simp] theorem endRun_bb0 (s : State) : (endRun s).bb0 = s.bb0 := rfl
@[simp] theorem endRun_bb1 (s : State) : (endRun s).bb1 = s.bb1 := rfl
@[simp] theorem endRun_pt (s : State) : (endRun s).pt = s.pt := rfl
@[simp] theorem endRun_spec (s : State) : (endRun s).spec = s.spec := rfl
@[simp] theorem endRun_arg0 (s : State) : (endRun s).arg0 = s.arg0 := rfl
@[simp] theorem endRun_arg1 (s : State) : (endRun s).arg1 = s.arg1 := rfl
@[simp] theorem endRun_res0 (s : State) : (endRun s).res0 = s.res0 := rfl
@[simp] theorem endRun_res1 (s : State) : (endRun s).res1 = s.res1 := rfl
@[simp] theorem endRun_pat (s : State) : (endRun s).pat = s.pat := rfl
@[simp] theorem endRun_xbuf (s : State) : (endRun s).xbuf = s.xbuf := rfl
@[simp] theorem endRun_flags (s : State) : (endRun s).flags = s.flags := rfl
@[simp] theorem endRun_phase (s : State) : (endRun s).phase = .idle := rfl
@[simp] theorem endRun_cursor (s : State) : (endRun s).cursor = s.cursor := rfl
@[simp] theorem endRun_events (s : State) : (endRun s).events = s.events := rfl
@[simp] theorem endRun_dispatches (s : State) : (endRun s).dispatches = s.dispatches := rfl
@[simp] theorem endRun_statFail (s : State) : (endRun s).statFail = s.statFail := rfl
@[simp] theorem endRun_origin (s : State) : (endRun s).origin = s.origin := rfl
@[simp] theorem endRun_lat (s : State) : (endRun s).lat = s.lat := rfl
@[simp] theorem endRun_pending (s : State) : (endRun s).pending = s.pending := rfl
@[simp] theorem endRun_rdata (s : State) : (endRun s).rdata = s.rdata := rfl
@[simp] theorem endRun_done (s : State) : (endRun s).done = true := rfl

@[simp] theorem raiseFatal_cfg (v : Word) (s : State) : (raiseFatal v s).cfg = s.cfg := rfl
@[simp] theorem raiseFatal_bb0 (v : Word) (s : State) : (raiseFatal v s).bb0 = s.bb0 := rfl
@[simp] theorem raiseFatal_bb1 (v : Word) (s : State) : (raiseFatal v s).bb1 = s.bb1 := rfl
@[simp] theorem raiseFatal_pt (v : Word) (s : State) : (raiseFatal v s).pt = s.pt := rfl
@[simp] theorem raiseFatal_spec (v : Word) (s : State) : (raiseFatal v s).spec = s.spec := rfl
@[simp] theorem raiseFatal_arg0 (v : Word) (s : State) : (raiseFatal v s).arg0 = s.arg0 := rfl
@[simp] theorem raiseFatal_arg1 (v : Word) (s : State) : (raiseFatal v s).arg1 = s.arg1 := rfl
@[simp] theorem raiseFatal_res0 (v : Word) (s : State) : (raiseFatal v s).res0 = v := rfl
@[simp] theorem raiseFatal_res1 (v : Word) (s : State) : (raiseFatal v s).res1 = s.res1 := rfl
@[simp] theorem raiseFatal_pat (v : Word) (s : State) : (raiseFatal v s).pat = s.pat := rfl
@[simp] theorem raiseFatal_xbuf (v : Word) (s : State) : (raiseFatal v s).xbuf = s.xbuf := rfl
@[simp] theorem raiseFatal_flags (v : Word) (s : State) : (raiseFatal v s).flags = raiseIn .fFatal s.flags := rfl
@[simp] theorem raiseFatal_phase (v : Word) (s : State) : (raiseFatal v s).phase = .fatal := rfl
@[simp] theorem raiseFatal_cursor (v : Word) (s : State) : (raiseFatal v s).cursor = s.cursor := rfl
@[simp] theorem raiseFatal_events (v : Word) (s : State) : (raiseFatal v s).events = s.events := rfl
@[simp] theorem raiseFatal_dispatches (v : Word) (s : State) : (raiseFatal v s).dispatches = s.dispatches := rfl
@[simp] theorem raiseFatal_statFail (v : Word) (s : State) : (raiseFatal v s).statFail = s.statFail := rfl
@[simp] theorem raiseFatal_origin (v : Word) (s : State) : (raiseFatal v s).origin = s.origin := rfl
@[simp] theorem raiseFatal_lat (v : Word) (s : State) : (raiseFatal v s).lat = s.lat := rfl
@[simp] theorem raiseFatal_pending (v : Word) (s : State) : (raiseFatal v s).pending = s.pending := rfl
@[simp] theorem raiseFatal_rdata (v : Word) (s : State) : (raiseFatal v s).rdata = s.rdata := rfl
@[simp] theorem raiseFatal_done (v : Word) (s : State) : (raiseFatal v s).done = s.done := rfl

end Sys2Proof.Machine
end

