-- ==== Sys2Proof/Laws/Rows.lean ====
section
/-! SUPPORT. The row operations: what reading a bit after writing one gives, that every row operation keeps R26, and what the
repeated ADD_BIT and the transforms do as a whole. -/

namespace Sys2Proof.Machine

variable {c : Params} {x : BitBuffer}

/-! ### Bits of bytes and of rows -/

theorem replaceBit_getLsbD (y : Byte) {k j : Nat} (v : Bool) (hk : k < 8) (hj : j < 8) :
    (replaceBit y k v).getLsbD j = if j = k then v else y.getLsbD j := by
  simp only [replaceBit, BitVec.getLsbD_or, BitVec.getLsbD_and, BitVec.getLsbD_not, BitVec.getLsbD_shiftLeft,
    BitVec.getLsbD_one, hj, decide_true, Bool.true_and]
  by_cases h : j = k
  · subst h; cases v <;> simp
  · by_cases h1 : j < k
    · cases v <;> simp [h, h1]
    · have h2 : j - k ≠ 0 := by omega
      cases v <;> simp [h, h2, BitVec.getLsbD_one]

@[simp] theorem setbit_len (r i : Nat) (v : Bool) (q : Nat) : (x.setbit c r i v).len q = x.len q := rfl
@[simp] theorem setbit_numRows (r i : Nat) (v : Bool) : (x.setbit c r i v).numRows = x.numRows := rfl
@[simp] theorem setbit_freeRow (r i : Nat) (v : Bool) : (x.setbit c r i v).freeRow = x.freeRow := rfl
@[simp] theorem setbit_bitsPerRow (r i : Nat) (v : Bool) : (x.setbit c r i v).bitsPerRow = x.bitsPerRow := rfl
@[simp] theorem setbit_syncs (r i : Nat) (v : Bool) : (x.setbit c r i v).syncsBeforeRow = x.syncsBeforeRow := rfl
@[simp] theorem setbit_cur (r i : Nat) (v : Bool) : (x.setbit c r i v).cur = x.cur := rfl
@[simp] theorem setbit_extent (r i : Nat) (v : Bool) (q : Nat) : (x.setbit c r i v).extent c q = x.extent c q := rfl

/-- `setbit` replaces one bit of the storage and leaves every other bit alone (R64). -/
theorem setbit_storage (hm : x.mem.wf) (r i : Nat) (v : Bool) {a k : Nat} (hk : k < 8) :
    ((x.setbit c r i v).mem.read a).getLsbD k =
      if a = bitAddr c r i ∧ k = 7 - i % 8 then v else (x.mem.read a).getLsbD k := by
  simp only [BitBuffer.setbit]
  rw [Memory.read_write hm]
  by_cases ha : a = bitAddr c r i
  · subst ha
    rw [if_pos rfl, replaceBit_getLsbD _ _ (by omega) hk]
    simp
  · rw [if_neg ha, if_neg (fun h => ha h.1)]

/-- Every byte but the one addressed is left alone (R64). -/
theorem setbit_other_byte (r i : Nat) (v : Bool) {a : Nat} (h : a ≠ bitAddr c r i) :
    (x.setbit c r i v).mem.read a = x.mem.read a := Memory.read_write_other _ _ h

/-! ### Slots -/

theorem slotBits_pos (hc : c.Legal) : 0 < c.slotBits := by
  have := hc.2.2.1
  simp only [Params.slotBits]; omega

theorem extent_pos (r : Nat) : 1 ≤ x.extent c r := le_max_left _ _

theorem extent_of_len_zero (hc : c.Legal) {r : Nat} (h : x.len r = 0) : x.extent c r = 1 := by
  have := slotBits_pos hc
  simp only [BitBuffer.extent, h, Nat.zero_add]
  rw [Nat.div_eq_of_lt (by omega)]
  rfl

/-- A row's bits lie inside the slots it takes (R26 I2, I5). -/
theorem bitAddr_lt_extent (hc : c.Legal) {r i : Nat} (h : i < x.len r) :
    bitAddr c r i < (r + x.extent c r) * c.cols := by
  have hS := slotBits_pos hc
  have h1 : x.len r ≤ x.extent c r * c.slotBits := by
    have h2 : (x.len r + c.slotBits - 1) / c.slotBits ≤ x.extent c r := le_max_right _ _
    have h3 := Nat.div_add_mod (x.len r + c.slotBits - 1) c.slotBits
    have h4 := Nat.mod_lt (x.len r + c.slotBits - 1) hS
    have h5 : c.slotBits * ((x.len r + c.slotBits - 1) / c.slotBits) ≤ c.slotBits * x.extent c r :=
      Nat.mul_le_mul_left _ h2
    rw [Nat.mul_comm (x.extent c r)]
    omega
  have h6 : x.extent c r * c.slotBits = 8 * (x.extent c r * c.cols) := by
    simp only [Params.slotBits]; ring
  rw [Nat.add_mul]
  simp only [bitAddr]
  omega

/-- The extent after one more bit (R26 I2 against the slot test of R121). -/
theorem extent_step {s nb : Nat} (hs : 0 < s) :
    max 1 ((nb + 1 + s - 1) / s) = max 1 ((nb + s - 1) / s) + (if 0 < nb ∧ nb % s = 0 then 1 else 0) := by
  rcases Nat.eq_zero_or_pos nb with rfl | hnb
  · have h1 : (0 + 1 + s - 1) / s = 1 := by rw [show 0 + 1 + s - 1 = s by omega]; exact Nat.div_self hs
    have h2 : (0 + s - 1) / s = 0 := Nat.div_eq_of_lt (by omega)
    rw [h1, h2]
    simp
  · have h1 : (nb + 1 + s - 1) / s = nb / s + 1 := by
      rw [show nb + 1 + s - 1 = nb + s by omega, Nat.add_div_right _ hs]
    have hq := Nat.div_add_mod nb s
    have hlt := Nat.mod_lt nb hs
    by_cases hz : nb % s = 0
    · have hpos : 0 < nb / s := by
        rcases Nat.eq_zero_or_pos (nb / s) with h | h
        · rw [h] at hq; simp at hq; omega
        · exact h
      have h2 : (nb + s - 1) / s = nb / s := by
        have h3 : nb + s - 1 = s * (nb / s) + (s - 1) := by omega
        rw [h3, Nat.mul_add_div hs, Nat.div_eq_of_lt (by omega : s - 1 < s)]
        omega
      rw [h1, h2, if_pos ⟨hnb, hz⟩]
      omega
    · have h2 : (nb + s - 1) / s = nb / s + 1 := by
        have h4 : s * (nb / s + 1) = s * (nb / s) + s := by ring
        have h5 : 0 < nb % s := Nat.pos_of_ne_zero hz
        have h3 : nb + s - 1 = s * (nb / s + 1) + (nb % s - 1) := by omega
        have h6 : (nb % s - 1) / s = 0 := Nat.div_eq_of_lt (by omega)
        rw [h3, Nat.mul_add_div hs, h6]
      rw [h1, h2, if_neg (fun h => hz h.2)]
      rfl

/-! ### AUTOCREATE -/

theorem autocreate_numRows_pos : 0 < x.autocreate.numRows := by
  simp only [BitBuffer.autocreate]
  split
  · exact Nat.one_pos
  · omega

theorem autocreate_of_pos (h : 0 < x.numRows) : x.autocreate = x := by
  simp [BitBuffer.autocreate, Nat.pos_iff_ne_zero.1 h]

@[simp] theorem autocreate_autocreate : x.autocreate.autocreate = x.autocreate :=
  autocreate_of_pos autocreate_numRows_pos

@[simp] theorem autocreate_len (r : Nat) : x.autocreate.len r = x.len r := by
  simp only [BitBuffer.autocreate]; split <;> rfl

@[simp] theorem autocreate_mem : x.autocreate.mem = x.mem := by simp only [BitBuffer.autocreate]; split <;> rfl
@[simp] theorem autocreate_bits : x.autocreate.bitsPerRow = x.bitsPerRow := by
  simp only [BitBuffer.autocreate]; split <;> rfl
@[simp] theorem autocreate_syncs : x.autocreate.syncsBeforeRow = x.syncsBeforeRow := by
  simp only [BitBuffer.autocreate]; split <;> rfl

theorem empty_good : BitBuffer.empty.Good c where
  cursors := ⟨le_refl _, Nat.zero_le _, Iff.rfl⟩
  free := fun h => absurd h (by simp [BitBuffer.empty])
  unused := fun _ _ => ⟨rfl, rfl⟩
  padding := fun a k _ h => by simp [BitBuffer.empty] at h
  disjoint := ⟨fun r hr => absurd hr (by simp [BitBuffer.empty]), fun r hr => absurd hr (by simp [BitBuffer.empty, BitBuffer.cur])⟩
  canonical := ⟨Memory.wf_nil, Memory.wf_nil, Memory.wf_nil⟩

/-- A row is no longer than its slots hold (R26 I2, I5). -/
theorem BitBuffer.len_le_extent (hc : c.Legal) (x : BitBuffer) (r : Nat) : x.len r ≤ x.extent c r * c.slotBits := by
  have hs : 0 < c.slotBits := by have := hc.2.2.1; simp only [Params.slotBits]; omega
  have h1 := Nat.div_add_mod (x.len r + c.slotBits - 1) c.slotBits
  have h2 := Nat.mod_lt (x.len r + c.slotBits - 1) hs
  have h3 : (x.len r + c.slotBits - 1) / c.slotBits * c.slotBits ≤ x.extent c r * c.slotBits :=
    Nat.mul_le_mul_right _ (Nat.le_max_right _ _)
  rw [Nat.mul_comm] at h1
  omega

/-- The range R22 gives the row lengths follows from the invariants of R26. -/
theorem BitBuffer.Good.lengthsInRange (hc : c.Legal) (h : x.Good c) : x.LengthsInRange c := by
  intro r
  have hle : x.len r ≤ (c.rows - r) * c.slotBits := by
    by_cases hr : r < x.numRows
    · refine (x.len_le_extent hc r).trans (Nat.mul_le_mul_right _ ?_)
      have hf := h.free (by omega)
      have hcur : x.cur = x.numRows - 1 := rfl
      have hrows := h.cursors.2.1
      rcases Nat.lt_or_ge r x.cur with h1 | h1
      · have := h.disjoint.2 r h1
        omega
      · obtain rfl : r = x.cur := by omega
        omega
    · rw [(h.unused r (by omega)).1]; exact Nat.zero_le _
  refine ⟨hle, ?_⟩
  have h1 : (c.rows - r) * c.slotBits ≤ c.rows * c.cols * 8 := by
    simp only [Params.slotBits]
    calc (c.rows - r) * (8 * c.cols) ≤ c.rows * (8 * c.cols) := Nat.mul_le_mul_right _ (Nat.sub_le _ _)
      _ = c.rows * c.cols * 8 := by ring
  have h2 : c.rows * c.cols * 8 + 1 ≤ 2 ^ c.bprw := Nat.le_pow_clog (by decide) _
  omega

/-- Every `bits_per_row` entry fits its BPRW bits (R8, R22). -/
theorem BitBuffer.Good.len_lt_two_pow_bprw (hc : c.Legal) (h : x.Good c) (r : Nat) : x.len r < 2 ^ c.bprw :=
  (h.lengthsInRange hc r).2

theorem autocreate_good (hc : c.Legal) (h : x.Good c) : x.autocreate.Good c := by
  by_cases hn : x.numRows = 0
  · have hlen : ∀ r, x.len r = 0 := fun r => (h.unused r (by omega)).1
    have hs : ∀ r, x.syncsBeforeRow.read r = 0 := fun r => (h.unused r (by omega)).2
    have he : x.autocreate = { x with numRows := 1, freeRow := 1 } := by simp [BitBuffer.autocreate, hn]
    rw [he]
    have hext : ∀ r, BitBuffer.extent c { x with numRows := 1, freeRow := 1 } r = 1 := fun r =>
      extent_of_len_zero hc (hlen r)
    refine ⟨⟨le_refl _, hc.1, by simp⟩, fun _ => ?_, fun r _ => ⟨hlen r, hs r⟩, fun a k hk hb => ?_, ⟨fun r hr r' h1 h2 => ?_, fun r hr => ?_⟩, h.canonical⟩
    · rw [hext]; rfl
    · obtain ⟨r, i, hr, _⟩ := h.padding a k hk hb
      omega
    · exact ⟨hlen r', hs r'⟩
    · simp [BitBuffer.cur] at hr
  · rw [autocreate_of_pos (by omega)]; exact h

/-! ### ADD_BIT -/

theorem appendBit_good (hc : c.Legal) (h : x.Good c) (hn : 0 < x.numRows) (v : Bool)
    (hd : ¬(x.startsSlot c = true ∧ x.freeRow = c.rows)) : (x.appendBit c v).Good c := by
  have hcur : x.cur + 1 = x.numRows := by simp only [BitBuffer.cur]; omega
  have hlen : ∀ r, (x.appendBit c v).len r = if r = x.cur then x.len x.cur + 1 else x.len r := by
    intro r
    simp only [BitBuffer.appendBit, BitBuffer.len]
    split <;> exact Memory.read_write h.canonical.2.1 _ _ _
  have hnr : (x.appendBit c v).numRows = x.numRows := by simp only [BitBuffer.appendBit]; split <;> rfl
  have hc' : (x.appendBit c v).cur = x.cur := by simp only [BitBuffer.cur, hnr]
  have hsy : (x.appendBit c v).syncsBeforeRow = x.syncsBeforeRow := by
    simp only [BitBuffer.appendBit]; split <;> rfl
  have hfr : (x.appendBit c v).freeRow = x.freeRow + (if x.startsSlot c then 1 else 0) := by
    simp only [BitBuffer.appendBit]; split <;> simp_all
  have hmem : (x.appendBit c v).mem = (x.setbit c x.cur (x.len x.cur) v).mem := by
    simp only [BitBuffer.appendBit]; split <;> rfl
  have hext : ∀ r, r ≠ x.cur → (x.appendBit c v).extent c r = x.extent c r := by
    intro r hr; simp only [BitBuffer.extent, hlen, if_neg hr]
  have hextc : (x.appendBit c v).extent c x.cur = x.extent c x.cur + (if x.startsSlot c then 1 else 0) := by
    simp only [BitBuffer.extent, hlen, if_true]
    rw [extent_step (slotBits_pos hc)]
    simp [BitBuffer.startsSlot]
  have hI1 := h.cursors
  have hI2 := h.free hn
  refine ⟨⟨?_, ?_, ?_⟩, fun _ => ?_, fun r hr => ?_, fun a k hk hb => ?_, ⟨fun r hr r' h1 h2 => ?_, fun r hr => ?_⟩, ?_⟩
  · rw [hnr, hfr]; have := hI1.1; omega
  · rw [hfr]
    have := hI1.2.1
    by_cases hs : x.startsSlot c = true
    · have : x.freeRow ≠ c.rows := fun e => hd ⟨hs, e⟩
      simp only [hs, if_true]; omega
    · simp only [hs, Bool.false_eq_true, if_false]; omega
  · rw [hnr, hfr]; have := hI1.1; omega
  · rw [hc', hfr, hextc, hI2]; omega
  · rw [hnr] at hr
    rw [hlen, if_neg (by omega), hsy]
    exact h.unused r hr
  · rw [hmem, setbit_storage h.canonical.1 _ _ _ hk] at hb
    split at hb
    · rename_i hak
      exact ⟨x.cur, x.len x.cur, by rw [hnr]; omega, by rw [hlen, if_pos rfl]; omega, hak.1, hak.2⟩
    · obtain ⟨r, i, h1, h2, h3, h4⟩ := h.padding a k hk hb
      refine ⟨r, i, by rw [hnr]; exact h1, ?_, h3, h4⟩
      rw [hlen]
      split
      · subst_vars; omega
      · exact h2
  · rw [hnr] at hr
    rw [hsy]
    by_cases hrc : r = x.cur
    · rw [hlen, if_neg (by omega)]
      exact h.unused r' (by omega)
    · rw [hext r hrc] at h2
      have hrc' : r < x.cur := by omega
      have := h.disjoint.2 r hrc'
      rw [hlen, if_neg (by omega)]
      exact h.disjoint.1 r hr r' h1 h2
  · rw [hc'] at hr ⊢
    rw [hext r (by omega)]
    exact h.disjoint.2 r hr
  · refine ⟨?_, ?_, ?_⟩
    · rw [hmem]; exact Memory.wf_write h.canonical.1 _ _
    · simp only [BitBuffer.appendBit]
      split <;> exact Memory.wf_write h.canonical.2.1 _ _
    · rw [hsy]; exact h.canonical.2.2

theorem addBit_good (hc : c.Legal) (h : x.Good c) (v : Bool) : (x.addBit c v).Good c := by
  simp only [BitBuffer.addBit]
  split
  · exact autocreate_good hc h
  · rename_i hd
    refine appendBit_good hc (autocreate_good hc h) autocreate_numRows_pos v fun hs => hd ?_
    simp [BitBuffer.dropsBit, hs.1, hs.2]

/-- Once a bit is dropped, so is the next, and the buffer stays as it is (R131 (e)). -/
theorem addBit_of_drops (h : x.dropsBit c = true) (v : Bool) :
    x.addBit c v = x.autocreate ∧ (x.addBit c v).dropsBit c = true := by
  have h1 : x.addBit c v = x.autocreate := by simp [BitBuffer.addBit, h]
  refine ⟨h1, ?_⟩
  rw [h1]
  simpa [BitBuffer.dropsBit] using h

theorem addBit_drops_fixed (h : x.dropsBit c = true) (v w : Bool) :
    (x.addBit c v).addBit c w = x.addBit c v := by
  obtain ⟨h1, h2⟩ := addBit_of_drops (c := c) h v
  rw [(addBit_of_drops h2 w).1, h1, autocreate_autocreate]

/-- `repeat n times: ADD_BIT(v)`, written out. -/
def repeatAddBit (c : Params) (v : Bool) : Nat → Logged → Logged
  | 0, p => p
  | n + 1, p => repeatAddBit c v n (p.addBit c v)

theorem repeatAddBit_of_fixed (v : Bool) {p : Logged} (h : p.addBit c v = p) (n : Nat) : repeatAddBit c v n p = p := by
  induction n with
  | zero => rfl
  | succ n ih => rw [repeatAddBit, h, ih]

/-- The repetition that stops at the first dropped bit is the whole repetition (R131 (e), R241; log 11). -/
theorem addBits_eq_repeat (v : Bool) (n : Nat) (p : Logged) : Logged.addBits c v n p = repeatAddBit c v n p := by
  induction n generalizing p with
  | zero => rfl
  | succ n ih =>
    simp only [Logged.addBits, repeatAddBit]
    split
    · rename_i hd
      refine (repeatAddBit_of_fixed v ?_ n).symm
      have h2 := (addBit_of_drops hd v).2
      simp only [Logged.addBit, Prod.mk.injEq]
      refine ⟨addBit_drops_fixed hd v v, ?_⟩
      simp only [hd, h2, raiseIf_true, raiseIn_idem]
    · exact ih _

/-! ### ADD_ROW and ADD_SYNC -/

/-- ADD_ROW starts with AUTOCREATE, so it may as well be given the buffer after it. -/
theorem addRow_autocreate : x.autocreate.addRow c = x.addRow c := by
  simp [BitBuffer.addRow, BitBuffer.rowOverflows]

theorem addRow_good_of_pos (hc : c.Legal) {y : BitBuffer} (hg : y.Good c) (hn : 0 < y.numRows) : (y.addRow c).Good c := by
  simp only [BitBuffer.addRow, BitBuffer.rowOverflows, autocreate_of_pos hn]
  have hcur : y.cur + 1 = y.numRows := by simp only [BitBuffer.cur]; omega
  have hI1 := hg.cursors
  have hI2 := hg.free hn
  have hep := extent_pos (c := c) (x := y) y.cur
  split
  · rename_i hov
    have hlen : ∀ r, Memory.read (y.bitsPerRow.write y.cur 0) r = if r = y.cur then 0 else y.len r :=
      fun r => Memory.read_write hg.canonical.2.1 _ _ _
    have hsy : ∀ r, Memory.read (y.syncsBeforeRow.write y.cur 0) r = if r = y.cur then 0 else y.syncsBeforeRow.read r :=
      fun r => Memory.read_write hg.canonical.2.2 _ _ _
    have hext : ∀ m q n f r, r ≠ y.cur → BitBuffer.extent c ⟨m, y.bitsPerRow.write y.cur 0, q, n, f⟩ r = y.extent c r := by
      intro m q n f r hrc
      simp only [BitBuffer.extent, BitBuffer.len, hlen, if_neg hrc]
    refine ⟨⟨?_, ?_, ?_⟩, fun _ => ?_, fun r hr => ?_, fun a k hk hb => ?_, ⟨fun r hr r' h1 h2 => ?_, fun r hr => ?_⟩, ?_⟩
    · simp only; omega
    · simp only; have := hI1.2.1; omega
    · simp only; omega
    · rw [extent_of_len_zero hc]
      · rfl
      · change Memory.read (y.bitsPerRow.write y.cur 0) y.cur = 0
        rw [hlen, if_pos rfl]
    · simp only at hr
      simp only [BitBuffer.len, hlen, hsy, if_neg (show r ≠ y.cur by omega)]
      exact hg.unused r hr
    · simp only [Memory.read_zeroRange] at hb
      split at hb
      · simp at hb
      · rename_i hrange
        obtain ⟨r, i, h1, h2, h3, h4⟩ := hg.padding a k hk hb
        refine ⟨r, i, h1, ?_, h3, h4⟩
        simp only [BitBuffer.len, hlen]
        split
        · subst_vars
          exfalso
          apply hrange
          have := bitAddr_lt_extent hc h2
          rw [← hI2] at this
          exact ⟨by simp only [bitAddr]; omega, this⟩
        · exact h2
    · simp only at hr
      by_cases hrc : r = y.cur
      · subst hrc
        rw [extent_of_len_zero hc (by simp [BitBuffer.len, hlen])] at h2
        omega
      · rw [hext _ _ _ _ _ hrc] at h2
        have := hg.disjoint.2 r (by omega)
        simp only [BitBuffer.len, hlen, hsy, if_neg (show r' ≠ y.cur by omega)]
        exact hg.disjoint.1 r hr r' h1 h2
    · have hr' : r < y.cur := hr
      rw [hext _ _ _ _ _ (show r ≠ y.cur by omega)]
      exact hg.disjoint.2 r hr'
    · exact ⟨Memory.wf_zeroRange hg.canonical.1 _ _, Memory.wf_write hg.canonical.2.1 _ _,
        Memory.wf_write hg.canonical.2.2 _ _⟩
  · rename_i hov
    simp only [decide_eq_true_eq, not_le] at hov
    have he : ∀ r, BitBuffer.extent c { y with numRows := y.freeRow + 1, freeRow := y.freeRow + 1 } r = y.extent c r :=
      fun _ => rfl
    refine ⟨⟨le_refl _, hov, by simp⟩, fun _ => ?_, fun r hr => ?_, fun a k hk hb => ?_, ⟨fun r hr r' h1 h2 => ?_, fun r hr => ?_⟩, hg.canonical⟩
    · change y.freeRow + 1 = y.freeRow + 1 - 1 + y.extent c (y.freeRow + 1 - 1)
      rw [Nat.add_sub_cancel, extent_of_len_zero hc (hg.unused _ hI1.1).1]
    · exact hg.unused r (by simp only at hr; omega)
    · obtain ⟨r, i, h1, h2, h3, h4⟩ := hg.padding a k hk hb
      exact ⟨r, i, by simp only; omega, h2, h3, h4⟩
    · rw [he] at h2
      by_cases hrn : r < y.numRows
      · exact hg.disjoint.1 r hrn r' h1 h2
      · rw [extent_of_len_zero hc (hg.unused r (by omega)).1] at h2
        omega
    · have hr' : r < y.freeRow := hr
      change r + y.extent c r ≤ y.freeRow
      rcases Nat.lt_trichotomy r y.cur with h1 | h1 | h1
      · have := hg.disjoint.2 r h1; omega
      · subst h1; omega
      · rw [extent_of_len_zero hc (hg.unused r (by omega)).1]; omega

theorem addRow_good (hc : c.Legal) (h : x.Good c) : (x.addRow c).Good c := by
  rw [← addRow_autocreate]
  exact addRow_good_of_pos hc (autocreate_good hc h) autocreate_numRows_pos

theorem countSync_good {p : Logged} (h : p.1.Good c) (hn : 0 < p.1.numRows) : p.countSync.1.Good c := by
  simp only [Logged.countSync]
  split
  · exact h
  · have hcur : p.1.cur + 1 = p.1.numRows := by simp only [BitBuffer.cur]; omega
    generalize p.1 = y at *
    have hsy : ∀ v r, Memory.read (y.syncsBeforeRow.write y.cur v) r = if r = y.cur then v else y.syncsBeforeRow.read r :=
      fun v r => Memory.read_write h.canonical.2.2 _ _ _
    refine ⟨h.cursors, h.free, fun r hr => ?_, h.padding, ⟨fun r hr r' h1 h2 => ?_, h.disjoint.2⟩,
      ⟨h.canonical.1, h.canonical.2.1, Memory.wf_write h.canonical.2.2 _ _⟩⟩
    · have hr' : y.numRows ≤ r := hr
      simp only [hsy, if_neg (show r ≠ y.cur by omega)]
      exact h.unused r hr'
    · have hd := h.disjoint.1 r hr r' h1 h2
      have h2' : r' < r + y.extent c r := h2
      have hr' : r < y.numRows := hr
      by_cases hrc : r = y.cur
      · simp only [hsy, if_neg (show r' ≠ y.cur by omega)]
        exact hd
      · have := h.disjoint.2 r (by omega)
        simp only [hsy, if_neg (show r' ≠ y.cur by omega)]
        exact hd

theorem addRow_numRows_pos : 0 < (x.addRow c).numRows := by
  have := autocreate_numRows_pos (x := x)
  simp only [BitBuffer.addRow]
  split
  · exact this
  · simp

theorem addSync_good (hc : c.Legal) {p : Logged} (h : p.1.Good c) : (p.addSync c).1.Good c := by
  simp only [Logged.addSync]
  refine countSync_good ?_ ?_
  · split
    · exact addRow_good hc (autocreate_good hc h)
    · exact autocreate_good hc h
  · split
    · exact addRow_numRows_pos
    · exact autocreate_numRows_pos

theorem addBits_good (hc : c.Legal) (v : Bool) (n : Nat) {p : Logged} (h : p.1.Good c) :
    (Logged.addBits c v n p).1.Good c := by
  induction n generalizing p with
  | zero => exact h
  | succ n ih =>
    simp only [Logged.addBits]
    split
    · exact addBit_good hc h v
    · exact ih (addBit_good hc h v)

/-! ### How much state the core operations touch (R130) -/

theorem BitBuffer.TouchesOnly.refl (x : BitBuffer) (bytes counts syncs : Set Nat) : x.TouchesOnly x bytes counts syncs :=
  ⟨fun _ _ => rfl, fun _ _ => rfl, fun _ _ => rfl⟩

/-- AUTOCREATE moves the cursors only (R122). -/
theorem autocreate_touchesOnly (bytes counts syncs : Set Nat) : x.TouchesOnly x.autocreate bytes counts syncs :=
  ⟨fun _ _ => by simp, fun _ _ => by simp, fun _ _ => by simp⟩

/-- ADD_BIT writes the byte of the next position of the current row and that row's count (R121). -/
theorem addBit_touchesOnly (v : Bool) : x.TouchesOnly (x.addBit c v)
    {bitAddr c x.autocreate.cur (x.autocreate.len x.autocreate.cur)} {x.autocreate.cur} ∅ := by
  simp only [BitBuffer.addBit]
  split
  · exact autocreate_touchesOnly _ _ _
  · have h1 : (if x.autocreate.startsSlot c then { x.autocreate with freeRow := x.autocreate.freeRow + 1 }
        else x.autocreate).mem = x.mem := by split <;> simp
    have h2 : (if x.autocreate.startsSlot c then { x.autocreate with freeRow := x.autocreate.freeRow + 1 }
        else x.autocreate).bitsPerRow = x.bitsPerRow := by split <;> simp
    have h3 : (if x.autocreate.startsSlot c then { x.autocreate with freeRow := x.autocreate.freeRow + 1 }
        else x.autocreate).syncsBeforeRow = x.syncsBeforeRow := by split <;> simp
    refine ⟨fun a ha => ?_, fun r hr => ?_, fun r _ => ?_⟩
    · simp only [BitBuffer.appendBit, BitBuffer.setbit, h1]
      exact Memory.read_write_other _ _ ha
    · simp only [BitBuffer.appendBit, BitBuffer.setbit, BitBuffer.len, h2]
      exact Memory.read_write_other _ _ hr
    · simp only [BitBuffer.appendBit, BitBuffer.setbit, h3]

/-- ADD_ROW that finds a free slot moves the cursors only (R123). -/
theorem addRow_touchesOnly (h : x.autocreate.freeRow < c.rows) (bytes counts syncs : Set Nat) :
    x.TouchesOnly (x.addRow c) bytes counts syncs := by
  have h1 : x.rowOverflows c = false := by simp only [BitBuffer.rowOverflows, decide_eq_false_iff_not]; omega
  simp only [BitBuffer.addRow, h1]
  exact ⟨fun _ _ => by simp, fun _ _ => by simp [BitBuffer.len], fun _ _ => by simp⟩

/-- ADD_ROW in the overflow case writes the slots of the current row, its count and its sync counter (R123). -/
theorem addRow_overflow_touchesOnly (h : ¬ x.autocreate.freeRow < c.rows) : x.TouchesOnly (x.addRow c)
    (Set.Ico (x.autocreate.cur * c.cols) (x.autocreate.freeRow * c.cols)) {x.autocreate.cur} {x.autocreate.cur} := by
  have h1 : x.rowOverflows c = true := by simp only [BitBuffer.rowOverflows, decide_eq_true_eq]; omega
  simp only [BitBuffer.addRow, h1, if_true]
  refine ⟨fun a ha => ?_, fun r hr => ?_, fun r hr => ?_⟩
  · simp only [Memory.read_zeroRange, autocreate_mem]
    exact if_neg ha
  · simp only [BitBuffer.len, autocreate_bits]
    exact Memory.read_write_other _ _ hr
  · simp only [autocreate_syncs]
    exact Memory.read_write_other _ _ hr

/-- The counting part of ADD_SYNC writes the sync counter of the current row (R125). -/
theorem countSync_touchesOnly {x : BitBuffer} {p : Logged} {bytes counts syncs : Set Nat}
    (h : x.TouchesOnly p.1 bytes counts syncs) (hm : p.1.cur ∈ syncs) : x.TouchesOnly p.countSync.1 bytes counts syncs := by
  simp only [Logged.countSync]
  split
  · exact h
  · exact ⟨h.bytes, h.counts, fun r hr =>
      (Memory.read_write_other _ _ (fun hc : r = p.1.cur => hr (hc ▸ hm))).trans (h.syncs r hr)⟩

/-- ADD_SYNC on an empty current row counts there (R125). -/
theorem addSync_empty_touchesOnly {p : Logged} (h : p.1.autocreate.len p.1.autocreate.cur = 0) :
    p.1.TouchesOnly (p.addSync c).1 ∅ ∅ {p.1.autocreate.cur} := by
  have h1 : p.1.autocreate.hasContent = false := by simp [BitBuffer.hasContent, h]
  simp only [Logged.addSync, h1]
  exact countSync_touchesOnly (autocreate_touchesOnly _ _ _) rfl

/-- ADD_SYNC on a row with bits counts in the row it opens at the first free slot (R125). -/
theorem addSync_newRow_touchesOnly {p : Logged} (h : 0 < p.1.autocreate.len p.1.autocreate.cur)
    (hf : p.1.autocreate.freeRow < c.rows) : p.1.TouchesOnly (p.addSync c).1 ∅ ∅ {p.1.autocreate.freeRow} := by
  have h1 : p.1.autocreate.hasContent = true := by simpa [BitBuffer.hasContent] using h
  have h2 : p.1.autocreate.rowOverflows c = false := by
    simp only [BitBuffer.rowOverflows, autocreate_autocreate, decide_eq_false_iff_not]; omega
  simp only [Logged.addSync, h1, if_true]
  refine countSync_touchesOnly ?_ (by simp [Logged.addRow, BitBuffer.addRow, h2, BitBuffer.cur])
  simp only [Logged.addRow, addRow_autocreate]
  exact addRow_touchesOnly hf _ _ _

/-- ADD_SYNC on a row with bits when no slot is free clears that row and counts there (R125; log 24). -/
theorem addSync_overflow_touchesOnly {p : Logged} (h : 0 < p.1.autocreate.len p.1.autocreate.cur)
    (hf : ¬ p.1.autocreate.freeRow < c.rows) : p.1.TouchesOnly (p.addSync c).1
      (Set.Ico (p.1.autocreate.cur * c.cols) (p.1.autocreate.freeRow * c.cols)) {p.1.autocreate.cur}
      {p.1.autocreate.cur} := by
  have h1 : p.1.autocreate.hasContent = true := by simpa [BitBuffer.hasContent] using h
  have h2 : p.1.autocreate.rowOverflows c = true := by
    simp only [BitBuffer.rowOverflows, autocreate_autocreate, decide_eq_true_eq]; omega
  simp only [Logged.addSync, h1, if_true]
  refine countSync_touchesOnly ?_ (by simp [Logged.addRow, BitBuffer.addRow, h2, BitBuffer.cur])
  simp only [Logged.addRow, addRow_autocreate]
  exact addRow_overflow_touchesOnly hf

/-- No byte past the storage of R21 is ever set (R26 I4). -/
theorem BitBuffer.Good.read_beyond (hc : c.Legal) (h : x.Good c) {a : Nat} (ha : c.rows * c.cols ≤ a) : x.mem.read a = 0 := by
  apply BitVec.eq_of_getLsbD_eq
  intro k hk
  by_contra hb
  have hb' : (x.mem.read a).getLsbD k = true := by
    cases hh : (x.mem.read a).getLsbD k <;> simp [hh] at hb ⊢
  obtain ⟨r, i, hr, hi, rfl, -⟩ := h.padding a k hk hb'
  have h1 := (h.lengthsInRange hc r).1
  have h2 : r < c.rows := lt_of_lt_of_le hr (h.cursors.1.trans h.cursors.2.1)
  have h3 : i / 8 < (c.rows - r) * c.cols := by
    rw [Nat.div_lt_iff_lt_mul (by decide)]
    calc i < x.len r := hi
      _ ≤ (c.rows - r) * c.slotBits := h1
      _ = (c.rows - r) * c.cols * 8 := by simp only [Params.slotBits]; ring
  have h4 : r * c.cols + (c.rows - r) * c.cols = c.rows * c.cols := by
    rw [← Nat.add_mul, Nat.add_sub_cancel' h2.le]
  simp only [bitAddr] at ha
  omega

/-! ### Active positions and the transforms -/

/-- Two active positions share a storage bit only if they are the same (R26 I5). -/
theorem position_unique (hc : c.Legal) (h : x.Good c) {r i r' i' : Nat} (hr : r < x.numRows) (hi : i < x.len r)
    (hr' : r' < x.numRows) (hi' : i' < x.len r')
    (ha : bitAddr c r i = bitAddr c r' i') (hk : 7 - i % 8 = 7 - i' % 8) : r = r' ∧ i = i' := by
  have key : ∀ {p j q l : Nat}, p < x.numRows → j < x.len p → l < x.len q → p < q →
      bitAddr c p j ≠ bitAddr c q l := by
    intro p j q l hp hj hl hpq he
    have h1 := bitAddr_lt_extent hc hj
    have h2 : ¬ q < p + x.extent c p := fun h2 => by
      have := (h.disjoint.1 p hp q hpq h2).1
      omega
    have h3 : (p + x.extent c p) * c.cols ≤ q * c.cols := Nat.mul_le_mul_right _ (by omega)
    simp only [bitAddr] at he h1
    omega
  rcases Nat.lt_trichotomy r r' with h1 | h1 | h1
  · exact absurd ha (key hr hi hi' h1)
  · subst h1
    simp only [bitAddr] at ha
    exact ⟨rfl, by omega⟩
  · exact absurd ha.symm (key hr' hi' hi h1)

/-- Reading a row bit after `setbit` on an active position (R63, R64). -/
theorem bit_setbit (hc : c.Legal) (h : x.Good c) {r i : Nat} (hr : r < x.numRows) (hi : i < x.len r) (v : Bool)
    {q j : Nat} (hq : q < x.numRows) :
    (x.setbit c r i v).bit c q j = if q = r ∧ j = i then v else x.bit c q j := by
  simp only [BitBuffer.bit, setbit_len, packedBit]
  by_cases hj : j < x.len q
  · have := setbit_storage (c := c) h.canonical.1 r i v (a := q * c.cols + j / 8) (k := 7 - j % 8) (by omega)
    rw [this]
    by_cases he : q = r ∧ j = i
    · obtain ⟨rfl, rfl⟩ := he
      simp [bitAddr, hj]
    · rw [if_neg he, if_neg (fun hh => he (position_unique hc h hq hj hr hi hh.1 hh.2))]
      rfl
  · rw [if_neg]
    · simp [hj]
    · rintro ⟨rfl, rfl⟩
      exact hj hi

/-- `setbit` on an active position keeps R26 (R146). -/
theorem setbit_good (h : x.Good c) {r i : Nat} (hr : r < x.numRows) (hi : i < x.len r) (v : Bool) :
    (x.setbit c r i v).Good c where
  cursors := h.cursors
  free := h.free
  unused := h.unused
  padding := fun a k hk hb => by
    rw [setbit_storage h.canonical.1 _ _ _ hk] at hb
    split at hb
    · rename_i hak
      exact ⟨r, i, hr, hi, hak.1, hak.2⟩
    · exact h.padding a k hk hb
  disjoint := h.disjoint
  canonical := ⟨Memory.wf_write h.canonical.1 _ _, h.canonical.2⟩

/-- The shape of a buffer: all but its storage. -/
def SameShape (x y : BitBuffer) : Prop :=
  y.numRows = x.numRows ∧ y.freeRow = x.freeRow ∧ y.bitsPerRow = x.bitsPerRow ∧ y.syncsBeforeRow = x.syncsBeforeRow

theorem SameShape.refl (x : BitBuffer) : SameShape x x := ⟨rfl, rfl, rfl, rfl⟩

theorem SameShape.len {x y : BitBuffer} (h : SameShape x y) (r : Nat) : y.len r = x.len r := by
  simp only [BitBuffer.len, h.2.2.1]

theorem SameShape.setbit {x y : BitBuffer} (h : SameShape x y) (r i : Nat) (v : Bool) :
    SameShape x (y.setbit c r i v) := h

/-- One row of a transform: positions below `len(r)` get their new value, nothing else changes. -/
theorem mapRow_spec (hc : c.Legal) (f : Bool → Bool → Bool) (h : x.Good c) {r : Nat} (hr : r < x.numRows) (n : Nat)
    (hn : n ≤ x.len r) :
    let z : BitBuffer × Bool :=
      upTo n (fun i (z : BitBuffer × Bool) => (z.1.setbit c r i (f (z.1.bit c r i) z.2), z.1.bit c r i)) (x, false)
    z.1.Good c ∧ SameShape x z.1 ∧ z.2 = prevBit c x r n ∧
    ∀ q j, q < x.numRows → z.1.bit c q j = if q = r ∧ j < n then f (x.bit c r j) (prevBit c x r j) else x.bit c q j := by
  refine upTo_induction
    (motive := fun n (z : BitBuffer × Bool) => n ≤ x.len r → z.1.Good c ∧ SameShape x z.1 ∧ z.2 = prevBit c x r n ∧
      ∀ q j, q < x.numRows → z.1.bit c q j = if q = r ∧ j < n then f (x.bit c r j) (prevBit c x r j) else x.bit c q j)
    ?_ ?_ hn
  · intro _
    refine ⟨h, SameShape.refl x, rfl, fun q j _ => ?_⟩
    simp
  · intro i z _ ih hi
    obtain ⟨hg, hs, hp, hb⟩ := ih (by omega)
    have hr' : r < z.1.numRows := by rw [hs.1]; exact hr
    have hi' : i < z.1.len r := by rw [hs.len]; omega
    have hcur : z.1.bit c r i = x.bit c r i := by rw [hb r i hr]; simp
    refine ⟨setbit_good hg hr' hi' _, hs, hcur, fun q j hq => ?_⟩
    rw [bit_setbit hc hg hr' hi' _ (by rw [hs.1]; exact hq), hcur, hp, hb q j hq]
    by_cases hqr : q = r
    · subst hqr
      rcases Nat.lt_trichotomy j i with h1 | h1 | h1
      · simp [h1, Nat.ne_of_lt h1, Nat.lt_succ_of_lt h1]
      · subst h1; simp
      · have : ¬ j < i + 1 := by omega
        simp [this, Nat.not_lt_of_gt h1, Nat.ne_of_gt h1]
    · simp [hqr]

/-- What a transform does (R140, R142 to R144, R146): each active bit becomes `f` of itself and its predecessor as they were,
the shape stays, R26 is kept. -/
theorem mapBits_spec (hc : c.Legal) (f : Bool → Bool → Bool) (h : x.Good c) :
    (x.mapBits c f).Good c ∧ SameShape x (x.mapBits c f) ∧
    ∀ q j, q < x.numRows → j < x.len q → (x.mapBits c f).bit c q j = f (x.bit c q j) (prevBit c x q j) := by
  have key : ∀ n, n ≤ x.numRows →
      let y := upTo n (fun r (y : BitBuffer) =>
        (upTo (α := BitBuffer × Bool) (y.len r) (fun i z =>
          (z.1.setbit c r i (f (z.1.bit c r i) z.2), z.1.bit c r i)) (y, false)).1) x
      y.Good c ∧ SameShape x y ∧ ∀ q j, q < x.numRows →
        y.bit c q j = if q < n ∧ j < x.len q then f (x.bit c q j) (prevBit c x q j) else x.bit c q j := by
    intro n
    refine upTo_induction
      (motive := fun n (y : BitBuffer) => n ≤ x.numRows → y.Good c ∧ SameShape x y ∧ ∀ q j, q < x.numRows →
        y.bit c q j = if q < n ∧ j < x.len q then f (x.bit c q j) (prevBit c x q j) else x.bit c q j) ?_ ?_
    · intro _
      exact ⟨h, SameShape.refl x, fun q j _ => by simp⟩
    · intro r y _ ih hr
      obtain ⟨hg, hs, hb⟩ := ih (by omega)
      have hr' : r < y.numRows := by rw [hs.1]; omega
      obtain ⟨hg', hs', _, hb'⟩ := mapRow_spec hc f hg hr' (y.len r) (le_refl _)
      refine ⟨hg', ⟨hs'.1.trans hs.1, hs'.2.1.trans hs.2.1, hs'.2.2.1.trans hs.2.2.1, hs'.2.2.2.trans hs.2.2.2⟩, fun q j hq => ?_⟩
      rw [hb' q j (by rw [hs.1]; exact hq), hs.len]
      have hrow : ∀ j, y.bit c r j = x.bit c r j := fun j => by rw [hb r j (by omega)]; simp
      have hprev : ∀ j, prevBit c y r j = prevBit c x r j := by
        intro j
        cases j with
        | zero => rfl
        | succ j => exact hrow j
      by_cases hqr : q = r
      · subst hqr
        by_cases hj : j < x.len q
        · simp [hj, hrow, hprev]
        · simp [hj, hrow]
      · rw [if_neg (fun hh => hqr hh.1), hb q j hq]
        by_cases h1 : q < r
        · simp [h1, Nat.lt_succ_of_lt h1]
        · have : ¬ q < r + 1 := by omega
          simp [h1, this]
  obtain ⟨h1, h2, h3⟩ := key x.numRows (le_refl _)
  exact ⟨h1, h2, fun q j hq hj => by have := h3 q j hq; rw [if_pos ⟨hq, hj⟩] at this; exact this⟩

/-- `setbit` on an active position leaves every storage bit alone that is not active (R140, R146). -/
theorem setbit_inactive (hm : x.mem.wf) {r i : Nat} (hr : r < x.numRows) (hi : i < x.len r) (v : Bool) {a k : Nat} (hk : k < 8)
    (h : ¬ x.ActiveBit c a k) : ((x.setbit c r i v).mem.read a).getLsbD k = (x.mem.read a).getLsbD k := by
  rw [setbit_storage hm _ _ _ hk, if_neg]
  rintro ⟨h1, h2⟩
  exact h ⟨r, i, hr, hi, h1, h2⟩

/-- The active bits depend on the shape only. -/
theorem SameShape.activeBit {x y : BitBuffer} (h : SameShape x y) (a k : Nat) : y.ActiveBit c a k ↔ x.ActiveBit c a k := by
  simp only [BitBuffer.ActiveBit, h.1, h.len]

/-- A transform writes active bits only (R140, R144, R146). -/
theorem mapBits_inactive (f : Bool → Bool → Bool) (hm : x.mem.wf) :
    ∀ a k, k < 8 → ¬ x.ActiveBit c a k → ((x.mapBits c f).mem.read a).getLsbD k = (x.mem.read a).getLsbD k := by
  let P : BitBuffer → Prop := fun y => y.mem.wf ∧ SameShape x y ∧
    ∀ a k, k < 8 → ¬ x.ActiveBit c a k → (y.mem.read a).getLsbD k = (x.mem.read a).getLsbD k
  have hstep : ∀ y r i v, P y → r < x.numRows → i < x.len r → P (y.setbit c r i v) := by
    rintro y r i v ⟨h1, h2, h3⟩ hr hi
    refine ⟨Memory.wf_write h1 _ _, h2, fun a k hk ha => ?_⟩
    rw [setbit_inactive h1 (by rw [h2.1]; exact hr) (by rw [h2.len]; exact hi) v hk (by rw [h2.activeBit]; exact ha)]
    exact h3 a k hk ha
  have key : P (x.mapBits c f) := by
    refine upTo_induction (motive := fun _ y => P y) ⟨hm, SameShape.refl x, fun _ _ _ _ => rfl⟩ ?_
    intro r y hr hy
    refine (upTo_induction (motive := fun _ (z : BitBuffer × Bool) => P z.1) hy ?_)
    intro i z hi hz
    exact hstep z.1 r i _ hz hr (by rw [← hy.2.1.len]; exact hi)
  exact key.2.2

end Sys2Proof.Machine
end

