-- ==== Sys2Proof/Laws/Demod.lean ====
section
/-! SUPPORT. The demodulator run: what one symbol may change, that the loop of the model is the loop of R205, and what a whole run
leaves behind. -/

namespace Sys2Proof.Machine

variable {c : Params}

/-! ### What the row operations do to FLAGS -/

/-- The warnings a row operation or a symbol can raise (R286, classes (a) and (b)). -/
def Flag.isWarning (f : Flag) : Prop := f = .wBitDropped ∨ f = .wRowOverflow ∨ f = .wSyncSat ∨ f = .wFrameDrop ∨ f = .wCntSat

/-- `w` is `v` with some warnings raised. -/
def Warns (v w : Word) : Prop := ∃ l : List Flag, (∀ f ∈ l, f.isWarning) ∧ w = l.foldl (fun u f => raiseIn f u) v

theorem Warns.refl (v : Word) : Warns v v := ⟨[], by simp, rfl⟩

theorem Warns.trans {u v w : Word} (h : Warns u v) (h' : Warns v w) : Warns u w := by
  obtain ⟨l, hl, rfl⟩ := h
  obtain ⟨l', hl', rfl⟩ := h'
  refine ⟨l ++ l', ?_, by rw [List.foldl_append]⟩
  intro f hf
  rcases List.mem_append.1 hf with h | h
  · exact hl f h
  · exact hl' f h

theorem Warns.raise {f : Flag} (hf : f.isWarning) (v : Word) : Warns v (raiseIn f v) :=
  ⟨[f], by simpa using hf, rfl⟩

theorem Warns.raiseIf {f : Flag} (hf : f.isWarning) (p : Bool) (v : Word) : Warns v (raiseIf p f v) := by
  cases p
  · exact Warns.refl v
  · exact Warns.raise hf v

/-- Raising warnings clears no flag and sets none but warnings. -/
theorem Warns.getLsbD {v w : Word} (h : Warns v w) (i : Nat) :
    (v.getLsbD i = true → w.getLsbD i = true) ∧ (6 < i → w.getLsbD i = v.getLsbD i) := by
  obtain ⟨l, hl, rfl⟩ := h
  induction l generalizing v with
  | nil => simp
  | cons f l ih =>
    have h1 := ih (v := raiseIn f v) (fun g hg => hl g (List.mem_cons_of_mem _ hg))
    simp only [List.foldl_cons]
    refine ⟨fun hv => h1.1 (by rw [raiseIn_getLsbD, hv]; rfl), fun hi => ?_⟩
    rw [h1.2 hi, raiseIn_getLsbD]
    have hf : f.pos ≤ 6 := by
      rcases hl f List.mem_cons_self with h | h | h | h | h <;> subst h <;> decide
    have : ¬ i = f.pos := by omega
    simp [this]

/-- A row operation keeps R26 (for legal parameters) and raises warnings only. -/
def Logged.Keeps (c : Params) (p q : Logged) : Prop := (c.Legal → p.1.Good c → q.1.Good c) ∧ Warns p.2 q.2

theorem Logged.Keeps.refl (p : Logged) : Logged.Keeps c p p := ⟨fun _ => id, Warns.refl _⟩

theorem Logged.Keeps.trans {p q r : Logged} (h : Logged.Keeps c p q) (h' : Logged.Keeps c q r) : Logged.Keeps c p r :=
  ⟨fun hc hg => h'.1 hc (h.1 hc hg), h.2.trans h'.2⟩

theorem addBit_keeps (v : Bool) (p : Logged) : Logged.Keeps c p (p.addBit c v) :=
  ⟨fun hc h => addBit_good hc h v, Warns.raiseIf (Or.inl rfl) _ _⟩

theorem addBits_keeps (v : Bool) (n : Nat) (p : Logged) : Logged.Keeps c p (Logged.addBits c v n p) := by
  induction n generalizing p with
  | zero => exact Logged.Keeps.refl p
  | succ n ih =>
    simp only [Logged.addBits]
    split
    · exact addBit_keeps v p
    · exact (addBit_keeps v p).trans (ih _)

theorem addRow_keeps (p : Logged) : Logged.Keeps c p (p.addRow c) :=
  ⟨fun hc h => addRow_good hc h, Warns.raiseIf (Or.inr (Or.inl rfl)) _ _⟩

theorem addSync_keeps (p : Logged) : Logged.Keeps c p (p.addSync c) := by
  refine ⟨fun hc h => addSync_good hc h, ?_⟩
  have key : ∀ q : Logged, Warns q.2 q.countSync.2 := by
    intro q
    simp only [Logged.countSync]
    split
    · exact Warns.raise (Or.inr (Or.inr (Or.inl rfl))) _
    · exact Warns.refl _
  simp only [Logged.addSync]
  split
  · exact Warns.trans (addRow_keeps (p.1.autocreate, p.2)).2 (key _)
  · exact key (p.1.autocreate, p.2)

theorem addAll_keeps (bits : List Bool) (p : Logged) : Logged.Keeps c p (Logged.addAll c bits p) := by
  induction bits generalizing p with
  | nil => exact Logged.Keeps.refl p
  | cons v bits ih => exact (addBit_keeps v p).trans (ih _)

@[simp] theorem addAll_nil (p : Logged) : Logged.addAll c [] p = p := rfl
theorem addAll_cons (v : Bool) (bits : List Bool) (p : Logged) :
    Logged.addAll c (v :: bits) p = Logged.addAll c bits (p.addBit c v) := rfl
theorem addAll_append (l l' : List Bool) (p : Logged) :
    Logged.addAll c (l ++ l') p = Logged.addAll c l' (Logged.addAll c l p) := List.foldl_append ..

/-- The repetition of ADD_BIT is ADD_BIT of a list of equal bits (R240). -/
theorem addBits_eq_addAll (v : Bool) (n : Nat) (p : Logged) :
    Logged.addBits c v n p = Logged.addAll c (List.replicate n v) p := by
  rw [addBits_eq_repeat]
  induction n generalizing p with
  | zero => rfl
  | succ n ih => rw [List.replicate_succ, addAll_cons, repeatAddBit, ih]

/-! ### One symbol -/

/-- Replaces `bb[0]` and FLAGS of the block. -/
def State.withLogged (s : State) (q : Logged) : State := { s with bb0 := q.1, flags := q.2 }

theorem onBuffer_b0 (s : State) (f : Logged → Logged) : s.onBuffer .b0 f = s.withLogged (f (s.bb0, s.flags)) := rfl

theorem newRowBy_eq {s : State} (h : s.phase = .accumulating) (f : Logged → Logged) :
    newRowBy f s = s.withLogged (f (s.bb0, s.flags)) := by
  obtain ⟨cfg, b0, b1, pt, sp, a0, a1, r0, r1, pat, xb, fl, ph, cu, ev, di, sf, og, la, pe, rd, dn⟩ := s
  simp only at h
  subst h
  rfl

/-- SYMBOL of any demodulator changes `bb[0]` and FLAGS only, keeps R26 and raises warnings only (R240, R255, R270). -/
theorem symbol_spec {s : State} (h : s.phase = .accumulating) (p g : Nat) (last : Bool) :
    ∃ q : Logged, symbol p g last s = s.withLogged q ∧ Logged.Keeps s.cfg (s.bb0, s.flags) q := by
  unfold symbol
  split
  · -- PCM
    simp only [pcmSymbol]
    have hk := (addBits_keeps (c := s.cfg) true (pcmOnes s.lat p) (s.bb0, s.flags)).trans
      (addBits_keeps false (pcmZeros s.lat g) _)
    split
    · refine ⟨(BitBuffer.empty, raiseIn .wFrameDrop (Logged.addBits s.cfg false (pcmZeros s.lat g)
        (Logged.addBits s.cfg true (pcmOnes s.lat p) (s.bb0, s.flags))).2), rfl, fun _ _ => empty_good, ?_⟩
      exact hk.2.trans (Warns.raise (Or.inr (Or.inr (Or.inr (Or.inl rfl)))) _)
    · split
      · refine ⟨_, newRowBy_eq (by simpa using h) _, ?_⟩
        exact hk.trans (addRow_keeps _)
      · exact ⟨_, rfl, hk⟩
  · -- PPM
    simp only [ppmSymbol]
    split
    · exact ⟨_, rfl, addBit_keeps _ _⟩
    · split
      · exact ⟨_, rfl, addBit_keeps _ _⟩
      · split
        · exact ⟨_, newRowBy_eq h _, addSync_keeps _⟩
        · split
          · exact ⟨_, newRowBy_eq h _, addRow_keeps _⟩
          · exact ⟨(s.bb0, s.flags), rfl, Logged.Keeps.refl _⟩
  · -- PWM
    have hp : ∃ q : Logged, pwmPulse p s = s.withLogged q ∧ Logged.Keeps s.cfg (s.bb0, s.flags) q := by
      simp only [pwmPulse]
      split
      · exact ⟨_, rfl, addBit_keeps _ _⟩
      · split
        · exact ⟨_, rfl, addBit_keeps _ _⟩
        · split
          · exact ⟨_, newRowBy_eq h _, addSync_keeps _⟩
          · split
            · exact ⟨(s.bb0, s.flags), rfl, Logged.Keeps.refl _⟩
            · exact ⟨_, newRowBy_eq h _, addRow_keeps _⟩
    obtain ⟨q, hq, hk⟩ := hp
    simp only [pwmSymbol, hq]
    split
    · exact ⟨_, newRowBy_eq (by exact h) _, hk.trans (addRow_keeps _)⟩
    · exact ⟨q, rfl, hk⟩

/-- One symbol step up to the message-end test (R205). -/
theorem symbolStep_spec (s : State) :
    ∃ q : Logged, symbolStep s = (s.setPhase .accumulating).withLogged q ∧ Logged.Keeps s.cfg (s.bb0, s.flags) q :=
  symbol_spec (s := s.setPhase .accumulating) rfl _ _ _

/-! ### The loop -/

@[simp] theorem advance_cfg (s : State) : (advance s).cfg = s.cfg := rfl
@[simp] theorem advance_bb0 (s : State) : (advance s).bb0 = s.bb0 := rfl
@[simp] theorem advance_bb1 (s : State) : (advance s).bb1 = s.bb1 := rfl
@[simp] theorem advance_pt (s : State) : (advance s).pt = s.pt := rfl
@[simp] theorem advance_spec (s : State) : (advance s).spec = s.spec := rfl
@[simp] theorem advance_arg0 (s : State) : (advance s).arg0 = s.arg0 := rfl
@[simp] theorem advance_arg1 (s : State) : (advance s).arg1 = s.arg1 := rfl
@[simp] theorem advance_res0 (s : State) : (advance s).res0 = s.res0 := rfl
@[simp] theorem advance_res1 (s : State) : (advance s).res1 = s.res1 := rfl
@[simp] theorem advance_pat (s : State) : (advance s).pat = s.pat := rfl
@[simp] theorem advance_xbuf (s : State) : (advance s).xbuf = s.xbuf := rfl
@[simp] theorem advance_flags (s : State) : (advance s).flags = s.flags := rfl
@[simp] theorem advance_phase (s : State) : (advance s).phase = s.phase := rfl
@[simp] theorem advance_cursor (s : State) : (advance s).cursor = s.cursor + 1 := rfl
@[simp] theorem advance_events (s : State) : (advance s).events = s.events := rfl
@[simp] theorem advance_dispatches (s : State) : (advance s).dispatches = s.dispatches := rfl
@[simp] theorem advance_statFail (s : State) : (advance s).statFail = s.statFail := rfl
@[simp] theorem advance_origin (s : State) : (advance s).origin = s.origin := rfl
@[simp] theorem advance_lat (s : State) : (advance s).lat = s.lat := rfl
@[simp] theorem advance_pending (s : State) : (advance s).pending = s.pending := rfl
@[simp] theorem advance_rdata (s : State) : (advance s).rdata = s.rdata := rfl
@[simp] theorem advance_done (s : State) : (advance s).done = s.done := rfl

@[simp] theorem resume_cfg (s : State) : (resume s).cfg = s.cfg := rfl
@[simp] theorem resume_bb0 (s : State) : (resume s).bb0 = BitBuffer.empty := rfl
@[simp] theorem resume_bb1 (s : State) : (resume s).bb1 = s.bb1 := rfl
@[simp] theorem resume_pt (s : State) : (resume s).pt = s.pt := rfl
@[simp] theorem resume_spec (s : State) : (resume s).spec = s.spec := rfl
@[simp] theorem resume_arg0 (s : State) : (resume s).arg0 = s.arg0 := rfl
@[simp] theorem resume_arg1 (s : State) : (resume s).arg1 = s.arg1 := rfl
@[simp] theorem resume_res0 (s : State) : (resume s).res0 = s.res0 := rfl
@[simp] theorem resume_res1 (s : State) : (resume s).res1 = s.res1 := rfl
@[simp] theorem resume_pat (s : State) : (resume s).pat = s.pat := rfl
@[simp] theorem resume_xbuf (s : State) : (resume s).xbuf = s.xbuf := rfl
@[simp] theorem resume_flags (s : State) : (resume s).flags = s.flags := rfl
@[simp] theorem resume_phase (s : State) : (resume s).phase = s.phase := rfl
@[simp] theorem resume_cursor (s : State) : (resume s).cursor = s.cursor + 1 := rfl
@[simp] theorem resume_events (s : State) : (resume s).events = s.events := rfl
@[simp] theorem resume_dispatches (s : State) : (resume s).dispatches = s.dispatches := rfl
@[simp] theorem resume_statFail (s : State) : (resume s).statFail = s.statFail := rfl
@[simp] theorem resume_origin (s : State) : (resume s).origin = s.origin := rfl
@[simp] theorem resume_lat (s : State) : (resume s).lat = s.lat := rfl
@[simp] theorem resume_pending (s : State) : (resume s).pending = s.pending := rfl
@[simp] theorem resume_rdata (s : State) : (resume s).rdata = s.rdata := rfl
@[simp] theorem resume_done (s : State) : (resume s).done = s.done := rfl

/-- What a run may change, given where it stands: everything else is as it was. -/
structure RunFrame (s t : State) : Prop where
  cfg      : t.cfg = s.cfg
  bb1      : t.bb1 = s.bb1
  pt       : t.pt = s.pt
  spec     : t.spec = s.spec
  arg0     : t.arg0 = s.arg0
  arg1     : t.arg1 = s.arg1
  res0     : t.res0 = s.res0
  res1     : t.res1 = s.res1
  pat      : t.pat = s.pat
  xbuf     : t.xbuf = s.xbuf
  events   : t.events = s.events
  statFail : t.statFail = s.statFail
  lat      : t.lat = s.lat
  pending  : t.pending = s.pending
  rdata    : t.rdata = s.rdata

theorem RunFrame.refl (s : State) : RunFrame s s := by constructor <;> rfl

theorem RunFrame.trans {s t u : State} (h : RunFrame s t) (h' : RunFrame t u) : RunFrame s u := by
  constructor
  · rw [h'.cfg, h.cfg]
  · rw [h'.bb1, h.bb1]
  · rw [h'.pt, h.pt]
  · rw [h'.spec, h.spec]
  · rw [h'.arg0, h.arg0]
  · rw [h'.arg1, h.arg1]
  · rw [h'.res0, h.res0]
  · rw [h'.res1, h.res1]
  · rw [h'.pat, h.pat]
  · rw [h'.xbuf, h.xbuf]
  · rw [h'.events, h.events]
  · rw [h'.statFail, h.statFail]
  · rw [h'.lat, h.lat]
  · rw [h'.pending, h.pending]
  · rw [h'.rdata, h.rdata]

theorem symbolStep_frame (s : State) : RunFrame s (symbolStep s) ∧ (symbolStep s).cursor = s.cursor ∧
    (symbolStep s).dispatches = s.dispatches ∧ (symbolStep s).origin = s.origin ∧ (symbolStep s).done = s.done ∧
    (s.cfg.Legal → s.bb0.Good s.cfg → (symbolStep s).bb0.Good s.cfg) ∧ Warns s.flags (symbolStep s).flags := by
  obtain ⟨q, hq, hk⟩ := symbolStep_spec s
  rw [hq]
  exact ⟨by constructor <;> rfl, rfl, rfl, rfl, rfl, hk.1, hk.2⟩

/-- The message-end test looks at the train, the latches and CURSOR only. -/
theorem messageEnds_congr {s t : State} (h1 : t.cursor = s.cursor) (h2 : t.lat = s.lat) (h3 : t.pt = s.pt) :
    messageEnds t = messageEnds s := by simp only [messageEnds, h1, h2, h3]

/-- The loop of the model, with enough fuel for the symbols left, is the loop of R205. -/
theorem runLoop_follows (fuel : Nat) {s : State} (h : s.lat.n.toNat ≤ s.cursor.toNat + fuel) : RunLoop s (runLoop fuel s) := by
  induction fuel generalizing s with
  | zero => exact RunLoop.finish (by omega)
  | succ fuel ih =>
    simp only [runLoop]
    split
    · rename_i hlt
      obtain ⟨hf, hcur, -⟩ := symbolStep_frame s
      have hnext : ∀ t : State, t.lat = s.lat → t.cursor = s.cursor + 1 → t.lat.n.toNat ≤ t.cursor.toNat + fuel := by
        intro t h1 h2
        have h3 : (s.cursor + 1).toNat = s.cursor.toNat + 1 := by
          have := s.lat.n.isLt
          rw [BitVec.toNat_add]
          exact Nat.mod_eq_of_lt (by simp; omega)
        rw [h1, h2, h3]; omega
      split
      · rename_i hm
        split
        · rename_i hd
          exact RunLoop.message hlt hm hd
        · rename_i hd
          refine RunLoop.silence hlt hm (by simpa using hd) (ih (hnext _ ?_ ?_))
          · exact hf.lat
          · exact congrArg (· + 1) hcur
      · rename_i hm
        refine RunLoop.symbol hlt (by simpa using hm) (ih (hnext _ ?_ ?_))
        · exact hf.lat
        · exact congrArg (· + 1) hcur
    · rename_i hlt
      exact RunLoop.finish hlt

/-- RUN_LOOP from where the block stands (R205). -/
theorem runFrom_follows (s : State) : RunLoop s (runFrom s) := runLoop_follows _ (by omega)

/-- The loop of R205 leads to one state only. -/
theorem RunLoop.unique {s t u : State} (h : RunLoop s t) (h' : RunLoop s u) : u = t := by
  induction h with
  | finish h1 => cases h' <;> first | rfl | contradiction
  | symbol h1 h2 _ ih => cases h' <;> simp_all
  | message h1 h2 h3 => cases h' <;> simp_all
  | silence h1 h2 h3 _ ih => cases h' <;> simp_all

/-- What a run from a given point leaves as it was (R213, R316). -/
theorem RunLoop.frame {s t : State} (h : RunLoop s t) : RunFrame s t := by
  induction h with
  | finish h1 => constructor <;> rfl
  | @symbol s t h1 h2 _ ih =>
    refine (symbolStep_frame s).1.trans (RunFrame.trans ?_ ih)
    constructor <;> rfl
  | @message s h1 h2 h3 =>
    refine (symbolStep_frame s).1.trans ?_
    constructor <;> simp
  | @silence s t h1 h2 h3 _ ih =>
    refine (symbolStep_frame s).1.trans (RunFrame.trans ?_ ih)
    constructor <;> rfl

theorem cursor_succ {s : State} (h : s.cursor.toNat < s.lat.n.toNat) : (s.cursor + 1).toNat = s.cursor.toNat + 1 := by
  have := s.lat.n.isLt
  rw [BitVec.toNat_add]
  exact Nat.mod_eq_of_lt (by simp; omega)

/-- How a run from a given point ends (R205, R208, R209, R212): in IDLE with the train used up, or in DISPATCH with data at a
later symbol or this one, DISPATCHES counted up, with W_CNT_SAT if it was full. -/
theorem RunLoop.ends {s t : State} (h : RunLoop s t) (hle : s.cursor.toNat ≤ s.lat.n.toNat) :
    (t.phase = .idle ∧ t.cursor = s.lat.n ∧ t.dispatches = s.dispatches ∧ t.origin = s.origin ∧ t.done = true ∧
      (s.cursor.toNat < s.lat.n.toNat ∨ s.bb0 = BitBuffer.empty → t.bb0 = BitBuffer.empty)) ∨
    (t.phase = .dispatch ∧ t.origin = .run ∧ s.cursor.toNat ≤ t.cursor.toNat ∧ t.cursor.toNat < s.lat.n.toNat ∧
      messageEnds t = true ∧ t.bb0.hasData = true ∧ t.dispatches = sat32 (s.dispatches.toNat + 1) ∧ t.done = s.done ∧
      (s.dispatches.toNat = 2 ^ 32 - 1 → t.flags.getLsbD Flag.wCntSat.pos = true)) := by
  induction h with
  | @finish s h1 =>
    refine Or.inl ⟨rfl, BitVec.eq_of_toNat_eq (by change s.cursor.toNat = _; omega), rfl, rfl, rfl, ?_⟩
    rintro (h2 | h2)
    · exact absurd h2 h1
    · exact h2
  | @symbol s t h1 h2 hr ih =>
    obtain ⟨hf, hcur, hdis, hor, hdone, -⟩ := symbolStep_frame s
    have hl : (advance (symbolStep s)).lat = s.lat := hf.lat
    have hc1 : (advance (symbolStep s)).cursor.toNat = s.cursor.toNat + 1 := by
      change ((symbolStep s).cursor + 1).toNat = _
      rw [hcur]; exact cursor_succ h1
    have hlast : s.cursor.toNat + 1 < s.lat.n.toNat := by
      simp only [messageEnds, Bool.or_eq_false_iff, beq_eq_false_iff_ne] at h2
      omega
    rcases ih (by rw [hl, hc1]; omega) with ⟨a1, a2, a3, a4, a5, a6⟩ | ⟨a1, a2, a3, a4, a5, a6, a7, a8, a9⟩
    · refine Or.inl ⟨a1, by rw [a2, hl], a3.trans hdis, a4.trans hor, a5, fun _ => a6 (Or.inl ?_)⟩
      rw [hl, hc1]; exact hlast
    · refine Or.inr ⟨a1, a2, by omega, by rw [hl] at a4; exact a4, a5, a6, ?_, a8.trans hdone,
        fun h => a9 ((congrArg BitVec.toNat hdis).trans h)⟩
      rw [a7]; exact congrArg (fun d : Word => sat32 (d.toNat + 1)) hdis
  | @message s h1 h2 h3 =>
    obtain ⟨hf, hcur, hdis, hor, hdone, -⟩ := symbolStep_frame s
    refine Or.inr ⟨?_, ?_, ?_, ?_, ?_, ?_, ?_, ?_, fun h => ?_⟩
    · simp
    · simp
    · simp [hcur]
    · simpa [hcur] using h1
    · rw [← h2]
      exact messageEnds_congr (by simp [hcur]) (by simp [hf.lat]) (by simp [hf.pt])
    · simpa using h3
    · simp [hdis]
    · simp [hdone]
    · rw [dispatch_flags, hdis, h, decide_eq_true (by decide), raiseIf_true, raiseIn_getLsbD]
      simp
  | @silence s t h1 h2 h3 hr ih =>
    obtain ⟨hf, hcur, hdis, hor, hdone, -⟩ := symbolStep_frame s
    have hl : (resume (symbolStep s)).lat = s.lat := hf.lat
    have hc1 : (resume (symbolStep s)).cursor.toNat = s.cursor.toNat + 1 := by
      change ((symbolStep s).cursor + 1).toNat = _
      rw [hcur]; exact cursor_succ h1
    rcases ih (by rw [hl, hc1]; omega) with ⟨a1, a2, a3, a4, a5, a6⟩ | ⟨a1, a2, a3, a4, a5, a6, a7, a8, a9⟩
    · exact Or.inl ⟨a1, by rw [a2, hl], a3.trans hdis, a4.trans hor, a5, fun _ => a6 (Or.inr rfl)⟩
    · refine Or.inr ⟨a1, a2, by omega, by rw [hl] at a4; exact a4, a5, a6, ?_, a8.trans hdone,
        fun h => a9 ((congrArg BitVec.toNat hdis).trans h)⟩
      rw [a7]; exact congrArg (fun d : Word => sat32 (d.toNat + 1)) hdis

/-- A run keeps R26 on `bb[0]` and raises warnings only (R129, R211). -/
theorem RunLoop.keeps {s t : State} (h : RunLoop s t) : Logged.Keeps s.cfg (s.bb0, s.flags) (t.bb0, t.flags) := by
  induction h with
  | finish h1 => exact Logged.Keeps.refl _
  | @symbol s t h1 h2 _ ih =>
    obtain ⟨hf, -, -, -, -, hg, hw⟩ := symbolStep_frame s
    have hcfg : (advance (symbolStep s)).cfg = s.cfg := hf.cfg
    rw [hcfg] at ih
    exact Logged.Keeps.trans (q := ((symbolStep s).bb0, (symbolStep s).flags)) ⟨hg, hw⟩ ih
  | @message s h1 h2 h3 =>
    obtain ⟨hf, -, -, -, -, hg, hw⟩ := symbolStep_frame s
    exact Logged.Keeps.trans (q := ((symbolStep s).bb0, (symbolStep s).flags)) ⟨hg, hw⟩
      (by
        simp only [dispatch_bb0, dispatch_flags]
        exact ⟨fun _ => id, Warns.raiseIf (Or.inr (Or.inr (Or.inr (Or.inr rfl)))) _ _⟩)
  | @silence s t h1 h2 h3 _ ih =>
    obtain ⟨hf, -, -, -, -, hg, hw⟩ := symbolStep_frame s
    have hcfg : (resume (symbolStep s)).cfg = s.cfg := hf.cfg
    rw [hcfg] at ih
    exact ⟨fun hc _ => ih.1 hc empty_good, hw.trans ih.2⟩

end Sys2Proof.Machine
end

