-- ==== Sys2Proof/Laws/Calibration.lean ====
section
/-! SUPPORT. The calibration of PCM: what the loops of R236 and R237 compute, in the terms of Safety.lean. -/

namespace Sys2Proof.Machine

/-! ### Rounding and matching -/

/-- Round half up (R12): the result `k` is the integer with `2k - 1 ≤ 2 x num / den < 2k + 1`. -/
theorem rhu_spec (x : Nat) (f : Fraction) (h : 0 < f.den) :
    ((2 * rhu x f : Int) - 1) * f.den ≤ 2 * (x * f.num) ∧ 2 * (x * f.num) < (2 * rhu x f + 1) * f.den := by
  have h1 := Nat.div_add_mod (2 * x * f.num + f.den) (2 * f.den)
  have h2 := Nat.mod_lt (2 * x * f.num + f.den) (show 0 < 2 * f.den by omega)
  have e : rhu x f = (2 * x * f.num + f.den) / (2 * f.den) := rfl
  rw [← e] at h1
  generalize rhu x f = k at *
  generalize (2 * x * f.num + f.den) % (2 * f.den) = m at *
  constructor
  · zify at h1 h2; nlinarith
  · zify at h1 h2 ⊢; nlinarith

/-- The latches of a run and what its calibration read say the same (R235). -/
structure SameNominal (q : PcmNominal) (l : Latches) : Prop where
  nrz    : q.nrz = l.nrz
  sShort : q.sShort = l.sShort
  sLong  : q.sLong = l.sLong
  tolEff : q.tolEff = l.tolEff

theorem sameNominal_pcmLatches (c : Params) (spec : ModSpec) (pt : PulseTrain) (l : Latches) :
    SameNominal (pcmNominal c spec pt.sampleRate l) (pcmLatches c spec pt l) := ⟨rfl, rfl, rfl, rfl⟩

theorem SameNominal.matchSymbol_iff {q : PcmNominal} {l : Latches} (h : SameNominal q l) (pt : PulseTrain) (n : Nat) :
    matchSymbol q pt n = true ↔ PcmMatches l pt n := by
  obtain ⟨h1, h2, h3, h4⟩ := h
  simp only [matchSymbol, matchNrz, matchRz, PcmMatches, dist_eq_natAbs, h1, h2, h3, h4]
  cases l.nrz <;> simp

/-! ### One run of matching symbols -/

/-- The inner loop of R236, with enough fuel: it stops at the first symbol from `m.n` on that does not match, and has added up the
symbols before it. -/
theorem matchRun_spec (q : PcmNominal) (pt : PulseTrain) (stop fuel : Nat) (m : MatchRun) (hf : stop ≤ m.n + fuel)
    (hn : m.n ≤ stop) :
    let r := matchRun q pt stop fuel m
    m.n ≤ r.n ∧ r.n ≤ stop ∧ (∀ i, m.n ≤ i → i < r.n → matchSymbol q pt i = true) ∧
    (r.n = stop ∨ matchSymbol q pt r.n = false) ∧ r.sp = m.sp + pulseSum pt (Finset.Ico m.n r.n) ∧
    r.sb = m.sb + periodSum pt (Finset.Ico m.n r.n) ∧ r.c = m.c + (if q.nrz then 2 else 1) * (r.n - m.n) := by
  induction fuel generalizing m with
  | zero =>
    have h1 : m.n = stop := by omega
    exact ⟨le_rfl, hn, fun i h2 h3 => absurd h3 (by simp only [matchRun]; omega), Or.inl h1, by simp [matchRun, pulseSum],
      by simp [matchRun, periodSum], by simp [matchRun]⟩
  | succ fuel ih =>
    simp only [matchRun]
    split
    · rename_i h
      obtain ⟨a1, a2, a3, a4, a5, a6, a7⟩ := ih ⟨m.sp + pt.p m.n, m.sb + pt.p m.n + pt.g m.n, m.c + (if q.nrz then 2 else 1),
        m.n + 1⟩ (by simp only; omega) (by simp only; omega)
      generalize matchRun q pt stop fuel _ = r at a1 a2 a3 a4 a5 a6 a7
      simp only at a1 a2 a3 a4 a5 a6 a7
      have hI : Finset.Ico m.n r.n = insert m.n (Finset.Ico (m.n + 1) r.n) := by
        ext i; simp only [Finset.mem_insert, Finset.mem_Ico]; omega
      refine ⟨by omega, a2, fun i h1 h2 => ?_, a4, ?_, ?_, ?_⟩
      · rcases Nat.eq_or_lt_of_le h1 with h3 | h3
        · rw [← h3]; exact h.2
        · exact a3 i h3 h2
      · rw [a5, hI, pulseSum, pulseSum, Finset.sum_insert (by simp)]; omega
      · rw [a6, hI, periodSum, periodSum, Finset.sum_insert (by simp)]; omega
      · obtain ⟨d, hd⟩ : ∃ d, r.n = m.n + 1 + d := ⟨r.n - (m.n + 1), by omega⟩
        rw [a7, hd, show m.n + 1 + d - m.n = d + 1 by omega, show m.n + 1 + d - (m.n + 1) = d by omega, Nat.mul_succ]
        omega
    · rename_i h
      refine ⟨le_rfl, hn, fun i h2 h3 => absurd h3 (by omega), ?_, by simp [pulseSum], by simp [periodSum], by simp⟩
      by_cases h1 : m.n = stop
      · exact Or.inl h1
      · exact Or.inr (by simpa [show m.n < stop by omega] using h)

/-! ### The first pass -/

/-- The estimate R236 takes over from the run `a` to `b - 1`. -/
def preambleEstimate (l : Latches) (pt : PulseTrain) (a b : Nat) : Estimate :=
  let k := bitWeight l * (b - a)
  ⟨⟨k, if l.nrz then periodSum pt (Finset.Ico a b) else pulseSum pt (Finset.Ico a b)⟩, ⟨k, periodSum pt (Finset.Ico a b)⟩, k, k⟩

/-- The run `a` to `b - 1` is the longest preamble that begins below `n`, and the last of those. -/
def BestBelow (c : Params) (l : Latches) (pt : PulseTrain) (n a b : Nat) : Prop :=
  Preamble c l pt a b ∧ a < n ∧
    ∀ a' b', Preamble c l pt a' b' → a' < n → b' - a' < b - a ∨ (b' - a' = b - a ∧ a' ≤ a)

/-- What the outer loop of R236 knows at index `n`: no preamble begins below `n` and the estimate is `e0`, or the estimate is that
of the best one. -/
def PassAt (c : Params) (l : Latches) (pt : PulseTrain) (e0 : Estimate) (n : Nat) (e : Estimate) : Prop :=
  (e = e0 ∧ ∀ a b, Preamble c l pt a b → n ≤ a) ∨ ∃ a b, BestBelow c l pt n a b ∧ e = preambleEstimate l pt a b

/-- A maximal run that begins at or after `n`, where a run may begin, and not after `k`, is the run from `n` to `k`. -/
theorem Preamble.eq_run {c : Params} {l : Latches} {pt : PulseTrain} {n k a b : Nat} (h : Preamble c l pt a b)
    (hk : k ≤ l.n.toNat) (hin : ∀ i, n ≤ i → i < k → PcmMatches l pt i) (hend : k = l.n.toNat ∨ ¬ PcmMatches l pt k)
    (hna : n ≤ a) (hak : a ≤ k) : a = n ∧ b = k := by
  have h1 : a < k := by
    rcases Nat.eq_or_lt_of_le hak with h1 | h1
    · have h2 := h.nonempty
      have h3 := h.inTrain
      rcases hend with h4 | h4
      · omega
      · exact absurd (h.inside k (by omega) (by omega)) h4
    · exact h1
  have h2 : a = n := by
    rcases h.left with h3 | h3
    · omega
    · by_contra h4
      exact h3 (hin (a - 1) (by omega) (by omega))
  refine ⟨h2, ?_⟩
  rcases Nat.lt_trichotomy b k with h3 | h3 | h3
  · have h5 := h.nonempty
    rcases h.right with h4 | h4
    · omega
    · exact absurd (hin b (by omega) h3) h4
  · exact h3
  · have h5 := h.inTrain
    rcases hend with h4 | h4
    · omega
    · exact absurd (h.inside k (by omega) h3) h4

/-- One round of the outer loop. -/
theorem PassAt.round {c : Params} {l : Latches} {pt : PulseTrain} {e0 e : Estimate} {n : Nat} {m : MatchRun}
    (hmin : e0.minc = c.pcmPreambleMin) (h : PassAt c l pt e0 n e) (hleft : n = 0 ∨ ¬ PcmMatches l pt (n - 1))
    (hnk : n ≤ m.n) (hk : m.n ≤ l.n.toNat) (hin : ∀ i, n ≤ i → i < m.n → PcmMatches l pt i)
    (hend : m.n = l.n.toNat ∨ ¬ PcmMatches l pt m.n) (hsp : m.sp = pulseSum pt (Finset.Ico n m.n))
    (hsb : m.sb = periodSum pt (Finset.Ico n m.n)) (hc : m.c = bitWeight l * (m.n - n)) :
    PassAt c l pt e0 (m.n + 1) (e.consider l.nrz m) := by
  have hw : 0 < bitWeight l := by unfold bitWeight; split <;> omega
  have hlt : 0 < m.sp → n < m.n := by
    intro h1
    by_contra h2
    rw [hsp, Finset.Ico_eq_empty (by omega)] at h1
    simp [pulseSum] at h1
  have hpre : c.pcmPreambleMin ≤ m.c → 0 < m.sp → 0 < m.sb → Preamble c l pt n m.n := fun h1 h2 h3 =>
    ⟨hlt h2, hk, hin, hleft, hend, by rw [← hc]; exact h1, by rw [← hsp]; exact h2, by rw [← hsb]; exact h3⟩
  have hnew : ∀ a b, Preamble c l pt a b → a < m.n + 1 → n ≤ a → a = n ∧ b = m.n := fun a b h1 h2 h3 =>
    h1.eq_run hk hin hend h3 (by omega)
  have hest : e.minc ≤ m.c ∧ 0 < m.sp ∧ 0 < m.sb → e.consider l.nrz m = preambleEstimate l pt n m.n := by
    intro h1
    rw [Estimate.consider, if_pos h1, preambleEstimate, hc, hsp, hsb]
    cases l.nrz <;> rfl
  rcases h with ⟨rfl, hno⟩ | ⟨a, b, ⟨hp, han, hbest⟩, rfl⟩
  · by_cases hq : e.minc ≤ m.c ∧ 0 < m.sp ∧ 0 < m.sb
    · refine Or.inr ⟨n, m.n, ⟨hpre (by rw [← hmin]; exact hq.1) hq.2.1 hq.2.2, by omega, fun a' b' h1 h2 => ?_⟩, hest hq⟩
      obtain ⟨rfl, rfl⟩ := hnew a' b' h1 h2 (hno a' b' h1)
      exact Or.inr ⟨rfl, le_rfl⟩
    · refine Or.inl ⟨by simp only [Estimate.consider, if_neg hq], fun a b h1 => ?_⟩
      by_contra h2
      obtain ⟨rfl, rfl⟩ := hnew a b h1 (by omega) (hno a b h1)
      exact hq ⟨by rw [hmin, hc]; exact h1.long, by rw [hsp]; exact h1.pulses, by rw [hsb]; exact h1.periods⟩
  · by_cases hq : (preambleEstimate l pt a b).minc ≤ m.c ∧ 0 < m.sp ∧ 0 < m.sb
    · have h0 : b - a ≤ m.n - n := by
        have h1 : bitWeight l * (b - a) ≤ bitWeight l * (m.n - n) := by rw [← hc]; exact hq.1
        exact Nat.le_of_mul_le_mul_left h1 hw
      refine Or.inr ⟨n, m.n, ⟨hpre (le_trans hp.long hq.1) hq.2.1 hq.2.2, by omega, fun a' b' h1 h2 => ?_⟩, hest hq⟩
      by_cases h3 : n ≤ a'
      · obtain ⟨rfl, rfl⟩ := hnew a' b' h1 h2 h3
        exact Or.inr ⟨rfl, le_rfl⟩
      · rcases hbest a' b' h1 (by omega) with h4 | h4 <;> omega
    · refine Or.inr ⟨a, b, ⟨hp, by omega, fun a' b' h1 h2 => ?_⟩, by simp only [Estimate.consider, if_neg hq]⟩
      by_cases h3 : n ≤ a'
      · obtain ⟨rfl, rfl⟩ := hnew a' b' h1 h2 h3
        have h4 : ¬ (preambleEstimate l pt a b).minc ≤ m.c := fun h5 =>
          hq ⟨h5, by rw [hsp]; exact h1.pulses, by rw [hsb]; exact h1.periods⟩
        left
        by_contra h6
        refine h4 ?_
        rw [hc]
        exact Nat.mul_le_mul_left _ (by omega)
      · exact hbest a' b' h1 (by omega)

/-- No run begins at or after the end of the train. -/
theorem PassAt.atEnd {c : Params} {l : Latches} {pt : PulseTrain} {e0 e : Estimate} {n : Nat} (h : PassAt c l pt e0 n e)
    (hn : l.n.toNat ≤ n) : PassAt c l pt e0 l.n.toNat e := by
  rcases h with ⟨h1, h2⟩ | ⟨a, b, ⟨h1, h2, h3⟩, h4⟩
  · exact Or.inl ⟨h1, fun a b h => hn.trans (h2 a b h)⟩
  · exact Or.inr ⟨a, b, ⟨h1, lt_of_lt_of_le h1.nonempty h1.inTrain, fun a' b' h5 h6 => h3 a' b' h5 (h6.trans_le hn)⟩, h4⟩

/-- The outer loop of R236, from any index it can stand at. -/
theorem preamblePass_spec {c : Params} {q : PcmNominal} {l : Latches} (hq : SameNominal q l) (pt : PulseTrain) {e0 : Estimate}
    (hmin : e0.minc = c.pcmPreambleMin) (fuel n : Nat) (e : Estimate) (hf : l.n.toNat ≤ n + fuel)
    (h : PassAt c l pt e0 n e) (hleft : n = 0 ∨ l.n.toNat < n ∨ ¬ PcmMatches l pt (n - 1)) :
    PassAt c l pt e0 l.n.toNat (preamblePass q pt l.n.toNat fuel n e) := by
  induction fuel generalizing n e with
  | zero => exact h.atEnd (by omega)
  | succ fuel ih =>
    simp only [preamblePass]
    split
    · rename_i hlt
      obtain ⟨a1, a2, a3, a4, a5, a6, a7⟩ := matchRun_spec q pt l.n.toNat (l.n.toNat - n) ⟨0, 0, 0, n⟩
        (by simp only; omega) (by simp only; omega)
      generalize matchRun q pt l.n.toNat (l.n.toNat - n) ⟨0, 0, 0, n⟩ = m at a1 a2 a3 a4 a5 a6 a7
      simp only at a1 a2 a3 a4 a5 a6 a7
      have hend : m.n = l.n.toNat ∨ ¬ PcmMatches l pt m.n := by
        rcases a4 with h1 | h1
        · exact Or.inl h1
        · exact Or.inr (fun h2 => by rw [(hq.matchSymbol_iff pt m.n).2 h2] at h1; cases h1)
      have hr : PassAt c l pt e0 (m.n + 1) (e.consider l.nrz m) := by
        refine h.round hmin (by omega) a1 a2 (fun i h1 h2 => (hq.matchSymbol_iff pt i).1 (a3 i h1 h2)) hend
          (by omega) (by omega) ?_
        rw [a7, hq.nrz]; simp [bitWeight]
      rw [hq.nrz]
      refine ih (m.n + 1) _ (by omega) hr ?_
      rcases hend with h1 | h1
      · exact Or.inr (Or.inl (by omega))
      · exact Or.inr (Or.inr (by simpa using h1))
    · exact h.atEnd (by omega)

/-! ### The second pass -/

/-- The sums of the RZ fallback are those over all matching symbols (R237). -/
theorem fallbackRzSums_spec (q : PcmNominal) (pt : PulseTrain) (stop : Nat) :
    let m := fallbackRzSums q pt stop
    let f := (Finset.range stop).filter (fun n => matchRz q pt n = true)
    m.sp = pulseSum pt f ∧ m.sb = periodSum pt f ∧ m.c = f.card := by
  simp only [fallbackRzSums]
  refine upTo_induction (motive := fun k (m : MatchRun) => let f := (Finset.range k).filter (fun n => matchRz q pt n = true)
    m.sp = pulseSum pt f ∧ m.sb = periodSum pt f ∧ m.c = f.card) (by simp [pulseSum, periodSum]) ?_
  intro i y _ h
  obtain ⟨h1, h2, h3⟩ := h
  simp only [Finset.range_add_one, Finset.filter_insert]
  split
  · rename_i hm
    simp only [pulseSum, periodSum] at h1 h2 ⊢
    rw [Finset.sum_insert (by simp), Finset.sum_insert (by simp), Finset.card_insert_of_notMem (by simp)]
    omega
  · exact ⟨h1, h2, h3⟩

/-- The sums of the NRZ fallback, symbol by symbol (R237). -/
theorem fallbackNrzSums_spec (q : PcmNominal) (pt : PulseTrain) (stop : Nat) :
    fallbackNrzSums q pt stop =
      (∑ i ∈ Finset.range stop, (pulseEquiv q (pt.p i) + gapEquiv q (pt.g i)),
       ∑ i ∈ Finset.range stop, ((if pulseEquiv q (pt.p i) = 0 then 0 else pt.p i) +
        (if gapEquiv q (pt.g i) = 0 then 0 else pt.g i))) := by
  simp only [fallbackNrzSums]
  refine upTo_induction (motive := fun k (a : Nat × Nat) => a =
      (∑ i ∈ Finset.range k, (pulseEquiv q (pt.p i) + gapEquiv q (pt.g i)),
       ∑ i ∈ Finset.range k, ((if pulseEquiv q (pt.p i) = 0 then 0 else pt.p i) +
        (if gapEquiv q (pt.g i) = 0 then 0 else pt.g i)))) (by simp) ?_
  rintro i y _ rfl
  simp only [Finset.sum_range_succ]
  rw [Prod.mk.injEq]
  constructor <;> omega

/-! ### Bounds (R238) -/

/-- "A mean lies between the extremes" (R238), here a weighted one. -/
theorem mean_within {a : Finset Nat} {x w : Nat → Nat} {lo hi : ℚ}
    (h : ∀ i ∈ a, lo * w i ≤ (x i : ℚ) ∧ (x i : ℚ) ≤ hi * w i) (hw : 0 < ∑ i ∈ a, w i) :
    lo ≤ ((∑ i ∈ a, x i : ℕ) : ℚ) / (∑ i ∈ a, w i : ℕ) ∧ ((∑ i ∈ a, x i : ℕ) : ℚ) / (∑ i ∈ a, w i : ℕ) ≤ hi := by
  have h0 : (0 : ℚ) < ((∑ i ∈ a, w i : ℕ) : ℚ) := by exact_mod_cast hw
  rw [le_div_iff₀ h0, div_le_iff₀ h0]
  push_cast
  rw [Finset.mul_sum, Finset.mul_sum]
  exact ⟨Finset.sum_le_sum fun i hi => (h i hi).1, Finset.sum_le_sum fun i hi => (h i hi).2⟩

end Sys2Proof.Machine
end

