-- ==== Sys2Proof/Laws/Decode.lean ====
section
/-! SUPPORT. The columns of a command word (R91): the bits of a packed word, and what splitting a packed word gives. -/

namespace Sys2Proof

/-- The bits of a packed word, column by column (R91). -/
theorem packWord_getLsbD (opc a b : BitVec 8) (buf bit : Bool) (i : Nat) :
    (packWord opc a b buf bit).getLsbD i =
      if i = 0 then bit else if i = 1 then buf else if i < 8 then false else if i < 16 then b.getLsbD (i - 8)
      else if i < 24 then a.getLsbD (i - 16) else opc.getLsbD (i - 24) := by
  simp only [packWord, BitVec.getLsbD_append, BitVec.getLsbD_zero, BitVec.getLsbD_ofBool]
  split_ifs <;> first | omega | rfl | simp_all

@[simp] theorem bufOfBit_bitOfBuf (b : Buf) : bufOfBit (bitOfBuf b) = b := by cases b <;> rfl
@[simp] theorem bitOfBuf_bufOfBit (v : Bool) : bitOfBuf (bufOfBit v) = v := by cases v <;> rfl

/-- Splitting a packed word gives back what was packed (R91, R92). -/
theorem fieldsOf_packWord (opc a b : BitVec 8) (buf : Buf) (bit : Bool) :
    fieldsOf (packWord opc a b (bitOfBuf buf) bit) = ⟨opc, a.toNat, b.toNat, buf, bit⟩ := by
  have h1 : (packWord opc a b (bitOfBuf buf) bit).extractLsb' 24 8 = opc := by
    apply BitVec.eq_of_getLsbD_eq
    intro i hi
    simp only [BitVec.getLsbD_extractLsb', hi, decide_true, Bool.true_and, packWord_getLsbD]
    rw [if_neg (by omega), if_neg (by omega), if_neg (by omega), if_neg (by omega), if_neg (by omega)]
    congr 1; omega
  have h2 : (packWord opc a b (bitOfBuf buf) bit).extractLsb' 16 8 = a := by
    apply BitVec.eq_of_getLsbD_eq
    intro i hi
    simp only [BitVec.getLsbD_extractLsb', hi, decide_true, Bool.true_and, packWord_getLsbD]
    rw [if_neg (by omega), if_neg (by omega), if_neg (by omega), if_neg (by omega), if_pos (by omega)]
    congr 1; omega
  have h3 : (packWord opc a b (bitOfBuf buf) bit).extractLsb' 8 8 = b := by
    apply BitVec.eq_of_getLsbD_eq
    intro i hi
    simp only [BitVec.getLsbD_extractLsb', hi, decide_true, Bool.true_and, packWord_getLsbD]
    rw [if_neg (by omega), if_neg (by omega), if_neg (by omega), if_pos (by omega)]
    congr 1; omega
  have h4 : (packWord opc a b (bitOfBuf buf) bit).getLsbD 1 = bitOfBuf buf := by
    rw [packWord_getLsbD, if_neg (by omega), if_pos rfl]
  have h5 : (packWord opc a b (bitOfBuf buf) bit).getLsbD 0 = bit := by rw [packWord_getLsbD, if_pos rfl]
  simp only [fieldsOf, h1, h2, h3, h4, h5, bufOfBit_bitOfBuf]

/-- A mask applied to a packed word, column by column: every mask of R95 covers OPC and Z. -/
theorem packWord_and_mask (opc a b ma mb : BitVec 8) (buf bit mbuf mbit : Bool) :
    packWord opc a b buf bit &&& (packWord 0xFF ma mb mbuf mbit ||| 0xFC) =
      packWord opc (a &&& ma) (b &&& mb) (buf && mbuf) (bit && mbit) := by
  apply BitVec.eq_of_getLsbD_eq
  intro i hi
  simp only [BitVec.getLsbD_and, BitVec.getLsbD_or, packWord_getLsbD]
  have h255 : ∀ j : Fin 8, (0xFF : BitVec 8).getLsbD j.1 = true := by decide
  have h252 : ∀ j : Fin 32, (0xFC : BitVec 32).getLsbD j.1 = decide (2 ≤ j.1 ∧ j.1 < 8) := by decide
  rw [h252 ⟨i, hi⟩]
  simp only
  split_ifs with h1 h2 h3 h4 h5
  · subst h1; simp
  · subst h2; simp
  · simp
  · have : ¬(2 ≤ i ∧ i < 8) := by omega
    simp only [this, decide_false, Bool.or_false]
  · have : ¬(2 ≤ i ∧ i < 8) := by omega
    simp only [this, decide_false, Bool.or_false]
  · rw [h255 ⟨i - 24, by omega⟩]; simp

/-- Every word is its columns and its Z bits (R91). -/
theorem word_columns (w : Word) :
    w = packWord (w.extractLsb' 24 8) (w.extractLsb' 16 8) (w.extractLsb' 8 8) (w.getLsbD 1) (w.getLsbD 0) ||| (w &&& 0xFC) := by
  apply BitVec.eq_of_getLsbD_eq
  intro i hi
  simp only [BitVec.getLsbD_or, BitVec.getLsbD_and, packWord_getLsbD, BitVec.getLsbD_extractLsb']
  have h252 : ∀ j : Fin 32, (0xFC : BitVec 32).getLsbD j.1 = decide (2 ≤ j.1 ∧ j.1 < 8) := by decide
  rw [h252 ⟨i, hi⟩]
  split_ifs with h1 h2 h3 h4 h5
  · subst h1; simp
  · subst h2; simp
  · simp [h3]; omega
  · have e1 : 8 + (i - 8) = i := by omega
    have e2 : i - 8 < 8 := by omega
    simp [e1, e2]; omega
  · have e1 : 16 + (i - 16) = i := by omega
    have e2 : i - 16 < 8 := by omega
    simp [e1, e2]
    omega
  · have e1 : 24 + (i - 24) = i := by omega
    have e2 : i - 24 < 8 := by omega
    simp [e1, e2]
    omega

end Sys2Proof
end

