-- ==== Sys2Proof/Laws/Exec.lean ====
section
/-! SUPPORT. Every arm of `exec` as the one form all commands share, `command class check effect` (R291, R293), and the entry of a
run field by field. -/

namespace Sys2Proof.Machine

/-! ### The arms -/

theorem exec_bbClear (b : Buf) (s : State) : exec (.bbClear b) s =
    command .buffer true (fun t => t.setBb b BitBuffer.empty) s := rfl
theorem exec_bbAddBit (b : Buf) (v : Bool) (s : State) : exec (.bbAddBit b v) s =
    command .buffer true (fun t => t.onBuffer b (Logged.addBit t.cfg v)) s := rfl
theorem exec_bbAddRow (b : Buf) (s : State) : exec (.bbAddRow b) s =
    command .buffer true (fun t => t.onBuffer b (Logged.addRow t.cfg)) s := rfl
theorem exec_bbAddSync (b : Buf) (s : State) : exec (.bbAddSync b) s =
    command .buffer true (fun t => t.onBuffer b (Logged.addSync t.cfg)) s := rfl
theorem exec_bbInvert (b : Buf) (s : State) : exec (.bbInvert b) s =
    command .buffer true (fun t => t.setBb b ((t.bb b).mapBits t.cfg (fun cur _ => !cur))) s := rfl
theorem exec_bbNrzs (b : Buf) (s : State) : exec (.bbNrzs b) s =
    command .buffer true (fun t => t.setBb b ((t.bb b).mapBits t.cfg (fun cur prev => !(cur ^^ prev)))) s := rfl
theorem exec_bbNrzm (b : Buf) (s : State) : exec (.bbNrzm b) s =
    command .buffer true (fun t => t.setBb b ((t.bb b).mapBits t.cfg (fun cur prev => cur ^^ prev))) s := rfl
theorem exec_bbExtract (b : Buf) (row : Nat) (s : State) : exec (.bbExtract b row) s =
    command .buffer (rowInRange s.cfg row) (fun t =>
      ((t.raiseWhen (decide (xcapBits t.cfg < t.argNat1)) .wXtrunc).setXbuf
        (upTo (bytesFor (extractLen t)) (fun j m => m.write j ((t.bb b).runByte t.cfg row t.argNat0 (extractLen t) j))
          t.xbuf)).setRes0 (resultWord (extractLen t))) s := rfl
theorem exec_bbSearch (b : Buf) (row : Nat) (s : State) : exec (.bbSearch b row) s =
    command .buffer (rowInRange s.cfg row && decide (s.argNat1 ≤ xcapBits s.cfg)) (fun t =>
      t.setRes0 (resultWord (searchResult t.cfg (t.bb b) t.pat row t.argNat0 t.argNat1))) s := rfl
theorem exec_bbCmpRows (b : Buf) (ra rb : Nat) (s : State) : exec (.bbCmpRows b ra rb) s =
    command .buffer (rowInRange s.cfg ra && rowInRange s.cfg rb) (fun t =>
      t.setRes0 (if (t.bb b).cmp t.cfg ra rb t.argNat0 then 1 else 0)) s := rfl
theorem exec_bbCntRep (b : Buf) (row : Nat) (s : State) : exec (.bbCntRep b row) s =
    command .buffer (rowInRange s.cfg row) (fun t =>
      t.setRes0 (resultWord ((t.bb b).matchCount t.cfg row t.argNat0))) s := rfl
theorem exec_bbFindRow (b : Buf) (s : State) : exec (.bbFindRow b) s =
    command .buffer true (fun t =>
      t.setRes0 (rowOrNone ((t.bb b).findRepeated t.cfg t.argNat0 t.argNat1 0))) s := rfl
theorem exec_bbFindPfx (b : Buf) (s : State) : exec (.bbFindPfx b) s =
    command .buffer true (fun t =>
      t.setRes0 (rowOrNone ((t.bb b).findRepeated t.cfg t.argNat0 t.argNat1 t.argNat1))) s := rfl
theorem exec_ldManch (b : Buf) (row : Nat) (s : State) : exec (.ldManch b row) s =
    command .buffer (rowInRange s.cfg row) (fun t =>
      storeLine b (manchLoop t.cfg ((t.bb b).bit t.cfg row) (lineInputEnd t b row) ((t.bb b).len row) (lineStart t b)) t) s := rfl
theorem exec_ldDmanch (b : Buf) (row : Nat) (s : State) : exec (.ldDmanch b row) s =
    command .buffer (rowInRange s.cfg row) (fun t =>
      storeLine b (dmanchLoop t.cfg ((t.bb b).bit t.cfg row) (lineInputEnd t b row) ((t.bb b).len row) (lineStart t b)) t) s := rfl
theorem exec_dmRun (s : State) : exec .dmRun s =
    command .start true (fun t => runEntry (entryE1 (t.setDone false))) s := rfl
theorem exec_dmSinkRet (s : State) : exec .dmSinkRet s =
    command .sinkReturn true (fun t =>
      if t.sinkStatus < t.cfg.failMin then raiseFatal t.arg0 (t.setDone false) else sinkReturn (t.setDone false)) s := rfl
theorem exec_dmString (s : State) : exec .dmString s =
    command .start true (fun t => dispatch .string (((t.setEvents 0).setDispatches 0).setCursor 0)) s := rfl

/-- An accepted buffer command whose operands are in range has its effect (R291). -/
theorem buffer_command {s : State} (h : s.AcceptsBuffer) {effect : State → State} {ok : Bool} (hok : ok = true) :
    command .buffer ok effect s = .next (effect s) := command_executes (verdict_buffer h) hok

/-- Every command is of the form `command class check effect`. -/
theorem exec_is_command (i : Instr) (s : State) : ∃ cls ok effect, exec i s = command cls ok effect s := by
  cases i
  · exact ⟨_, _, _, exec_bbClear _ s⟩
  · exact ⟨_, _, _, exec_bbAddBit _ _ s⟩
  · exact ⟨_, _, _, exec_bbAddRow _ s⟩
  · exact ⟨_, _, _, exec_bbAddSync _ s⟩
  · exact ⟨_, _, _, exec_bbInvert _ s⟩
  · exact ⟨_, _, _, exec_bbNrzs _ s⟩
  · exact ⟨_, _, _, exec_bbNrzm _ s⟩
  · exact ⟨_, _, _, exec_bbExtract _ _ s⟩
  · exact ⟨_, _, _, exec_bbSearch _ _ s⟩
  · exact ⟨_, _, _, exec_bbCmpRows _ _ _ s⟩
  · exact ⟨_, _, _, exec_bbCntRep _ _ s⟩
  · exact ⟨_, _, _, exec_bbFindRow _ s⟩
  · exact ⟨_, _, _, exec_bbFindPfx _ s⟩
  · exact ⟨_, _, _, exec_ldManch _ _ s⟩
  · exact ⟨_, _, _, exec_ldDmanch _ _ s⟩
  · exact ⟨_, _, _, exec_dmRun s⟩
  · exact ⟨_, _, _, exec_dmSinkRet s⟩
  · exact ⟨_, _, _, exec_dmString s⟩

/-- A command answers a next state from every state. -/
theorem exec_answers (i : Instr) (s : State) : ∃ t, exec i s = .next t := by
  obtain ⟨cls, ok, effect, h⟩ := exec_is_command i s
  rw [h]
  rcases command_cases cls ok effect s with ⟨_, _, e⟩ | ⟨_, _, e⟩ | ⟨_, e⟩ | ⟨_, e⟩ <;> exact ⟨_, e⟩

/-- DM_SINKRET with a legal status, in DISPATCH (R214). -/
theorem sinkRet_legal {s : State} (h : s.phase = .dispatch) (ha : s.cfg.failMin ≤ s.arg0.toInt) :
    exec .dmSinkRet s = .next (sinkReturn (s.setDone false)) := by
  rw [exec_dmSinkRet, command_executes (by rw [h]; rfl) rfl, if_neg]
  simp only [State.sinkStatus]; omega

/-! ### The entry of a run -/

@[simp] theorem entryE1_cfg (s : State) : (entryE1 s).cfg = s.cfg := rfl
@[simp] theorem entryE1_bb0 (s : State) : (entryE1 s).bb0 = s.bb0 := rfl
@[simp] theorem entryE1_bb1 (s : State) : (entryE1 s).bb1 = s.bb1 := rfl
@[simp] theorem entryE1_pt (s : State) : (entryE1 s).pt = s.pt := rfl
@[simp] theorem entryE1_spec (s : State) : (entryE1 s).spec = s.spec := rfl
@[simp] theorem entryE1_arg0 (s : State) : (entryE1 s).arg0 = s.arg0 := rfl
@[simp] theorem entryE1_arg1 (s : State) : (entryE1 s).arg1 = s.arg1 := rfl
@[simp] theorem entryE1_res0 (s : State) : (entryE1 s).res0 = s.res0 := rfl
@[simp] theorem entryE1_res1 (s : State) : (entryE1 s).res1 = s.res1 := rfl
@[simp] theorem entryE1_pat (s : State) : (entryE1 s).pat = s.pat := rfl
@[simp] theorem entryE1_xbuf (s : State) : (entryE1 s).xbuf = s.xbuf := rfl
@[simp] theorem entryE1_flags (s : State) : (entryE1 s).flags = s.flags := rfl
@[simp] theorem entryE1_phase (s : State) : (entryE1 s).phase = s.phase := rfl
@[simp] theorem entryE1_cursor (s : State) : (entryE1 s).cursor = 0 := rfl
@[simp] theorem entryE1_events (s : State) : (entryE1 s).events = 0 := rfl
@[simp] theorem entryE1_dispatches (s : State) : (entryE1 s).dispatches = 0 := rfl
@[simp] theorem entryE1_statFail (s : State) : (entryE1 s).statFail = s.statFail := rfl
@[simp] theorem entryE1_origin (s : State) : (entryE1 s).origin = .run := rfl
@[simp] theorem entryE1_lat (s : State) : (entryE1 s).lat = s.lat := rfl
@[simp] theorem entryE1_pending (s : State) : (entryE1 s).pending = s.pending := rfl
@[simp] theorem entryE1_rdata (s : State) : (entryE1 s).rdata = s.rdata := rfl
@[simp] theorem entryE1_done (s : State) : (entryE1 s).done = s.done := rfl

@[simp] theorem entryE3_cfg (k : DemodKind) (s : State) : (entryE3 k s).cfg = s.cfg := rfl
@[simp] theorem entryE3_bb0 (k : DemodKind) (s : State) : (entryE3 k s).bb0 = s.bb0 := rfl
@[simp] theorem entryE3_bb1 (k : DemodKind) (s : State) : (entryE3 k s).bb1 = s.bb1 := rfl
@[simp] theorem entryE3_pt (k : DemodKind) (s : State) : (entryE3 k s).pt = s.pt := rfl
@[simp] theorem entryE3_spec (k : DemodKind) (s : State) : (entryE3 k s).spec = s.spec := rfl
@[simp] theorem entryE3_arg0 (k : DemodKind) (s : State) : (entryE3 k s).arg0 = s.arg0 := rfl
@[simp] theorem entryE3_arg1 (k : DemodKind) (s : State) : (entryE3 k s).arg1 = s.arg1 := rfl
@[simp] theorem entryE3_res0 (k : DemodKind) (s : State) : (entryE3 k s).res0 = s.res0 := rfl
@[simp] theorem entryE3_res1 (k : DemodKind) (s : State) : (entryE3 k s).res1 = s.res1 := rfl
@[simp] theorem entryE3_pat (k : DemodKind) (s : State) : (entryE3 k s).pat = s.pat := rfl
@[simp] theorem entryE3_xbuf (k : DemodKind) (s : State) : (entryE3 k s).xbuf = s.xbuf := rfl
@[simp] theorem entryE3_flags (k : DemodKind) (s : State) : (entryE3 k s).flags = s.flags := rfl
@[simp] theorem entryE3_phase (k : DemodKind) (s : State) : (entryE3 k s).phase = s.phase := rfl
@[simp] theorem entryE3_cursor (k : DemodKind) (s : State) : (entryE3 k s).cursor = s.cursor := rfl
@[simp] theorem entryE3_events (k : DemodKind) (s : State) : (entryE3 k s).events = s.events := rfl
@[simp] theorem entryE3_dispatches (k : DemodKind) (s : State) : (entryE3 k s).dispatches = s.dispatches := rfl
@[simp] theorem entryE3_statFail (k : DemodKind) (s : State) : (entryE3 k s).statFail = s.statFail := rfl
@[simp] theorem entryE3_origin (k : DemodKind) (s : State) : (entryE3 k s).origin = s.origin := rfl
@[simp] theorem entryE3_pending (k : DemodKind) (s : State) : (entryE3 k s).pending = s.pending := rfl
@[simp] theorem entryE3_rdata (k : DemodKind) (s : State) : (entryE3 k s).rdata = s.rdata := rfl
@[simp] theorem entryE3_done (k : DemodKind) (s : State) : (entryE3 k s).done = s.done := rfl

@[simp] theorem abortRun_cfg (f : Flag) (s : State) : (abortRun f s).cfg = s.cfg := rfl
@[simp] theorem abortRun_bb0 (f : Flag) (s : State) : (abortRun f s).bb0 = s.bb0 := rfl
@[simp] theorem abortRun_bb1 (f : Flag) (s : State) : (abortRun f s).bb1 = s.bb1 := rfl
@[simp] theorem abortRun_pt (f : Flag) (s : State) : (abortRun f s).pt = s.pt := rfl
@[simp] theorem abortRun_spec (f : Flag) (s : State) : (abortRun f s).spec = s.spec := rfl
@[simp] theorem abortRun_arg0 (f : Flag) (s : State) : (abortRun f s).arg0 = s.arg0 := rfl
@[simp] theorem abortRun_arg1 (f : Flag) (s : State) : (abortRun f s).arg1 = s.arg1 := rfl
@[simp] theorem abortRun_res0 (f : Flag) (s : State) : (abortRun f s).res0 = s.res0 := rfl
@[simp] theorem abortRun_res1 (f : Flag) (s : State) : (abortRun f s).res1 = s.res1 := rfl
@[simp] theorem abortRun_pat (f : Flag) (s : State) : (abortRun f s).pat = s.pat := rfl
@[simp] theorem abortRun_xbuf (f : Flag) (s : State) : (abortRun f s).xbuf = s.xbuf := rfl
@[simp] theorem abortRun_flags (f : Flag) (s : State) : (abortRun f s).flags = raiseIn f s.flags := rfl
@[simp] theorem abortRun_phase (f : Flag) (s : State) : (abortRun f s).phase = .idle := rfl
@[simp] theorem abortRun_cursor (f : Flag) (s : State) : (abortRun f s).cursor = s.cursor := rfl
@[simp] theorem abortRun_events (f : Flag) (s : State) : (abortRun f s).events = s.events := rfl
@[simp] theorem abortRun_dispatches (f : Flag) (s : State) : (abortRun f s).dispatches = s.dispatches := rfl
@[simp] theorem abortRun_statFail (f : Flag) (s : State) : (abortRun f s).statFail = s.statFail := rfl
@[simp] theorem abortRun_origin (f : Flag) (s : State) : (abortRun f s).origin = s.origin := rfl
@[simp] theorem abortRun_lat (f : Flag) (s : State) : (abortRun f s).lat = s.lat := rfl
@[simp] theorem abortRun_pending (f : Flag) (s : State) : (abortRun f s).pending = s.pending := rfl
@[simp] theorem abortRun_rdata (f : Flag) (s : State) : (abortRun f s).rdata = s.rdata := rfl
@[simp] theorem abortRun_done (f : Flag) (s : State) : (abortRun f s).done = true := rfl

/-! ### AGGREGATE -/

@[simp] theorem aggregate_cfg (st : Int) (s : State) : (aggregate st s).cfg = s.cfg := by simp only [aggregate]; split <;> rfl
@[simp] theorem aggregate_bb0 (st : Int) (s : State) : (aggregate st s).bb0 = s.bb0 := by simp only [aggregate]; split <;> rfl
@[simp] theorem aggregate_bb1 (st : Int) (s : State) : (aggregate st s).bb1 = s.bb1 := by simp only [aggregate]; split <;> rfl
@[simp] theorem aggregate_pt (st : Int) (s : State) : (aggregate st s).pt = s.pt := by simp only [aggregate]; split <;> rfl
@[simp] theorem aggregate_spec (st : Int) (s : State) : (aggregate st s).spec = s.spec := by simp only [aggregate]; split <;> rfl
@[simp] theorem aggregate_arg0 (st : Int) (s : State) : (aggregate st s).arg0 = s.arg0 := by simp only [aggregate]; split <;> rfl
@[simp] theorem aggregate_arg1 (st : Int) (s : State) : (aggregate st s).arg1 = s.arg1 := by simp only [aggregate]; split <;> rfl
@[simp] theorem aggregate_res0 (st : Int) (s : State) : (aggregate st s).res0 = s.res0 := by simp only [aggregate]; split <;> rfl
@[simp] theorem aggregate_res1 (st : Int) (s : State) : (aggregate st s).res1 = s.res1 := by simp only [aggregate]; split <;> rfl
@[simp] theorem aggregate_pat (st : Int) (s : State) : (aggregate st s).pat = s.pat := by simp only [aggregate]; split <;> rfl
@[simp] theorem aggregate_xbuf (st : Int) (s : State) : (aggregate st s).xbuf = s.xbuf := by simp only [aggregate]; split <;> rfl
@[simp] theorem aggregate_phase (st : Int) (s : State) : (aggregate st s).phase = s.phase := by simp only [aggregate]; split <;> rfl
@[simp] theorem aggregate_cursor (st : Int) (s : State) : (aggregate st s).cursor = s.cursor := by simp only [aggregate]; split <;> rfl
@[simp] theorem aggregate_dispatches (st : Int) (s : State) : (aggregate st s).dispatches = s.dispatches := by simp only [aggregate]; split <;> rfl
@[simp] theorem aggregate_origin (st : Int) (s : State) : (aggregate st s).origin = s.origin := by simp only [aggregate]; split <;> rfl
@[simp] theorem aggregate_lat (st : Int) (s : State) : (aggregate st s).lat = s.lat := by simp only [aggregate]; split <;> rfl
@[simp] theorem aggregate_pending (st : Int) (s : State) : (aggregate st s).pending = s.pending := by simp only [aggregate]; split <;> rfl
@[simp] theorem aggregate_rdata (st : Int) (s : State) : (aggregate st s).rdata = s.rdata := by simp only [aggregate]; split <;> rfl
@[simp] theorem aggregate_done (st : Int) (s : State) : (aggregate st s).done = s.done := by simp only [aggregate]; split <;> rfl

/-- The latches of step E7 keep what E3 latched (R194, R230, R251, R266). -/
theorem demodLatches_scaled (s : State) : (demodLatches s).kind = s.lat.kind ∧ (demodLatches s).n = s.lat.n ∧
    (demodLatches s).sShort = s.lat.sShort ∧ (demodLatches s).sLong = s.lat.sLong ∧ (demodLatches s).sSync = s.lat.sSync ∧
    (demodLatches s).sGap = s.lat.sGap ∧ (demodLatches s).sReset = s.lat.sReset ∧ (demodLatches s).sTol = s.lat.sTol := by
  simp only [demodLatches]
  split
  · exact ⟨rfl, rfl, rfl, rfl, rfl, rfl, rfl, rfl⟩
  · simp only [ppmLatches]; split <;> exact ⟨rfl, rfl, rfl, rfl, rfl, rfl, rfl, rfl⟩
  · simp only [pwmLatches]; split_ifs <;> exact ⟨rfl, rfl, rfl, rfl, rfl, rfl, rfl, rfl⟩

/-! ### The state a run starts from -/

@[simp] theorem entered_cfg (s : State) (k : DemodKind) : (s.entered k).cfg = s.cfg := by
  simp [State.entered]
@[simp] theorem entered_bb0 (s : State) (k : DemodKind) : (s.entered k).bb0 = BitBuffer.empty := by
  simp [State.entered]
@[simp] theorem entered_bb1 (s : State) (k : DemodKind) : (s.entered k).bb1 = s.bb1 := by
  simp [State.entered]
@[simp] theorem entered_pt (s : State) (k : DemodKind) : (s.entered k).pt = s.pt := by
  simp [State.entered]
@[simp] theorem entered_spec (s : State) (k : DemodKind) : (s.entered k).spec = s.spec := by
  simp [State.entered]
@[simp] theorem entered_arg0 (s : State) (k : DemodKind) : (s.entered k).arg0 = s.arg0 := by
  simp [State.entered]
@[simp] theorem entered_arg1 (s : State) (k : DemodKind) : (s.entered k).arg1 = s.arg1 := by
  simp [State.entered]
@[simp] theorem entered_res0 (s : State) (k : DemodKind) : (s.entered k).res0 = s.res0 := by
  simp [State.entered]
@[simp] theorem entered_res1 (s : State) (k : DemodKind) : (s.entered k).res1 = s.res1 := by
  simp [State.entered]
@[simp] theorem entered_pat (s : State) (k : DemodKind) : (s.entered k).pat = s.pat := by
  simp [State.entered]
@[simp] theorem entered_xbuf (s : State) (k : DemodKind) : (s.entered k).xbuf = s.xbuf := by
  simp [State.entered]
@[simp] theorem entered_flags (s : State) (k : DemodKind) : (s.entered k).flags = s.flags := by
  simp [State.entered]
@[simp] theorem entered_phase (s : State) (k : DemodKind) : (s.entered k).phase = s.phase := by
  simp [State.entered]
@[simp] theorem entered_cursor (s : State) (k : DemodKind) : (s.entered k).cursor = 0 := by
  simp [State.entered]
@[simp] theorem entered_events (s : State) (k : DemodKind) : (s.entered k).events = 0 := by
  simp [State.entered]
@[simp] theorem entered_dispatches (s : State) (k : DemodKind) : (s.entered k).dispatches = 0 := by
  simp [State.entered]
@[simp] theorem entered_statFail (s : State) (k : DemodKind) : (s.entered k).statFail = s.statFail := by
  simp [State.entered]
@[simp] theorem entered_origin (s : State) (k : DemodKind) : (s.entered k).origin = .run := by
  simp [State.entered]
@[simp] theorem entered_pending (s : State) (k : DemodKind) : (s.entered k).pending = s.pending := by
  simp [State.entered]
@[simp] theorem entered_rdata (s : State) (k : DemodKind) : (s.entered k).rdata = s.rdata := by
  simp [State.entered]
@[simp] theorem entered_done (s : State) (k : DemodKind) : (s.entered k).done = false := by
  simp [State.entered]

/-- The latches a run works from are those of E7 (R193). -/
theorem entered_lat (s : State) (k : DemodKind) :
    (s.entered k).lat = demodLatches ((entryE3 k (entryE1 (s.setDone false))).setBb .b0 BitBuffer.empty) := rfl

/-- The demodulator a MOD_KIND code names (R103). -/
theorem demodOf_spec (k : BitVec 3) : (demodOf k = some .pcm ↔ k = 0) ∧ (demodOf k = some .ppm ↔ k = 1) ∧
    (demodOf k = some .pwm ↔ k = 2) ∧ (demodOf k = none ↔ 3 ≤ k.toNat) := by
  revert k; decide

/-- ENTRY once MOD_KIND names a demodulator: two checks, then the run (R193). -/
theorem runEntry_known {s : State} {k : DemodKind} (hk : demodOf s.spec.kind = some k) :
    runEntry (entryE1 (s.setDone false)) =
      if configBad (entryE3 k (entryE1 (s.setDone false))) then abortRun .eConfig (entryE3 k (entryE1 (s.setDone false)))
      else if rateTooLow (entryE3 k (entryE1 (s.setDone false))) then
        abortRun .eRateLow (entryE3 k (entryE1 (s.setDone false)))
      else runFrom (s.entered k) := by
  simp only [runEntry, entryE1_spec, State.setDone_spec, hk]
  rfl

/-- Check E4 in the terms of R196. -/
theorem configBad_iff (k : DemodKind) (s : State) :
    configBad (entryE3 k s) = true ↔ k = .pcm ∧ (s.spec.shortUs = 0 ∨ s.spec.longUs = 0) := by
  simp [configBad, entryE3, State.setLat]

/-- Check E5 in the terms of R197. -/
theorem rateTooLow_iff (k : DemodKind) (s : State) : rateTooLow (entryE3 k s) = true ↔ ¬ s.RateSuffices := by
  have hw : ∀ us n, widthLost us n = true ↔ us ≠ 0 ∧ n = 0 := by simp [widthLost]
  simp only [rateTooLow, Bool.or_eq_true, hw, entryE3, State.setLat, State.RateSuffices, List.forall_mem_cons]
  simp only [List.not_mem_nil, IsEmpty.forall_iff, implies_true, and_true]
  tauto

end Sys2Proof.Machine
end

