-- ==== Sys2Proof/Laws/Good.lean ====
section
/-! SUPPORT. The invariants of the block (Safety.lean) under the shared operations: FLAGS stays sound when a flag is raised, and the
line decoders, AGGREGATE, the entry of a run and the sink's return keep every invariant. -/

namespace Sys2Proof.Machine

/-- The bits of FLAGS that exist (R39). -/
theorem flagsDefined_bit (i : Nat) : flagsDefined.getLsbD i = decide (i ≤ 6 ∨ (8 ≤ i ∧ i ≤ 12) ∨ i = 31) := by
  by_cases h : i < 32
  · have : ∀ j : Fin 32, flagsDefined.getLsbD j.1 = decide (j.1 ≤ 6 ∨ (8 ≤ j.1 ∧ j.1 ≤ 12) ∨ j.1 = 31) := by decide
    exact this ⟨i, h⟩
  · rw [BitVec.getLsbD_of_ge _ _ (by omega)]
    symm; simp; omega

/-- Reserved bits of FLAGS are 0: every set bit is a defined one (R39). -/
theorem masked_iff (v : Word) : v &&& flagsDefined = v ↔
    ∀ i, v.getLsbD i = true → (i ≤ 6 ∨ (8 ≤ i ∧ i ≤ 12) ∨ i = 31) := by
  constructor
  · intro h i hi
    rw [← h] at hi
    simp only [BitVec.getLsbD_and, flagsDefined_bit, Bool.and_eq_true, decide_eq_true_eq] at hi
    exact hi.2
  · intro h
    apply BitVec.eq_of_getLsbD_eq
    intro i hi
    simp only [BitVec.getLsbD_and, flagsDefined_bit]
    cases hv : v.getLsbD i
    · rfl
    · simp [h i hv]

/-- Raising any flag but F_FATAL keeps FLAGS sound (R39). -/
theorem FlagsSound.raise {s : State} (h : s.FlagsSound) (f : Flag) (hf : f ≠ .fFatal) : (s.raise f).FlagsSound := by
  refine ⟨?_, ?_⟩
  · rw [masked_iff]
    intro i hi
    simp only [State.raise_flags, raiseIn_getLsbD, Bool.or_eq_true, decide_eq_true_eq] at hi
    rcases hi with hi | hi
    · exact (masked_iff _).1 h.1 i hi
    · subst hi; cases f <;> simp [Flag.pos]
  · simp only [State.raise_flags, State.raise_phase, raiseIn_getLsbD]
    rw [← h.2]
    have : ¬ Flag.fFatal.pos = f.pos := by cases f <;> simp [Flag.pos] at hf ⊢
    simp [this]

/-- Raising warnings keeps FLAGS sound, as long as FATAL is neither entered nor left. -/
theorem FlagsSound.warns {s t : State} (h : s.FlagsSound) (hw : Warns s.flags t.flags)
    (hp : t.phase = .fatal ↔ s.phase = .fatal) : t.FlagsSound := by
  refine ⟨?_, ?_⟩
  · rw [masked_iff]
    intro i hi
    by_cases h6 : i ≤ 6
    · exact Or.inl h6
    · rw [(hw.getLsbD i).2 (by omega)] at hi
      exact (masked_iff _).1 h.1 i hi
  · rw [(hw.getLsbD _).2 (by decide), hp]
    exact h.2

/-- Raising a flag other than F_FATAL keeps the invariants. -/
theorem Good.raise {s : State} (h : s.Good) (f : Flag) (hf : f ≠ .fFatal) : (s.raise f).Good :=
  ⟨h.legal, h.rest, FlagsSound.raise h.flags f hf, h.counts, h.bb0, h.bb1, h.arrays⟩

/-- Replacing a buffer and FLAGS by what a row operation leaves keeps the invariants. -/
theorem Good.logged {s : State} (h : s.Good) (b : Buf) (q : Logged) (hq : Logged.Keeps s.cfg (s.bb b, s.flags) q) :
    ((s.setBb b q.1).setFlags q.2).Good := by
  have hf : ((s.setBb b q.1).setFlags q.2).FlagsSound := FlagsSound.warns h.flags (by cases b <;> exact hq.2) (by cases b <;> rfl)
  cases b
  · have hg := hq.1 h.legal h.bb0
    exact ⟨h.legal, h.rest, hf, h.counts, hg, h.bb1, ⟨hg.canonical, h.arrays.2⟩⟩
  · have hg := hq.1 h.legal h.bb1
    exact ⟨h.legal, h.rest, hf, h.counts, h.bb0, hg, ⟨h.arrays.1, hg.canonical, h.arrays.2.2⟩⟩

/-- Replacing a buffer by one that satisfies R26. -/
theorem Good.setBb {s : State} (h : s.Good) (b : Buf) (y : BitBuffer) (hy : y.Good s.cfg) : (s.setBb b y).Good :=
  by
    have := Good.logged h b (y, s.flags) ⟨fun _ _ => hy, Warns.refl _⟩
    cases b <;> exact this

/-- Either buffer of a good state satisfies R26. -/
theorem bb_good {s : State} (h : s.Good) (b : Buf) : (s.bb b).Good s.cfg := by
  cases b
  · exact h.bb0
  · exact h.bb1

theorem Good.res0 {s : State} (h : s.Good) (v : Word) : (s.setRes0 v).Good :=
  ⟨h.legal, h.rest, h.flags, h.counts, h.bb0, h.bb1, h.arrays⟩
theorem Good.res1 {s : State} (h : s.Good) (v : Word) : (s.setRes1 v).Good :=
  ⟨h.legal, h.rest, h.flags, h.counts, h.bb0, h.bb1, h.arrays⟩

/-- LD_MANCH changes its destination through ADD_BIT only (R180). -/
theorem manchLoop_keeps (c : Params) (h : Nat → Bool) (n fuel : Nat) (q : LineRun) :
    Logged.Keeps c q.out (manchLoop c h n fuel q).out := by
  induction fuel generalizing q with
  | zero => exact Logged.Keeps.refl _
  | succ fuel ih =>
    simp only [manchLoop]
    split
    · split
      · exact Logged.Keeps.refl _
      · exact (addBit_keeps (h (q.ipos+1)) q.out).trans (ih (q.emit c _))
    · exact Logged.Keeps.refl _

/-- The steady state of LD_DMANCH changes its destination through ADD_BIT only (R180). -/
theorem dmanchSteady_keeps (c : Params) (h : Nat → Bool) (n fuel : Nat) (pv : Bool) (q : LineRun) :
    Logged.Keeps c q.out (dmanchSteady c h n fuel pv q).out := by
  induction fuel generalizing pv q with
  | zero => exact Logged.Keeps.refl _
  | succ fuel ih =>
    simp only [dmanchSteady]
    split
    · split
      · exact Logged.Keeps.refl _
      · exact (addBit_keeps (h q.ipos != h (q.ipos+1)) q.out).trans (ih _ (q.emit c _))
    · exact Logged.Keeps.refl _

/-- LD_DMANCH changes its destination through ADD_BIT only (R180). -/
theorem dmanchLoop_keeps (c : Params) (h : Nat → Bool) (n fuel : Nat) (q : LineRun) :
    Logged.Keeps c q.out (dmanchLoop c h n fuel q).out := by
  induction fuel generalizing q with
  | zero => exact Logged.Keeps.refl _
  | succ fuel ih =>
    simp only [dmanchLoop]
    split
    · exact Logged.Keeps.refl _
    · split
      · exact dmanchSteady_keeps _ _ _ _ _ _
      · split
        · exact Logged.Keeps.refl _
        · split
          · exact (addBit_keeps true q.out).trans (ih (q.emit c _))
          · exact dmanchSteady_keeps c h n (fuel+1) (h q.ipos) { q with ipos := q.ipos + 1 }

theorem storeLine_good {s : State} (h : s.Good) (b : Buf) (q : LineRun)
    (hq : Logged.Keeps s.cfg (s.bb (otherBuf b), s.flags) q.out) : (storeLine b q s).Good :=
  Good.res1 (Good.res0 (Good.logged h (otherBuf b) q.out hq) _) _

/-- AGGREGATE keeps the invariants (R215). -/
theorem aggregate_good {s : State} (h : s.Good) (st : Int) : (aggregate st s).Good := by
  have hw : Warns s.flags (aggregate st s).flags := by
    simp only [aggregate]
    split
    · exact Warns.raiseIf (Or.inr (Or.inr (Or.inr (Or.inr rfl)))) _ _
    · exact Warns.raiseIf (Or.inr (Or.inr (Or.inr (Or.inr rfl)))) _ _
  have hp : (aggregate st s).phase = s.phase := by
    simp only [aggregate]; split <;> simp
  refine ⟨?_, ?_, FlagsSound.warns h.flags hw (by rw [hp]), ?_, ?_, ?_, ?_⟩
  all_goals simp only [aggregate]
  all_goals split
  all_goals simp [State.AtRest, State.CountsInRange, State.MemoryCanonical]
  all_goals first | exact h.legal | exact h.rest | exact h.counts | exact h.bb0 | exact h.bb1 | skip
  · exact h.arrays
  · obtain ⟨a, b, c, d, e, f, g⟩ := h.arrays
    exact ⟨a, b, c, d, e, f, Memory.wf_write g _ _⟩

/-- A run, from a state that satisfies the invariants but for STATE, ends in one that satisfies them (R205). -/
theorem run_good {s t : State} (hl : RunLoop s t) (legal : s.cfg.Legal) (fl : s.flags &&& flagsDefined = s.flags)
    (nf : s.flags.getLsbD Flag.fFatal.pos = false) (c1 : s.pt.numPulses.toNat ≤ s.cfg.maxp) (c2 : s.lat.n.toNat ≤ s.cfg.maxp)
    (hcur : s.cursor.toNat ≤ s.lat.n.toNat)
    (h0 : s.bb0.Good s.cfg) (h1 : s.bb1.Good s.cfg) (arr : s.MemoryCanonical) : t.Good := by
  have hf := hl.frame
  have hk := hl.keeps
  have he := hl.ends hcur
  have g0 := hk.1 legal h0
  simp only at g0
  have hph : t.AtRest ∧ t.phase ≠ .fatal := by
    rcases he with ⟨a, _⟩ | ⟨a, _⟩ <;> simp [State.AtRest, a]
  refine ⟨by rw [hf.cfg]; exact legal, hph.1, ⟨?_, ?_⟩, ⟨?_, ?_, ?_⟩, by rw [hf.cfg]; exact g0, by rw [hf.cfg, hf.bb1]; exact h1, ?_⟩
  · rw [masked_iff]
    intro i hi
    by_cases h6 : i ≤ 6
    · exact Or.inl h6
    · rw [(hk.2.getLsbD i).2 (by omega)] at hi
      exact (masked_iff _).1 fl i hi
  · rw [(hk.2.getLsbD _).2 (by decide)]
    simp only [nf, Bool.false_eq_true, false_iff]
    exact hph.2
  · rw [hf.pt, hf.cfg]; exact c1
  · rw [hf.lat, hf.cfg]; exact c2
  · intro hd _
    rcases he with ⟨a, _⟩ | ⟨_, _, _, a4, _⟩
    · rw [a] at hd; cases hd
    · rw [hf.lat]; exact a4
  · refine ⟨g0.canonical, ?_⟩
    rw [hf.bb1, hf.pt, hf.pat, hf.xbuf, hf.statFail]
    exact arr.2

/-- Outside FATAL F_FATAL is 0 (R39). -/
theorem nofatal {s : State} (h : s.Good) (hp : s.phase ≠ .fatal) : s.flags.getLsbD Flag.fFatal.pos = false := by
  have := h.flags.2
  cases hb : s.flags.getLsbD Flag.fFatal.pos
  · rfl
  · exact absurd (this.1 hb) hp

/-- An aborted DM_RUN keeps the invariants (R193). -/
theorem aborted_good {s u : State} (h : s.Good) (hp : s.phase = .idle) (f : Flag) (hf : f ≠ .fFatal)
    (hu : u = entryE1 (s.setDone false) ∨ ∃ k, u = entryE3 k (entryE1 (s.setDone false))) : (abortRun f u).Good := by
  have hfs := FlagsSound.raise h.flags f hf
  have hfl : (abortRun f u).FlagsSound := by
    have h2 := hfs.2
    simp only [State.raise_flags, State.raise_phase, hp] at h2
    refine ⟨?_, ?_⟩
    · rcases hu with rfl | ⟨k, rfl⟩ <;> simpa using hfs.1
    · rcases hu with rfl | ⟨k, rfl⟩ <;> simpa using h2
  refine ⟨?_, Or.inl (by simp), hfl, ⟨?_, ?_, ?_⟩, ?_, ?_, ?_⟩
  · rcases hu with rfl | ⟨k, rfl⟩ <;> simpa using h.legal
  · rcases hu with rfl | ⟨k, rfl⟩ <;> simpa using h.counts.1
  · rcases hu with rfl | ⟨k, rfl⟩
    · simpa using h.counts.2.1
    · simpa [entryE3] using h.counts.1
  · simp
  · rcases hu with rfl | ⟨k, rfl⟩ <;> simpa using h.bb0
  · rcases hu with rfl | ⟨k, rfl⟩ <;> simpa using h.bb1
  · rcases hu with rfl | ⟨k, rfl⟩ <;> simpa [State.MemoryCanonical] using h.arrays

/-- ENTRY and the run keep the invariants (R193, R205). -/
theorem runEntry_good {s : State} (h : s.Good) (hp : s.phase = .idle) : (runEntry (entryE1 (s.setDone false))).Good := by
  have hnf := nofatal h (by rw [hp]; simp)
  simp only [runEntry]
  split
  · exact aborted_good h hp _ (by simp) (Or.inl rfl)
  · rename_i k hk
    split
    · exact aborted_good h hp _ (by simp) (Or.inr ⟨k, rfl⟩)
    · split
      · exact aborted_good h hp _ (by simp) (Or.inr ⟨k, rfl⟩)
      · have hn : ∀ u : State, (demodLatches u).n = u.lat.n := by
          intro u
          simp only [demodLatches]
          split
          · rfl
          · simp only [ppmLatches]; split <;> rfl
          · simp only [pwmLatches]; split_ifs <;> rfl
        refine run_good (runFrom_follows _) ?_ ?_ ?_ ?_ ?_ ?_ ?_ ?_ ?_
        · simpa using h.legal
        · simpa using h.flags.1
        · simpa using hnf
        · simpa using h.counts.1
        · simp only [State.setLat_lat, hn]; simpa [entryE3] using h.counts.1
        · simp
        · simpa [State.setBb] using empty_good
        · simpa [State.setBb] using h.bb1
        · have h2 := h.arrays
          simp only [State.MemoryCanonical] at h2 ⊢
          simp only [State.setLat_bb0, State.setLat_bb1, State.setLat_pt, State.setLat_pat, State.setLat_xbuf, State.setLat_statFail]
          refine ⟨⟨Memory.wf_nil, Memory.wf_nil, Memory.wf_nil⟩, ?_⟩
          simpa [State.setBb] using h2.2

/-- The return from the sink keeps the invariants (R214). -/
theorem sinkReturn_good {s : State} (h : s.Good) (hp : s.phase = .dispatch) : (sinkReturn (s.setDone false)).Good := by
  have h' : (s.setDone false).Good := ⟨h.legal, h.rest, h.flags, h.counts, h.bb0, h.bb1, h.arrays⟩
  have ha := aggregate_good h' (s.setDone false).sinkStatus
  have hph : (aggregate (s.setDone false).sinkStatus (s.setDone false)).phase = .dispatch := by
    simp only [aggregate]; split <;> simpa using hp
  have hor : (aggregate (s.setDone false).sinkStatus (s.setDone false)).origin = s.origin := by
    simp only [aggregate]; split <;> simp
  have hnf := nofatal ha (by rw [hph]; simp)
  simp only [sinkReturn]
  split
  · refine ⟨ha.legal, Or.inl rfl, ⟨ha.flags.1, ?_⟩, ⟨ha.counts.1, ha.counts.2.1, fun hh => by cases hh⟩, empty_good, ha.bb1, ⟨⟨Memory.wf_nil, Memory.wf_nil, Memory.wf_nil⟩, ha.arrays.2⟩⟩
    simp only [endRun_flags, endRun_phase]
    constructor
    · intro hh
      exact absurd (hnf.symm.trans hh) (by decide)
    · intro hh; cases hh
  · rename_i hrun
    have hcur := ha.counts.2.2 hph (hor.trans hrun)
    refine run_good (runFrom_follows _) ha.legal ha.flags.1 hnf ha.counts.1 ha.counts.2.1 ?_ empty_good ha.bb1 ⟨⟨Memory.wf_nil, Memory.wf_nil, Memory.wf_nil⟩, ha.arrays.2⟩
    simp only [resume_cursor, resume_lat]
    rw [cursor_succ hcur]; omega

end Sys2Proof.Machine
end

