-- ==== Sys2Proof/Laws/LineDecoders.lean ====
section
/-! SUPPORT. What the loops of the two line decoders do, once and with no loop in the statement (42_line_decoders.md). -/

namespace Sys2Proof.Machine

/-- The loop of LD_MANCH: `cnt` differing pairs are decoded, then the input ends or an equal pair is stepped over (R171). -/
theorem manchLoop_spec (c : Params) (h : Nat → Bool) (n fuel : Nat) (q : LineRun) (hf : n ≤ q.ipos + 2 * fuel + 1 ) :
    ∃ cnt ipos, (∀ j, j < cnt → q.ipos + 2 * j + 1 < n ∧ h (q.ipos + 2 * j) ≠ h (q.ipos + 2 * j + 1)) ∧
      ((n ≤ q.ipos + 2 * cnt + 1 ∧ ipos = q.ipos + 2 * cnt) ∨
       (q.ipos + 2 * cnt + 1 < n ∧ h (q.ipos + 2 * cnt) = h (q.ipos + 2 * cnt + 1) ∧ ipos = q.ipos + 2 * cnt + 2)) ∧
      manchLoop c h n fuel q =
        ⟨Logged.addAll c ((List.range cnt).map (fun j => h (q.ipos + 2 * j + 1))) q.out, ipos, q.cnt + cnt⟩ := by
  induction fuel generalizing q with
  | zero => exact ⟨0, q.ipos, fun j hj => by omega, Or.inl ⟨by omega, rfl⟩, rfl⟩
  | succ fuel ih =>
    simp only [manchLoop]
    split
    · rename_i hlt
      split
      · rename_i heq
        exact ⟨0, q.ipos + 2, fun j hj => by omega, Or.inr ⟨by simpa using hlt, by simpa using heq, rfl⟩, rfl⟩
      · rename_i hne
        obtain ⟨cnt, ipos, h1, h2, h3⟩ := ih (q.emit c (h (q.ipos + 1))) (by simp only [LineRun.emit]; omega)
        simp only [LineRun.emit] at h1 h2 h3
        refine ⟨cnt + 1, ipos, ?_, ?_, ?_⟩
        · intro j hj
          cases j with
          | zero => exact ⟨by simpa using hlt, by simpa using hne⟩
          | succ j =>
            have := h1 j (by omega)
            have e : q.ipos + 2 * (j + 1) = q.ipos + 2 + 2 * j := by ring
            rw [e]; exact this
        · have e : q.ipos + 2 * (cnt + 1) = q.ipos + 2 + 2 * cnt := by ring
          rw [e]; exact h2
        · simp only [LineRun.emit]
          rw [h3, List.range_succ_eq_map, List.map_cons, addAll_cons, List.map_map]
          congr 1
          · congr 1
            apply List.map_congr_left
            intro j _
            simp only [Function.comp, Nat.succ_eq_add_one]
            congr 1; ring
          · ring
    · rename_i hlt
      exact ⟨0, q.ipos, fun j hj => by omega, Or.inl ⟨by simpa using hlt, rfl⟩, rfl⟩

/-- The steady state of LD_DMANCH decodes the cells up to the first one without a change of level before it (R175). -/
theorem steady_spec (c : Params) (h : Nat → Bool) (n fuel : Nat) (pv : Bool) (q : LineRun) (hf : n ≤ q.ipos + 2 * fuel + 1) :
    ∃ k, SteadyCells h n q.ipos pv k ∧
      dmanchSteady c h n fuel pv q = ⟨Logged.addAll c (cellBits h q.ipos k) q.out, q.ipos + 2 * k, q.cnt + k⟩ := by
  induction fuel generalizing q pv with
  | zero => exact ⟨0, ⟨fun j hj => by omega, Or.inl (by omega)⟩, rfl⟩
  | succ fuel ih =>
    simp only [dmanchSteady]
    split
    · rename_i hlt
      split
      · rename_i heq
        exact ⟨0, ⟨fun j hj => by omega, Or.inr (by simpa using heq)⟩, rfl⟩
      · rename_i hne
        obtain ⟨k, ⟨h1, h2⟩, h3⟩ := ih (h (q.ipos + 1)) (q.emit c (h q.ipos != h (q.ipos + 1))) (by simp only [LineRun.emit]; omega)
        simp only [LineRun.emit] at h1 h2 h3
        refine ⟨k + 1, ⟨?_, ?_⟩, ?_⟩
        · intro j hj
          cases j with
          | zero => exact ⟨by simpa using hlt, by simpa using hne⟩
          | succ j =>
            have := h1 j (by omega)
            have e : q.ipos + 2 * (j + 1) = q.ipos + 2 + 2 * j := by ring
            rw [e]
            refine ⟨this.1, ?_⟩
            rw [if_neg (by omega)]
            have h4 := this.2
            by_cases hj0 : j = 0
            · subst hj0; rw [if_pos rfl] at h4; exact h4
            · rw [if_neg hj0] at h4; exact h4
        · have e : q.ipos + 2 * (k + 1) = q.ipos + 2 + 2 * k := by ring
          rw [e]
          rcases h2 with h2 | h2
          · exact Or.inl h2
          · refine Or.inr ?_
            rw [if_neg (by omega)]
            by_cases hk0 : k = 0
            · subst hk0; rw [if_pos rfl] at h2; exact h2
            · rw [if_neg hk0] at h2; exact h2
        · simp only [LineRun.emit]
          rw [h3, cellBits, cellBits, List.range_succ_eq_map, List.map_cons, addAll_cons, List.map_map]
          congr 1
          · congr 1
            apply List.map_congr_left
            intro j _
            simp only [Function.comp, Nat.succ_eq_add_one]
            have e : q.ipos + 2 * (j + 1) = q.ipos + 2 + 2 * j := by ring
            rw [e]
          · ring
          · ring
    · rename_i hlt
      exact ⟨0, ⟨fun j hj => by omega, Or.inl (by simpa using hlt)⟩, rfl⟩

/-- LD_DMANCH: phase 1 over `k1` pairs, then the end of the input or the steady state over `k2` cells (R175). -/
theorem dmanch_spec (c : Params) (h : Nat → Bool) (n fuel : Nat) (q : LineRun) (hf : n ≤ q.ipos + 2 * fuel + 1) :
    ∃ k1 k2 p, (∀ j, j < k1 → q.ipos + 2 * j + 2 < n ∧ h (q.ipos + 2 * j) ≠ h (q.ipos + 2 * j + 1) ∧
        h (q.ipos + 2 * j + 1) ≠ h (q.ipos + 2 * j + 2)) ∧
      (let p0 := q.ipos + 2 * k1
       (n ≤ p0 + 1 ∧ p = p0 ∧ k2 = 0) ∨
       (p0 + 1 < n ∧ h p0 = h (p0 + 1) ∧ p = p0 ∧ SteadyCells h n p (!h p0) k2) ∨
       (p0 + 2 = n ∧ h p0 ≠ h (p0 + 1) ∧ p = p0 ∧ k2 = 0) ∨
       (p0 + 2 < n ∧ h p0 ≠ h (p0 + 1) ∧ h (p0 + 1) = h (p0 + 2) ∧ p = p0 + 1 ∧ SteadyCells h n p (h p0) k2)) ∧
      dmanchLoop c h n fuel q =
        ⟨Logged.addAll c (List.replicate k1 true ++ cellBits h p k2) q.out, p + 2 * k2, q.cnt + (k1 + k2)⟩ := by
  induction fuel generalizing q with
  | zero => exact ⟨0, 0, q.ipos, fun j hj => by omega, Or.inl ⟨by omega, rfl, rfl⟩, rfl⟩
  | succ fuel ih =>
    simp only [dmanchLoop]
    split
    · rename_i hle
      exact ⟨0, 0, q.ipos, fun j hj => by omega, Or.inl ⟨by omega, rfl, rfl⟩, rfl⟩
    · rename_i hlt
      split
      · rename_i heq
        obtain ⟨k, hk, he⟩ := steady_spec c h n (fuel + 1) (!h q.ipos) q hf
        exact ⟨0, k, q.ipos, fun j hj => by omega, Or.inr (Or.inl ⟨by simpa using hlt, by simpa using heq, rfl, by simpa using hk⟩), by simpa using he⟩
      · rename_i hne
        split
        · rename_i hle
          exact ⟨0, 0, q.ipos, fun j hj => by omega, Or.inr (Or.inr (Or.inl ⟨by simp; omega, by simpa using hne, rfl, rfl⟩)), rfl⟩
        · rename_i hlt2
          split
          · rename_i hne2
            obtain ⟨k1, k2, p, h1, h2, h3⟩ := ih (q.emit c true) (by simp only [LineRun.emit]; omega)
            simp only [LineRun.emit] at h1 h2 h3
            refine ⟨k1 + 1, k2, p, ?_, ?_, ?_⟩
            · intro j hj
              cases j with
              | zero => exact ⟨by simp; omega, by simpa using hne, by simpa using hne2⟩
              | succ j =>
                have := h1 j (by omega)
                have e : q.ipos + 2 * (j + 1) = q.ipos + 2 + 2 * j := by ring
                rw [e]; exact this
            · have e : q.ipos + 2 * (k1 + 1) = q.ipos + 2 + 2 * k1 := by ring
              rw [e]; exact h2
            · simp only [LineRun.emit]
              rw [h3, List.replicate_succ, List.cons_append, addAll_cons]
              congr 1
              ring
          · rename_i heq2
            have heq2' : h (q.ipos + 1) = h (q.ipos + 2) := by simpa using heq2
            obtain ⟨k, hk, he⟩ := steady_spec c h n (fuel + 1) (h q.ipos) { q with ipos := q.ipos + 1 } (by simp only; omega)
            exact ⟨0, k, q.ipos + 1, fun j hj => by omega, Or.inr (Or.inr (Or.inr ⟨by simp; omega, by simpa using hne, by simpa using heq2', rfl, by simpa using hk⟩)), by simpa using he⟩

end Sys2Proof.Machine
end

