-- ==== Sys2Proof/Laws/PerInstr.lean ====
section
/-! SUPPORT. The family of statements made per instruction: the encoded word meets its row of R95, whatever the operands. -/

namespace Sys2Proof.Laws.Encoding

open Sys2Proof

/-- A row of R95 by its mnemonic. -/
def rowNamed (m : String) : Option OpcodeRow := opcodeTable.find? (fun r => r.mnemonic == m)

/-- The mnemonic of an instruction (R95). -/
def mnemonicOf : Instr → String
  | .bbClear _       => "BB_CLEAR"
  | .bbAddBit _ _    => "BB_ADDBIT"
  | .bbAddRow _      => "BB_ADDROW"
  | .bbAddSync _     => "BB_ADDSYNC"
  | .bbInvert _      => "BB_INVERT"
  | .bbNrzs _        => "BB_NRZS"
  | .bbNrzm _        => "BB_NRZM"
  | .bbExtract _ _   => "BB_EXTRACT"
  | .bbSearch _ _    => "BB_SEARCH"
  | .bbCmpRows _ _ _ => "BB_CMPROWS"
  | .bbCntRep _ _    => "BB_CNTREP"
  | .bbFindRow _     => "BB_FINDROW"
  | .bbFindPfx _     => "BB_FINDPFX"
  | .ldManch _ _     => "LD_MANCH"
  | .ldDmanch _ _    => "LD_DMANCH"
  | .dmRun           => "DM_RUN"
  | .dmSinkRet       => "DM_SINKRET"
  | .dmString        => "DM_STRING"

/-- The encoded word of an instruction meets the mask and the match of its own row. -/
def Statement (i : Instr) : Prop := ∃ r, rowNamed (mnemonicOf i) = some r ∧ encode i &&& r.mask = r.pattern

theorem packed (opc a b ma mb : BitVec 8) (buf bit mbuf mbit : Bool) {mask pattern : Word}
    (hm : mask = (packWord 0xFF ma mb mbuf mbit ||| 0xFC))
    (hp : packWord opc (a &&& ma) (b &&& mb) (buf && mbuf) (bit && mbit) = pattern) :
    packWord opc a b buf bit &&& mask = pattern := by rw [hm, packWord_and_mask, hp]

theorem bbClear (b : Buf) : Statement (.bbClear b) := ⟨_, rfl, by cases b <;> decide⟩
theorem bbAddBit (b : Buf) (v : Bool) : Statement (.bbAddBit b v) := ⟨_, rfl, by cases b <;> cases v <;> decide⟩
theorem bbAddRow (b : Buf) : Statement (.bbAddRow b) := ⟨_, rfl, by cases b <;> decide⟩
theorem bbAddSync (b : Buf) : Statement (.bbAddSync b) := ⟨_, rfl, by cases b <;> decide⟩
theorem bbInvert (b : Buf) : Statement (.bbInvert b) := ⟨_, rfl, by cases b <;> decide⟩
theorem bbNrzs (b : Buf) : Statement (.bbNrzs b) := ⟨_, rfl, by cases b <;> decide⟩
theorem bbNrzm (b : Buf) : Statement (.bbNrzm b) := ⟨_, rfl, by cases b <;> decide⟩
theorem bbExtract (b : Buf) (row : Nat) : Statement (.bbExtract b row) :=
  ⟨_, rfl, packed _ _ _ 0 0xFF _ _ false true (by decide) (by simp; decide)⟩
theorem bbSearch (b : Buf) (row : Nat) : Statement (.bbSearch b row) :=
  ⟨_, rfl, packed _ _ _ 0 0xFF _ _ false true (by decide) (by simp; decide)⟩
theorem bbCmpRows (b : Buf) (ra rb : Nat) : Statement (.bbCmpRows b ra rb) :=
  ⟨_, rfl, packed _ _ _ 0 0 _ _ false true (by decide) (by simp; decide)⟩
theorem bbCntRep (b : Buf) (row : Nat) : Statement (.bbCntRep b row) :=
  ⟨_, rfl, packed _ _ _ 0 0xFF _ _ false true (by decide) (by simp; decide)⟩
theorem bbFindRow (b : Buf) : Statement (.bbFindRow b) := ⟨_, rfl, by cases b <;> decide⟩
theorem bbFindPfx (b : Buf) : Statement (.bbFindPfx b) := ⟨_, rfl, by cases b <;> decide⟩
theorem ldManch (b : Buf) (row : Nat) : Statement (.ldManch b row) :=
  ⟨_, rfl, packed _ _ _ 0 0xFF _ _ false true (by decide) (by simp; decide)⟩
theorem ldDmanch (b : Buf) (row : Nat) : Statement (.ldDmanch b row) :=
  ⟨_, rfl, packed _ _ _ 0 0xFF _ _ false true (by decide) (by simp; decide)⟩
theorem dmRun : Statement .dmRun := ⟨_, rfl, by decide⟩
theorem dmSinkRet : Statement .dmSinkRet := ⟨_, rfl, by decide⟩
theorem dmString : Statement .dmString := ⟨_, rfl, by decide⟩

end Sys2Proof.Laws.Encoding
end

