-- ==== Sys2Proof/Laws/Queries.lean ====
section
/-! SUPPORT. What the query operations compute, in the terms of the rules: the packed byte of BB_EXTRACT, the pattern test of
BB_SEARCH, CMP and the number of matching rows. -/

namespace Sys2Proof.Machine

/-- Bit `7 - k` of a packed byte is its `k`th bit, most significant first (R147). -/
theorem packByte_bit (e : Nat → Bool) {k : Nat} (hk : k < 8) : (packByte e).getLsbD (7 - k) = e k := by
  have : ∀ n, n ≤ 8 → ∀ j, j < 8 → (upTo n (fun k y => y ||| ((if e k then 1#8 else 0#8) <<< (7 - k))) 0#8).getLsbD j
      = (decide (7 - j < n) && e (7 - j)) := by
    intro n
    induction n with
    | zero => intro _ j _; simp
    | succ n ih =>
      intro hn j hj
      rw [upTo_succ, BitVec.getLsbD_or, ih (by omega) j hj, BitVec.getLsbD_shiftLeft]
      by_cases h : j = 7 - n
      · subst h
        have h7 : 7 - (7 - n) = n := by omega
        rw [h7]
        cases e n <;> simp [hj]
      · by_cases h1 : j < 7 - n
        · have h2 : ¬ (7 - j < n) := by omega
          have h3 : ¬ (7 - j < n + 1) := by omega
          simp [h1, h2, h3]
        · have h2 : 7 - j < n := by omega
          have h3 : 7 - j < n + 1 := by omega
          have h4 : j - (7 - n) ≠ 0 := by omega
          cases e n <;> simp [h2, h3, BitVec.getLsbD_one, h4]
  rw [packByte, this 8 (le_refl _) _ (by omega)]
  have h7 : 7 - (7 - k) = k := by omega
  rw [h7]; simp [hk]

/-- The pattern test of BB_SEARCH (R150). -/
theorem patternAt_iff (c : Params) (x : BitBuffer) (pat : Memory Byte) (row pl i : Nat) : patternAt c x pat row pl i = true ↔
    (i + pl ≤ x.len row ∧ ∀ k, k < pl → x.bit c row (i + k) = (pat.read (k / 8)).getLsbD (7 - k % 8)) := by
  simp [patternAt, allBelow_iff, packedBit]

/-- CMP as a computation is CMP as R153 writes it. -/
theorem cmp_iff (c : Params) (x : BitBuffer) (ra rb m : Nat) : x.cmp c ra rb m = true ↔ RowsMatch c x ra rb m := by
  simp [BitBuffer.cmp, BitBuffer.sameBits, allBelow_iff, RowsMatch, and_assoc]

/-- The count of BB_CNTREP is the number of matching rows (R155). -/
theorem matchCount_eq (c : Params) (x : BitBuffer) (row m : Nat) : x.matchCount c row m = matchingRows c x row m := by
  have : ∀ n, countBelow n (fun r => x.cmp c row r m) = ((Finset.range n).filter (fun r => RowsMatch c x row r m)).card := by
    intro n
    induction n with
    | zero => rfl
    | succ n ih =>
      rw [countBelow_succ, ih, Finset.range_add_one, Finset.filter_insert]
      by_cases hm : RowsMatch c x row n m
      · rw [if_pos ((cmp_iff _ _ _ _ _).2 hm), if_pos hm, Finset.card_insert_of_notMem (by simp)]
      · rw [if_neg (fun hh => hm ((cmp_iff _ _ _ _ _).1 hh)), if_neg hm]
        rfl
  exact this _

end Sys2Proof.Machine
end

