-- ==== Sys2Proof/Machine/Text.lean ====
section
/-! DEFINITION. The debug text format of a BitBuffer: rendering (R108), the input grammar (R109) and the expansion of PARSE into
commands (R110). Host-side functions: no step of the block uses them (log 14). -/

namespace Sys2Proof.Machine

/-- The characters that open and close a width (R108, R109): codes 123 and 125. -/
def openBrace : Char := Char.ofNat 123

/-- See `openBrace`. -/
def closeBrace : Char := Char.ofNat 125

/-- A natural number in decimal (R108). -/
def decimal (n : Nat) : List Char := Nat.toDigits 10 n

/-- A byte as two lowercase hexadecimal digits (R108). -/
def hexByte (y : Byte) : List Char := [Nat.digitChar (y.toNat / 16), Nat.digitChar (y.toNat % 16)]

/-- One row of the rendering: its bit count in braces, then its bytes (R108). DESIGN CHOICE (log 22): for a row longer than
`8 * XCAP` bits R108 asks for `ceil(len / 8)` bytes and also for the bytes of a BB_EXTRACT, which stops at XCAP bytes (R147); the
model renders all `ceil(len / 8)` bytes, unclipped. -/
def renderRow (c : Params) (x : BitBuffer) (r : Nat) : List Char :=
  [openBrace] ++ decimal (x.len r) ++ [closeBrace] ++
    (List.range (bytesFor (x.len r))).flatMap (fun j => hexByte (x.runByte c r 0 (x.len r) j))

/-- The rendering of a buffer: its rows joined by `/`, the empty text for an empty buffer (R108). -/
def render (c : Params) (x : BitBuffer) : List Char :=
  (List.intersperse ['/'] ((List.range x.numRows).map (renderRow c x))).flatten

/-- The items of the grammar that have an effect (R109); white space and `0x` have none. -/
inductive TextItem where
  | width (n : Nat)
  | slash
  | digit (d : BitVec 4)
deriving DecidableEq, Repr

/-- Where the reader of the text stands. -/
inductive ScanMode where
  | plain
  /-- a `0` was read that an `x` may still turn into a `0x` -/
  | zero
  /-- inside braces, no digit yet -/
  | brace
  /-- inside braces, the number so far -/
  | number (n : Nat)
deriving DecidableEq, Repr

/-- White space of R109. -/
def isTextSpace (ch : Char) : Bool := ch = ' ' || ch = '\t' || ch = '\r' || ch = '\n'

/-- The value of a decimal digit. -/
def decDigit (ch : Char) : Option Nat := if '0' ≤ ch ∧ ch ≤ '9' then some (ch.toNat - 48) else none

/-- The value of a hexadecimal digit (R109). -/
def hexDigit (ch : Char) : Option Nat :=
  if '0' ≤ ch ∧ ch ≤ '9' then some (ch.toNat - 48)
  else if 'a' ≤ ch ∧ ch ≤ 'f' then some (ch.toNat - 87)
  else if 'A' ≤ ch ∧ ch ≤ 'F' then some (ch.toNat - 55)
  else none

/-- One character outside a number and not after a `0`; none if the text is ill-formed (R109). -/
def scanPlain (ch : Char) : Option (List TextItem × ScanMode) :=
  if isTextSpace ch then some ([], .plain)
  else if ch = '0' then some ([], .zero)
  else if ch = openBrace then some ([], .brace)
  else if ch = '/' then some ([.slash], .plain)
  else (hexDigit ch).map (fun d => ([.digit (BitVec.ofNat 4 d)], .plain))

/-- One character of the text (R109). -/
def scanChar (m : ScanMode) (ch : Char) : Option (List TextItem × ScanMode) :=
  match m with
  | .plain    => scanPlain ch
  | .zero     =>
    if ch = 'x' ∨ ch = 'X' then some ([], .plain)
    else (scanPlain ch).map (fun r => (.digit 0 :: r.1, r.2))
  | .brace    => (decDigit ch).map (fun d => ([], .number d))
  | .number n =>
    if ch = closeBrace then some ([.width n], .plain)
    else (decDigit ch).map (fun d => ([], .number (10 * n + d)))

/-- The items of a text, none if it is ill-formed (R109). -/
def scanText : ScanMode → List Char → Option (List TextItem)
  | .plain, []    => some []
  | .zero, []     => some [.digit 0]
  | .brace, []    => none
  | .number _, [] => none
  | m, ch :: rest =>
    match scanChar m ch with
    | none   => none
    | some r => (scanText r.2 rest).map (fun items => r.1 ++ items)

/-- What PARSE remembers between items (R110). -/
structure ParseState where
  fresh : Bool
  width : Option Nat
  cnt   : Nat
deriving DecidableEq, Repr

/-- FINISH of R110: fills the current row up to its width with zeros. -/
def ParseState.finish (buf : Buf) (q : ParseState) : List Instr :=
  match q.width with
  | none   => []
  | some n => List.replicate (n - q.cnt) (.bbAddBit buf false)

/-- The bits of a hexadecimal digit, most significant first, as far as the width allows (R110). -/
def ParseState.digitBits (q : ParseState) (d : BitVec 4) : List Bool :=
  let bits := [d.getLsbD 3, d.getLsbD 2, d.getLsbD 1, d.getLsbD 0]
  match q.width with
  | none   => bits
  | some n => bits.take (n - q.cnt)

/-- The commands one item emits, and what PARSE remembers after it (R110). -/
def parseItem (buf : Buf) (q : ParseState) (item : TextItem) : List Instr × ParseState :=
  match item with
  | .width n => ((if q.fresh then [] else q.finish buf ++ [.bbAddRow buf]), ⟨false, some n, 0⟩)
  | .slash   => (q.finish buf ++ [.bbAddRow buf], ⟨true, none, 0⟩)
  | .digit d => ((q.digitBits d).map (.bbAddBit buf), ⟨false, q.width, q.cnt + (q.digitBits d).length⟩)

/-- The commands of a list of items, and the FINISH at the end (R110). -/
def parseItems (buf : Buf) : ParseState → List TextItem → List Instr
  | q, [] => q.finish buf
  | q, item :: rest => (parseItem buf q item).1 ++ parseItems buf (parseItem buf q item).2 rest

/-- `PARSE buf, "code"` (R110): BB_CLEAR and the commands of the items; no command at all if the text is ill-formed (R109). -/
def parseCommands (buf : Buf) (code : List Char) : List Instr :=
  match scanText .plain code with
  | none       => []
  | some items => .bbClear buf :: parseItems buf ⟨true, none, 0⟩ items

end Sys2Proof.Machine
end

