-- ==== Sys2Proof/Machine/Assembler.lean ====
section
/-! DEFINITION. The assembler syntax (R106, R107) and the pseudo-instructions (R110 to R112) as sequences of bus accesses.
Host-side functions: no step of the block uses them (log 14). -/

namespace Sys2Proof.Machine

/-- Issuing a command: a bus write of its word to CMD (R90). -/
def issueAccess (i : Instr) : Access := .write 0x000 (encode i)

/-- A line of the assembler: a command or a pseudo-instruction (R106, R110 to R112). -/
inductive AsmLine where
  | command (i : Instr)
  | parse (buf : Buf) (code : List Char)
  | addBits (buf : Buf) (bits : List Bool)
  | set (off : Nat) (v : Word)
  | setSpec (kind short long sync gap reset tol rate : Word)
  | loadPt (pairs : List (Word × Word))
  | setPat (bits : List Bool)
  | demodString (code : List Char)
deriving DecidableEq, Repr

/-- LOADPT: PT.pulse[n] and PT.gap[n] from pair `n` on (R111). A pair with `n ≥ MAXP` has no address (R71), and a write of such an
element would be ignored (R70): it gives no access (log 21). -/
def loadPairs (c : Params) : Nat → List (Word × Word) → List Access
  | _, [] => []
  | n, (p, g) :: rest =>
    if n < c.maxp then
      .write (c.addrMap.ptPulse + 4 * n) p :: .write (c.addrMap.ptGap + 4 * n) g :: loadPairs c (n + 1) rest
    else []

/-- Byte `j` of a bit string packed as PAT holds it, unused bits zero (R65, R111). -/
def packedByteOf (bits : List Bool) (j : Nat) : Byte := packByte (fun k => bits.getD (8 * j + k) false)

/-- The bus accesses of a line (R106, R110 to R112). SETPAT writes the bytes that PAT has: a write of PAT[j] with `j ≥ XCAP` would
be ignored (R70) and has no address (R71; log 21). -/
def AsmLine.accesses (c : Params) : AsmLine → List Access
  | .command i        => [issueAccess i]
  | .parse buf code   => (parseCommands buf code).map issueAccess
  | .addBits buf bits => bits.map (fun v => issueAccess (.bbAddBit buf v))
  | .set off v        => [.write off v]
  | .setSpec kind short long sync gap reset tol rate =>
    [.write 0x040 kind, .write 0x044 short, .write 0x048 long, .write 0x04C sync, .write 0x050 gap, .write 0x054 reset,
     .write 0x058 tol, .write 0x05C rate]
  | .loadPt pairs     => loadPairs c 0 pairs ++ [.write 0x060 (sat32 pairs.length)]
  | .setPat bits      =>
    (List.range (min (bytesFor bits.length) c.xcap)).map (fun j => .write (c.addrMap.pat + j) ((packedByteOf bits j).setWidth 32))
  | .demodString code => (parseCommands .b0 code).map issueAccess ++ [issueAccess .dmString]

/-- A token of a line. -/
inductive Token where
  | word (t : List Char)
  | text (t : List Char)
  | comma
  | lpar
  | rpar
deriving DecidableEq, Repr

/-- Where the lexer stands: between tokens, in a word, in a quoted text, in a comment. -/
inductive LexMode where
  | between
  | inWord (t : List Char)
  | inText (t : List Char)
  | comment
deriving DecidableEq, Repr

/-- A character that ends a word: what it opens and the token it is. DEDUCED (log 25): `;` starts a comment, as R106 says; programs
P3 and P5 of 95_test_vectors.md part two SETs on one line with it, and there the second SET is lost. -/
def lexBetween (ch : Char) : List Token × LexMode :=
  if ch = ' ' ∨ ch = '\t' then ([], .between)
  else if ch = ';' then ([], .comment)
  else if ch = ',' then ([.comma], .between)
  else if ch = '(' then ([.lpar], .between)
  else if ch = ')' then ([.rpar], .between)
  else if ch = '"' then ([], .inText [])
  else ([], .inWord [ch])

/-- One character of a line. -/
def lexChar (m : LexMode) (ch : Char) : List Token × LexMode :=
  match m with
  | .between  => lexBetween ch
  | .inWord t =>
    if ch = ' ' ∨ ch = '\t' ∨ ch = ';' ∨ ch = ',' ∨ ch = '(' ∨ ch = ')' ∨ ch = '"' then
      (.word t :: (lexBetween ch).1, (lexBetween ch).2)
    else ([], .inWord (t ++ [ch]))
  | .inText t => if ch = '"' then ([.text t], .between) else ([], .inText (t ++ [ch]))
  | .comment  => ([], .comment)

/-- The tokens of a line; `;` starts a comment (R106); none if a quoted text is not closed. -/
def lexLine : LexMode → List Char → Option (List Token)
  | .between, []   => some []
  | .inWord t, []  => some [.word t]
  | .inText _, []  => none
  | .comment, []   => some []
  | m, ch :: rest  => (lexLine (lexChar m ch).2 rest).map (fun ts => (lexChar m ch).1 ++ ts)

/-- Digits in a base, from the left; none on another character or on no digit. DESIGN CHOICE (log 14): R106 and R107 give no grammar
of a numeral; leading zeros are read, in every numeral alike. -/
def readDigits (digit : Char → Option Nat) (base : Nat) : Option Nat → List Char → Option Nat
  | acc, [] => acc
  | acc, ch :: rest =>
    match digit ch with
    | none   => none
    | some d => readDigits digit base (some (base * acc.getD 0 + d)) rest

/-- A number of R107: decimal, or hexadecimal with `0x`, or negative decimal, as a 32-bit word; none if it does not fit. DESIGN
CHOICE (log 14): R107 names negative decimal for a sink status only; the model reads it in every place of a number. -/
def readNumber (t : List Char) : Option Word :=
  match t with
  | '0' :: 'x' :: ds =>
    (readDigits hexDigit 16 none ds).bind (fun n => if n < 2 ^ 32 then some (BitVec.ofNat 32 n) else none)
  | '-' :: ds =>
    (readDigits decDigit 10 none ds).bind (fun n => if n ≤ 2 ^ 31 then some (BitVec.ofInt 32 (-n)) else none)
  | ds =>
    (readDigits decDigit 10 none ds).bind (fun n => if n < 2 ^ 32 then some (BitVec.ofNat 32 n) else none)

/-- A buffer operand, `b0` or `b1` (R106). -/
def readBuf (t : List Char) : Option Buf :=
  if t = ['b', '0'] then some .b0 else if t = ['b', '1'] then some .b1 else none

/-- A decimal numeral below `bound`; leading zeros are read (log 14). -/
def readDecimal (bound : Nat) (t : List Char) : Option Nat :=
  (readDigits decDigit 10 none t).bind (fun n => if n < bound then some n else none)

/-- A row operand: decimal, at most 255 (R106, R91). -/
def readRow (t : List Char) : Option Nat := readDecimal 256 t

/-- A BIT operand: decimal, 0 or 1 (R106, R91). DESIGN CHOICE (log 14): it is read as a row is, so `00` is 0 and `01` is 1. -/
def readBit (t : List Char) : Option Bool := (readDecimal 2 t).map (fun n => n == 1)

/-- A bit string, spaces ignored (R111). DESIGN CHOICE (log 14): R111 says so of ADDBITS only, the model reads the string of SETPAT
in the same way. -/
def readBits : List Char → Option (List Bool)
  | [] => some []
  | ch :: rest =>
    if ch = ' ' then readBits rest
    else (readBit [ch]).bind (fun v => (readBits rest).map (fun vs => v :: vs))

/-- Takes one operand off the list if the command uses it, else a default. -/
def takeOperand {α : Type} (used : Bool) (dflt : α) (rd : List Char → Option α) (ops : List (List Char)) :
    Option (α × List (List Char)) :=
  if used then
    match ops with
    | []        => none
    | t :: rest => (rd t).map (fun v => (v, rest))
  else some (dflt, ops)

/-- The operands of a table row "in the order BUF, A, B, BIT as far as the command uses them" (R106); a field is used iff
the row's mask does not cover it (R93, R95). -/
def readOperands (r : OpcodeRow) (ops : List (List Char)) : Option Instr :=
  (takeOperand (!r.mask.getLsbD 1) .b0 readBuf ops).bind fun x =>
  (takeOperand (!r.mask.getLsbD 16) 0 readRow x.2).bind fun y =>
  (takeOperand (!r.mask.getLsbD 8) 0 readRow y.2).bind fun z =>
  (takeOperand (!r.mask.getLsbD 0) false readBit z.2).bind fun u =>
  if u.2 = [] then some (r.make ⟨r.opc, y.1, z.1, x.1, u.1⟩) else none

/-- The operands that stand behind commas, up to the end of the line. -/
def moreWords : List Token → Option (List (List Char))
  | [] => some []
  | .comma :: .word t :: rest => (moreWords rest).map (fun ts => t :: ts)
  | _ => none

/-- The words of an operand list, "separated by commas" (R106): no comma before the first or after the last, no two in a row;
any other form is not of the grammar and refused (log 14). -/
def commaWords : List Token → Option (List (List Char))
  | [] => some []
  | .word t :: rest => (moreWords rest).map (fun ts => t :: ts)
  | _ => none

/-- The pairs of LOADPT (R111). -/
def readPairs : List Token → Option (List (Word × Word))
  | [] => some []
  | .lpar :: .word p :: .comma :: .word g :: .rpar :: rest =>
    (readNumber p).bind fun a => (readNumber g).bind fun b => (readPairs rest).map (fun ps => (a, b) :: ps)
  | _ => none

/-- The names of the registers with a fixed offset (R50). -/
def registerNames : List (String × Nat) := [
  ("CMD", 0x000), ("STATE", 0x004), ("FLAGS", 0x008), ("ARG0", 0x00C), ("ARG1", 0x010), ("RES0", 0x014), ("RES1", 0x018),
  ("EVENTS", 0x01C), ("DISPATCHES", 0x020), ("CURSOR", 0x024), ("ORIGIN", 0x028), ("MOD_KIND", 0x040),
  ("SHORT_US", 0x044), ("LONG_US", 0x048), ("SYNC_US", 0x04C), ("GAP_US", 0x050), ("RESET_US", 0x054), ("TOL_US", 0x058),
  ("SAMPLE_RATE", 0x05C), ("NUM_PULSES", 0x060), ("FSK_F2_EST", 0x064)]

/-- The offset of `STAT_FAIL[k]`, 0x080 + 4 * k, for `k` in decimal below 16, the most that R50 has room for. For
NFAIL ≤ k < 16 no such register exists and the write is ignored like one to any offset not listed (R50; log 14). -/
def readStatFail (t : List Char) : Option Nat :=
  if t.take 10 = "STAT_FAIL[".toList ∧ t.getLast? = some ']' then
    (readDecimal 16 (t.drop 10).dropLast).map (fun k => 0x080 + 4 * k)
  else none

/-- The offset of a register by its name (R50). -/
def readRegister (t : List Char) : Option Nat :=
  match registerNames.find? (fun e => e.1.toList == t) with
  | some e => some e.2
  | none   => readStatFail t

/-- The names of the MOD_KIND codes, in the order of the codes (R103). -/
def kindNames : List (String × Word) := [
  ("PCM", 0), ("PPM", 1), ("PWM", 2), ("MANCHESTER_ZEROBIT", 3), ("DMC", 4), ("PIWM_RAW", 5), ("PIWM_DC", 6), ("OSV1", 7)]

/-- A MOD_KIND operand: a name of R103 or a number. -/
def readKind (t : List Char) : Option Word :=
  match kindNames.find? (fun e => e.1.toList == t) with
  | some e => some e.2
  | none   => readNumber t

/-- The numbers of SETSPEC (R111). -/
def readSpec (ops : List (List Char)) : Option AsmLine :=
  match ops with
  | [k, a, b, d, e, f, g, h] =>
    (readKind k).bind fun k => (readNumber a).bind fun a => (readNumber b).bind fun b => (readNumber d).bind fun d =>
    (readNumber e).bind fun e => (readNumber f).bind fun f => (readNumber g).bind fun g => (readNumber h).bind fun h =>
    some (.setSpec k a b d e f g h)
  | _ => none

/-- A line from its first word and the tokens after it; none if it is not of the syntax (R106, R110 to R112). -/
def readTokens (m : List Char) (rest : List Token) : Option AsmLine :=
  if m = "PARSE".toList then
    match rest with
    | [.word b, .comma, .text t] => (readBuf b).map (fun buf => .parse buf t)
    | _ => none
  else if m = "ADDBITS".toList then
    match rest with
    | [.word b, .comma, .text t] => (readBuf b).bind (fun buf => (readBits t).map (.addBits buf))
    | _ => none
  else if m = "SET".toList then
    match rest with
    | [.word r, .comma, .word v] =>
      (readRegister r).bind (fun off => (readNumber v).map (.set off))
    | _ => none
  else if m = "SETSPEC".toList then (commaWords rest).bind readSpec
  else if m = "LOADPT".toList then (readPairs rest).map .loadPt
  else if m = "SETPAT".toList then
    match rest with
    | [.text t] => (readBits t).map .setPat
    | _ => none
  else if m = "DEMOD_STRING".toList then
    match rest with
    | [.text t] => some (.demodString t)
    | _ => none
  else
    (opcodeTable.find? (fun r => r.mnemonic.toList == m)).bind fun r =>
      (commaWords rest).bind fun ops => (readOperands r ops).map .command

/-- One line of assembler text (R106): nothing for an empty line or a comment, none if it is not of the syntax. -/
def readLine (t : List Char) : Option (Option AsmLine) :=
  match lexLine .between t with
  | none => none
  | some [] => some none
  | some (.word m :: rest) => (readTokens m rest).map some
  | some _ => none

/-- A buffer as R106 writes it. -/
def bufText : Buf → List Char
  | .b0 => ['b', '0']
  | .b1 => ['b', '1']

/-- A command word in the assembler syntax (R106); none if the word is reserved. -/
def asmText (w : Word) : Option (List Char) :=
  match opcodeTable.find? (fun r => r.opc == (fieldsOf w).opc) with
  | none   => none
  | some r =>
    if w &&& r.mask = r.pattern then
      let f := fieldsOf w
      let ops := (if r.mask.getLsbD 1 then [] else [bufText f.buf]) ++
        (if r.mask.getLsbD 16 then [] else [decimal f.a]) ++ (if r.mask.getLsbD 8 then [] else [decimal f.b]) ++
        (if r.mask.getLsbD 0 then [] else [if f.bit then ['1'] else ['0']])
      some (r.mnemonic.toList ++ (if ops = [] then [] else [' ']) ++ (List.intersperse [',', ' '] ops).flatten)
    else none

/-- The block with the accesses of some lines waiting at its bus, after those already there. -/
def State.withLines (s : State) (ls : List AsmLine) : State :=
  { s with pending := s.pending ++ ls.flatMap (AsmLine.accesses s.cfg) }

end Sys2Proof.Machine
end

