-- ==== Sys2Proof/Tests/Slice0.lean ====
section
/-! SUPPORT. Tests on fixed values, expected results taken from the encodings of R95 and the vectors of spec/95_test_vectors.md, and
for every obligation with hypotheses a state that meets them, clause by clause. -/

namespace Sys2Proof.Tests

open Sys2Proof Sys2Proof.Machine

/-! ### Helpers -/

/-- The standard parameters with other BitBuffer dimensions. -/
def dims (rows cols : Nat) : Params := { Params.standard with rows := rows, cols := cols }

/-- Bits written as text. -/
def bits (t : String) : List Bool := t.toList.map (fun ch => ch == '1')

/-- A buffer after ADD_BIT of each bit on an empty one. -/
def filled (c : Params) (l : List Bool) : BitBuffer := (Logged.addAll c l (BitBuffer.empty, 0)).1

/-- The block after reset with such a buffer as `bb[0]`. -/
def blk (rows cols : Nat) (t : String) : State :=
  { State.resetWith (dims rows cols) with bb0 := filled (dims rows cols) (bits t) }

/-- The block after reset with one given row as `bb[0]`. -/
def oneRow (mem : Memory Byte) (len : Nat) : State := { State.reset with bb0 := ⟨mem, [(0, len)], [], 1, 1⟩ }

/-- The block with operands in ARG0 and ARG1. -/
def args (s : State) (a0 a1 : Word) : State := { s with arg0 := a0, arg1 := a1 }

/-- The state after one command. -/
def after (i : Instr) (s : State) : Option State :=
  match exec i s with
  | .next t    => some t
  | .fault _   => none
  | .refused _ => none

/-- The state after one step. -/
def stepped (s : State) : Option State :=
  match step s with
  | .next t    => some t
  | .fault _   => none
  | .refused _ => none

/-- The bits of a row. -/
def rowBits (s : State) (b : Buf) (r : Nat) : List Bool := (List.range ((s.bb b).len r)).map ((s.bb b).bit s.cfg r)

/-- The lengths of the rows of a buffer. -/
def lengths (s : State) (b : Buf) : List Nat := (List.range (s.bb b).numRows).map (s.bb b).len

/-- The block at 1 MHz with a ModulationSpec and a train of pulse and gap pairs. -/
def radio (kind : BitVec 3) (short long sync gap reset tol : Word) (train : List (Nat × Nat)) : State :=
  { State.reset with
    spec := ⟨kind, short, long, sync, gap, reset, tol⟩
    pt := ⟨train.zipIdx.filterMap (fun e => if e.1.1 = 0 then none else some (e.2, BitVec.ofNat 32 e.1.1)),
      train.zipIdx.filterMap (fun e => if e.1.2 = 0 then none else some (e.2, BitVec.ofNat 32 e.1.2)),
      BitVec.ofNat 32 train.length, 1000000, 0⟩ }

/-- The block with the next access of the environment. -/
def facing (x : Access) (s : State) : State := { s with pending := [x] }

/-! ### Well-formedness: a row operand is 8 bits wide (R91) -/

theorem test_wf_extract : WellFormed (.bbExtract .b0 256) = false := by decide
theorem test_wf_search : WellFormed (.bbSearch .b0 256) = false := by decide
theorem test_wf_cmprows_a : WellFormed (.bbCmpRows .b0 256 0) = false := by decide
theorem test_wf_cmprows_b : WellFormed (.bbCmpRows .b0 0 256) = false := by decide
theorem test_wf_cntrep : WellFormed (.bbCntRep .b0 256) = false := by decide
theorem test_wf_manch : WellFormed (.ldManch .b0 256) = false := by decide
theorem test_wf_dmanch : WellFormed (.ldDmanch .b0 256) = false := by decide
theorem test_wf_admits : WellFormed (.bbCmpRows .b1 255 255) = true := by decide

/-! ### Decoding: one word of every command, columns of R91 and opcodes of R95 -/

theorem test_decode_clear : decode 0x01000002 = .ok (.bbClear .b1) := rfl
theorem test_decode_addbit : decode 0x02000003 = .ok (.bbAddBit .b1 true) := rfl
theorem test_decode_addrow : decode 0x03000000 = .ok (.bbAddRow .b0) := rfl
theorem test_decode_addsync : decode 0x04000002 = .ok (.bbAddSync .b1) := rfl
theorem test_decode_invert : decode 0x10000000 = .ok (.bbInvert .b0) := rfl
theorem test_decode_nrzs : decode 0x11000002 = .ok (.bbNrzs .b1) := rfl
theorem test_decode_nrzm : decode 0x12000000 = .ok (.bbNrzm .b0) := rfl
theorem test_decode_extract : decode 0x13070002 = .ok (.bbExtract .b1 7) := rfl
theorem test_decode_search : decode 0x14FF0000 = .ok (.bbSearch .b0 255) := rfl
theorem test_decode_cmprows : decode 0x15090A02 = .ok (.bbCmpRows .b1 9 10) := rfl
theorem test_decode_cntrep : decode 0x16010000 = .ok (.bbCntRep .b0 1) := rfl
theorem test_decode_findrow : decode 0x17000002 = .ok (.bbFindRow .b1) := rfl
theorem test_decode_findpfx : decode 0x18000000 = .ok (.bbFindPfx .b0) := rfl
theorem test_decode_manch : decode 0x20310002 = .ok (.ldManch .b1 0x31) := rfl
theorem test_decode_dmanch : decode 0x21800000 = .ok (.ldDmanch .b0 128) := rfl
theorem test_decode_run : decode 0x30000000 = .ok .dmRun := rfl
theorem test_decode_sinkret : decode 0x31000000 = .ok .dmSinkRet := rfl
theorem test_decode_string : decode 0x32000000 = .ok .dmString := rfl

theorem test_reserved_opcode : decode 0x05000000 = .error (.unknownOpcode 0x05) := rfl
theorem test_reserved_z : decode 0x02000004 = .error (.unusedFieldSet "BB_ADDBIT") := rfl
theorem test_reserved_bit_unused : decode 0x03000001 = .error (.unusedFieldSet "BB_ADDROW") := rfl
theorem test_reserved_b_unused : decode 0x13000100 = .error (.unusedFieldSet "BB_EXTRACT") := rfl
theorem test_reserved_buf_unused : decode 0x30000002 = .error (.unusedFieldSet "DM_RUN") := rfl

theorem test_encode_cmprows : encode (.bbCmpRows .b1 9 10) = 0x15090A02 := by decide
theorem test_encode_addbit : encode (.bbAddBit .b1 true) = 0x02000003 := by decide

/-! ### BitBuffer commands: vectors BB-n and AUX-n -/

/-- BB_CLEAR of a used buffer (BB-C1). -/
theorem test_clear : (after (.bbClear .b0) (blk 2 1 "111")).map (fun t => t.bb0) = some BitBuffer.empty := by decide

/-- The ninth bit of a row of one byte spills into the next slot (BB-2). -/
theorem test_addbit_spills : (after (.bbAddBit .b0 true) (blk 3 1 "11111111")).map
    (fun t => (t.bb0.len 0, t.bb0.numRows, t.bb0.freeRow, t.bb0.mem.read 1)) = some (9, 1, 2, 0x80) := by decide

/-- A full row drops the bit (BB-3). -/
theorem test_addbit_drops : (after (.bbAddBit .b0 true) (blk 1 1 "11111111")).map (fun t => (t.bb0.len 0, t.flags)) =
    some (8, 1) := by decide

/-- BB_ADDROW after a row that spilled starts behind the spilled slot (BB-5). -/
theorem test_addrow_after_spill : (after (.bbAddRow .b0) (blk 3 1 "111111111")).map
    (fun t => (t.bb0.numRows, t.bb0.freeRow, lengths t .b0)) = some (3, 3, [9, 0, 0]) := by decide

/-- BB_ADDROW with no slot left clears the current row (BB-10). -/
theorem test_addrow_overflow : (after (.bbAddRow .b0) (blk 1 1 "1")).map
    (fun t => (t.bb0.numRows, t.bb0.len 0, t.bb0.mem.read 0, t.flags)) = some (1, 0, 0, 2) := by decide

/-- BB_ADDSYNC on an empty buffer counts in row 0 (BB-8). -/
theorem test_addsync_empty : (after (.bbAddSync .b0) (blk 3 1 "")).map
    (fun t => (t.bb0.numRows, t.bb0.syncsBeforeRow.read 0)) = some (1, 1) := by decide

/-- BB_ADDSYNC after data opens a row (BB-8). -/
theorem test_addsync_data : (after (.bbAddSync .b0) (blk 3 1 "1")).map
    (fun t => (t.bb0.numRows, t.bb0.syncsBeforeRow.read 0, t.bb0.syncsBeforeRow.read 1)) = some (2, 0, 1) := by decide

/-- {12}abc inverted is {12}543, padding untouched (AUX-1). -/
theorem test_invert : (after (.bbInvert .b0) (oneRow [(0, 0xAB), (1, 0xC0)] 12)).map (fun t => t.bb0.mem) =
    some [(0, 0x54), (1, 0x30)] := by decide

/-- NRZM of {8}b4 is {8}ee (AUX-23). -/
theorem test_nrzm : (after (.bbNrzm .b0) (oneRow [(0, 0xB4)] 8)).map (fun t => t.bb0.mem) = some [(0, 0xEE)] := by decide

/-- NRZS of {8}b4 is {8}11 (AUX-23). -/
theorem test_nrzs : (after (.bbNrzs .b0) (oneRow [(0, 0xB4)] 8)).map (fun t => t.bb0.mem) = some [(0, 0x11)] := by decide

/-- Eight bits from offset 8, past the end of a row, are padded with zeros (AUX-2). -/
theorem test_extract : (after (.bbExtract .b0 0) (args (oneRow [(0, 0xAB), (1, 0xC0)] 12) 8 8)).map
    (fun t => (t.xbuf.read 0, t.res0, t.flags)) = some (0xC0, 8, 0) := by decide

/-- A request beyond XBUF is clipped to `8 * XCAP` bits (R148), here with XCAP = 1. -/
theorem test_extract_clips : (after (.bbExtract .b0 0) { args (oneRow [(0, 0xB4)] 8) 0 9 with
    cfg := { Params.standard with xcap := 1 } }).map (fun t => (t.res0, t.flags, t.xbuf)) = some (8, 0x20, [(0, 0xB4)]) := by
  decide

/-- 1011 in abcd: found at 4 from 0 on, and not from 5 on (AUX-8, AUX-9). -/
theorem test_search : ((after (.bbSearch .b0 0) { args (oneRow [(0, 0xAB), (1, 0xCD)] 16) 0 4 with
      pat := [(0, 0xB0)] }).map (fun t => t.res0),
    (after (.bbSearch .b0 0) { args (oneRow [(0, 0xAB), (1, 0xCD)] 16) 5 4 with pat := [(0, 0xB0)] }).map
      (fun t => t.res0)) = (some 4, some 16) := by decide

/-- A pattern of length 0 is found nowhere (R150). -/
theorem test_search_empty : (after (.bbSearch .b0 0) (args (blk 2 2 "101") 0 0)).map (fun t => t.res0) = some 3 := by decide

/-- A buffer of three short rows: 101, 101, 100. -/
def threeRows : State :=
  let p := ((Logged.addAll (dims 4 1) (bits "101") (BitBuffer.empty, 0)).addRow (dims 4 1))
  let q := (Logged.addAll (dims 4 1) (bits "101") p).addRow (dims 4 1)
  { State.resetWith (dims 4 1) with bb0 := (Logged.addAll (dims 4 1) (bits "100") q).1 }

/-- Rows that differ in the third bit only match over two bits (R153, as AUX-15). -/
theorem test_cmprows : ((after (.bbCmpRows .b0 0 2) (args threeRows 2 0)).map (fun t => t.res0),
    (after (.bbCmpRows .b0 0 2) (args threeRows 3 0)).map (fun t => t.res0)) = (some 1, some 0) := by decide

/-- Exact and over a first part (R155, as AUX-16). -/
theorem test_cntrep : ((after (.bbCntRep .b0 0) (args threeRows 0 0)).map (fun t => t.res0),
    (after (.bbCntRep .b0 0) (args threeRows 2 0)).map (fun t => t.res0)) = (some 2, some 3) := by decide

/-- The first row seen twice, and no row seen three times (R157, as AUX-17). -/
theorem test_findrow : ((after (.bbFindRow .b0) (args threeRows 2 3)).map (fun t => t.res0),
    (after (.bbFindRow .b0) (args threeRows 3 3)).map (fun t => t.res0)) = (some 0, some 0xFFFFFFFF) := by decide

/-- Compared over two bits all three rows match (R158, as AUX-17). -/
theorem test_findpfx : (after (.bbFindPfx .b0) (args threeRows 3 2)).map (fun t => t.res0) = some 0 := by decide

/-! ### Line decoders: vectors LD-n -/

/-- {8}99 is 0101, that is {4}5 (LD-1). -/
theorem test_manch : (after (.ldManch .b0 0) (blk 2 1 "10011001")).map (fun t => (rowBits t .b1 0, t.res0, t.res1)) =
    some (bits "0101", 8, 4) := by decide

/-- An equal pair is stepped over and ends the decoding (LD-4). -/
theorem test_manch_stops : (after (.ldManch .b0 0) (blk 2 1 "10101100")).map (fun t => (rowBits t .b1 0, t.res0, t.res1)) =
    some (bits "00", 6, 2) := by decide

/-- {8}aa: every cell a change in its middle, three ones and no more to pair with (DMC-4). -/
theorem test_dmanch : (after (.ldDmanch .b0 0) (blk 2 1 "10101010")).map (fun t => (rowBits t .b1 0, t.res0, t.res1)) =
    some (bits "111", 6, 3) := by decide

/-- {8}cc: no change in the middle of a cell, the steady state from the start (DMC-1). -/
theorem test_dmanch_steady : (after (.ldDmanch .b0 0) (blk 2 1 "11001100")).map (fun t => (rowBits t .b1 0, t.res0, t.res1)) =
    some (bits "0000", 8, 4) := by decide

/-! ### Demodulator: vectors DM-n, PCM-n, PPM-n, PWM-n, SK-n -/

/-- {15}d800 by PCM in RZ coding (PCM-1). -/
theorem test_pcm : (after .dmRun (radio 0 100 200 0 0 2000 0 [(100, 100), (100, 300), (100, 100), (100, 5000)])).map
    (fun t => (t.phase, t.cursor, t.bb0.len 0, t.bb0.mem)) = some (.dispatch, 3, 15, [(0, 0xD8)]) := by decide

/-- PPM in raw mode: {4}50 (PPM-D1). -/
theorem test_ppm : (after .dmRun (radio 1 250 500 0 0 1000 0 [(100, 200), (100, 600), (100, 200), (100, 600)])).map
    (fun t => (t.phase, rowBits t .b0 0, t.dispatches)) = some (.dispatch, bits "0101", 1) := by decide

/-- PWM in strict mode with a row break: {3}a0/{1}00 (PWM-1). -/
theorem test_pwm : (after .dmRun (radio 2 200 600 0 0 2000 100
    [(200, 300), (600, 300), (50, 300), (200, 300), (400, 300), (600, 3000)])).map
    (fun t => (rowBits t .b0 0, rowBits t .b0 1)) = some (bits "101", bits "0") := by decide

/-- A reserved kind (DM-1). -/
theorem test_run_kind : (after .dmRun (radio 3 1 1 1 1 1 1 [])).map (fun t => (t.phase, t.flags, t.done)) =
    some (.idle, 0x200, true) := by decide

/-- A pending dispatch: PPM, the message ends at the third symbol (SK-1). -/
def waiting : State :=
  ((after .dmRun (radio 1 250 500 0 0 1000 0
    [(100, 200), (100, 600), (100, 2000), (100, 200), (100, 200), (100, 1000)])).getD State.reset)

/-- Status 2 is counted and the run goes on to the next message (SK-1). -/
theorem test_sinkret : (after .dmSinkRet { waiting with arg0 := 2 }).map
    (fun t => (t.phase, t.events, t.cursor, t.dispatches, rowBits t .b0 0)) =
    some (.dispatch, 2, 5, 2, bits "00") := by decide

/-- Status -5 is outside the legal range: FATAL (SK-3). -/
theorem test_sinkret_fatal : (after .dmSinkRet { waiting with arg0 := 0xFFFFFFFB }).map (fun t => (t.phase, t.flags, t.res0)) =
    some (.fatal, 0x80000000, 0xFFFFFFFB) := by decide

/-- DM_STRING dispatches `bb[0]` as it stands (R219). -/
theorem test_string : (after .dmString (blk 1 1 "101")).map (fun t => (t.phase, t.origin, t.dispatches, t.bb0.len 0)) =
    some (.dispatch, .string, 1, 3) := by decide

/-! ### The bus and the text forms -/

theorem test_bus_numpulses : (stepped (facing (.write 0x060 1201) State.reset)).map (fun t => (t.pt.numPulses, t.flags)) =
    some (1200, 0x10) := by decide
theorem test_bus_read_lat : (stepped (facing (.read 0x19C) { State.reset with lat := { Latches.zero with syncL := -1 } })).map
    (fun t => t.rdata) = some 0xFFFFFFFF := by decide
theorem test_reserved_word : (stepped (facing (.write 0 0x05000000) State.reset)).map (fun t => t.flags) = some 0x800 := by decide
theorem test_fetch : (stepped (State.reset.withFetchWord 32 0x02000001)).map (fun t => rowBits t .b0 0) = some [true] := by decide

/-- The text of a row of 12 bits (R108), its braces written as character codes. -/
theorem test_render : render Params.standard (oneRow [(0, 0xAB), (1, 0xC0)] 12).bb0 =
    [Char.ofNat 123, '1', '2', Char.ofNat 125, 'a', 'b', 'c', '0'] := by decide

/-- A line of assembler text and its word (R106). -/
theorem test_assemble : ((readLine "BB_CMPROWS b1, 9, 10".toList).map (fun l => l.map (AsmLine.accesses Params.standard))) =
    some (some [.write 0 0x15090A02]) := by decide

/-- An operand list that ends in a comma is refused; STAT_FAIL[2] and OSV1 are known by name (R50, R103, R106, R111; log 14). -/
theorem test_assemble_forms : readLine "BB_ADDROW b1,".toList = none ∧
    readLine "SET STAT_FAIL[2], 1".toList = some (some (.set 0x088 1)) ∧ readKind "OSV1".toList = some 7 := by decide

/-- Rows and BIT are decimal (R106), with leading zeros (log 14); a BIT of 2 has no field (R91). -/
theorem test_leading_zeros : readLine "BB_ADDBIT b0, 01".toList = some (some (.command (.bbAddBit .b0 true))) ∧
    readLine "LD_MANCH b0, 007".toList = readLine "LD_MANCH b0, 7".toList ∧ readLine "BB_ADDBIT b0, 2".toList = none := by decide

/-- The pair at MAXP has no element to go to (R70, R111). -/
theorem test_loadpt_capacity : loadPairs { Params.standard with maxp := 1 } 0 [(1, 2), (3, 4)] =
    [.write 0x2000 1, .write 0x4000 2] := by decide

/-- 51200 storage bits need 16 bits of count (R8). -/
theorem test_bprw : Params.standard.bprw = 16 := by decide

/-- PARSE of two hexadecimal characters after a declared length of 6 (R109, R110). -/
theorem test_parse : parseCommands .b0 (Char.ofNat 123 :: '6' :: Char.ofNat 125 :: ['a', '4']) =
    .bbClear .b0 :: (bits "101001").map (.bbAddBit .b0) := by decide

/-! ### Witnesses: for each obligation with hypotheses, operands and states that meet them, each clause at a boundary -/

theorem filled_good {c : Params} (h : c.Legal) (l : List Bool) : (filled c l).Good c := (addAll_keeps l _).1 h empty_good

/-- A row 0 that is empty and carries `n` syncs, `n` not 0. -/
def synced (n : BitVec 16) : BitBuffer := ⟨[], [], [(0, n)], 1, 1⟩

theorem synced_good {n : BitVec 16} (hn : n ≠ 0) : (synced n).Good (dims 1 1) where
  cursors := ⟨Nat.le_refl 1, Nat.le_refl 1, by simp [synced]⟩
  free := fun _ => by
    show 1 = 0 + BitBuffer.extent (dims 1 1) BitBuffer.empty 0
    decide
  unused := fun r hr => by
    have h1 : 1 ≤ r := hr
    exact ⟨rfl, by simp [synced, Memory.read]; omega⟩
  padding := fun a k _ h => by simp [synced] at h
  disjoint := by
    refine ⟨fun r hr r' h1 h2 => ?_, fun r hr => ?_⟩
    · have h3 : r < 1 := hr
      have h4 : BitBuffer.extent (dims 1 1) (synced n) r = BitBuffer.extent (dims 1 1) BitBuffer.empty 0 := rfl
      have h5 : BitBuffer.extent (dims 1 1) BitBuffer.empty 0 = 1 := by decide
      omega
    · have h3 : r < 0 := hr
      omega
  canonical := ⟨Memory.wf_nil, Memory.wf_nil, ⟨by simp [synced], by simpa [synced] using hn⟩⟩

theorem dims_legal : (dims 1 1).Legal := by decide

theorem test_wit_DecodeEncode : WellFormed (.bbCmpRows .b1 255 0) = true := by decide

theorem test_wit_EncodeDecode : decode 0x13FF0002 = .ok (.bbExtract .b1 255) := rfl

theorem test_wit_StepRunsCommand : let s := facing (.write 3 0x02000001) State.reset
    s.AtRest ∧ s.pending = .write 3 0x02000001 :: [] ∧ 3 < 4 ∧ decode 0x02000001 = .ok (.bbAddBit .b0 true) :=
  ⟨Or.inl rfl, rfl, by decide, rfl⟩

theorem test_wit_BadCommandRefused :
    (let s := facing (.write 3 0x02000004) State.reset
     s.AcceptsBuffer ∧ s.pending = .write 3 0x02000004 :: [] ∧ 3 < 4 ∧
       ∀ r ∈ opcodeTable, 0x02000004 &&& r.mask ≠ r.pattern) ∧
    (State.reset.AcceptsBuffer ∧ State.reset.cfg.rows ≤ 50) ∧
    ((args State.reset 0 1025).AcceptsBuffer ∧ 8 * (args State.reset 0 1025).cfg.xcap < (args State.reset 0 1025).arg1.toNat) :=
  ⟨⟨Or.inl rfl, rfl, by decide, by decide⟩, ⟨Or.inl rfl, by decide⟩, ⟨Or.inl rfl, by decide⟩⟩

theorem test_wit_RunCommandsByState : ({ State.reset with phase := .dispatch } : State).phase = .dispatch ∧
    State.reset.phase = .idle ∧ ({ State.reset with phase := .fatal } : State).phase = .fatal := ⟨rfl, rfl, rfl⟩

/-- The block in FATAL with one more access to come. -/
def dead (x : Access) : State := { facing x State.reset with phase := .fatal, flags := 0x80000000 }

theorem test_wit_FatalIgnoresCommands : (dead .rst).phase = .fatal := rfl

theorem test_wit_FatalIsAbsorbing : ∀ x ∈ [Access.write 8 0xFFFFFFFF, .write 0 0x01000000, .read 4, .rst],
    (dead x).phase = .fatal ∧ (dead x).pending = [x] := fun _ _ => ⟨rfl, rfl⟩

theorem test_wit_ClearZeroes : (blk 2 1 "1").AcceptsBuffer ∧ ({ blk 2 1 "1" with phase := .dispatch } : State).AcceptsBuffer :=
  ⟨Or.inl rfl, Or.inr rfl⟩

/-- The row is full and no slot is left; the row is full and a slot is left; the row has room for one bit. -/
theorem test_wit_AddBitAppends :
    (let s := blk 1 1 "11111111"
     let x := (s.bb .b0).autocreate
     s.AcceptsBuffer ∧ (s.bb .b0).Canonical ∧
       (0 < x.len x.cur ∧ x.len x.cur % (8 * s.cfg.cols) = 0 ∧ x.freeRow = s.cfg.rows)) ∧
    (∀ s ∈ [blk 2 1 "11111111", blk 1 1 "1111111"], let x := (s.bb .b0).autocreate
     s.AcceptsBuffer ∧ (s.bb .b0).Canonical ∧
       ¬(0 < x.len x.cur ∧ x.len x.cur % (8 * s.cfg.cols) = 0 ∧ x.freeRow = s.cfg.rows)) := by
  refine ⟨⟨Or.inl rfl, (filled_good (by decide) _).canonical, by decide⟩, fun s hs => ?_⟩
  rcases List.mem_pair.1 hs with rfl | rfl
  · exact ⟨Or.inl rfl, (filled_good (by decide) _).canonical, by decide⟩
  · exact ⟨Or.inl rfl, (filled_good (by decide) _).canonical, by decide⟩

theorem test_wit_AddBitsFillRow : (dims 1 1).Legal ∧ (bits "11111111").length = (dims 1 1).rows * (8 * (dims 1 1).cols) ∧
    (dims 1 1).rows * (8 * (dims 1 1).cols) < (bits "111111110").length := by decide

/-- One slot is left; no slot is left. -/
theorem test_wit_AddRowStartsRow :
    (let s := blk 2 1 "1"
     s.AcceptsBuffer ∧ s.cfg.Legal ∧ (s.bb .b0).Good s.cfg ∧ (s.bb .b0).autocreate.freeRow < s.cfg.rows) ∧
    (let s := blk 1 1 ""
     s.AcceptsBuffer ∧ s.cfg.Legal ∧ (s.bb .b0).Good s.cfg ∧ ¬ (s.bb .b0).autocreate.freeRow < s.cfg.rows) :=
  ⟨⟨Or.inl rfl, by decide, filled_good (by decide) _, by decide⟩, ⟨Or.inl rfl, by decide, filled_good (by decide) _, by decide⟩⟩

/-- The four cases: count 65534, count 65535, data with a slot left, data with none. -/
theorem test_wit_AddSyncCounts :
    (let s := { State.resetWith (dims 1 1) with bb0 := synced 65534 }
     let x := (s.bb .b0).autocreate
     s.AcceptsBuffer ∧ s.cfg.Legal ∧ (s.bb .b0).Good s.cfg ∧ x.len x.cur = 0 ∧ x.syncsBeforeRow.read x.cur ≠ 65535#16) ∧
    (let s := { State.resetWith (dims 1 1) with bb0 := synced 65535 }
     let x := (s.bb .b0).autocreate
     s.AcceptsBuffer ∧ s.cfg.Legal ∧ (s.bb .b0).Good s.cfg ∧ x.len x.cur = 0 ∧ x.syncsBeforeRow.read x.cur = 65535#16) ∧
    (let s := blk 2 1 "1"
     let x := (s.bb .b0).autocreate
     s.AcceptsBuffer ∧ s.cfg.Legal ∧ (s.bb .b0).Good s.cfg ∧ 0 < x.len x.cur ∧ x.freeRow < s.cfg.rows) ∧
    (let s := blk 1 1 "1"
     let x := (s.bb .b0).autocreate
     s.AcceptsBuffer ∧ s.cfg.Legal ∧ (s.bb .b0).Good s.cfg ∧ 0 < x.len x.cur ∧ ¬ x.freeRow < s.cfg.rows) :=
  ⟨⟨Or.inl rfl, by decide, synced_good (by decide), by decide, by decide⟩,
   ⟨Or.inl rfl, by decide, synced_good (by decide), by decide, by decide⟩,
   ⟨Or.inl rfl, by decide, filled_good (by decide) _, by decide, by decide⟩,
   ⟨Or.inl rfl, by decide, filled_good (by decide) _, by decide, by decide⟩⟩

/-- A row with a bit, a slot left or none; an empty buffer with no second slot; every command answers a next state. -/
theorem test_wit_CoreKeepsInvariants :
    (∀ s ∈ [blk 1 1 "1", blk 2 1 "1", blk 1 1 ""], s.cfg.Legal ∧ (s.bb .b0).Good s.cfg ∧
      ∀ i ∈ [Instr.bbClear .b0, .bbAddBit .b0 true, .bbAddRow .b0, .bbAddSync .b0], ∃ t, exec i s = .next t) ∧
    (let x := ((blk 2 1 "1").bb .b0).autocreate
     0 < x.len x.cur ∧ x.freeRow < (blk 2 1 "1").cfg.rows) ∧
    (let x := ((blk 1 1 "1").bb .b0).autocreate
     0 < x.len x.cur ∧ ¬ x.freeRow < (blk 1 1 "1").cfg.rows) ∧
    (let x := ((blk 1 1 "").bb .b0).autocreate
     x.len x.cur = 0 ∧ ¬ x.freeRow < (blk 1 1 "").cfg.rows) := by
  refine ⟨fun s hs => ?_, by decide, by decide, by decide⟩
  simp only [List.mem_cons, List.not_mem_nil, or_false] at hs
  rcases hs with rfl | rfl | rfl <;> exact ⟨by decide, filled_good (by decide) _, fun i _ => exec_answers i _⟩

/-- A buffer with one row of one bit, and the empty one. -/
theorem test_wit_InvertFlipsActiveBits : ∀ u ∈ ["1", ""], (blk 1 1 u).AcceptsBuffer ∧ (blk 1 1 u).cfg.Legal ∧
    ((blk 1 1 u).bb .b0).Good (blk 1 1 u).cfg :=
  fun _ _ => ⟨Or.inl rfl, dims_legal, filled_good dims_legal _⟩

theorem test_wit_InvertTwiceRestores : ((blk 1 1 "1").AcceptsBuffer ∧ (blk 1 1 "1").cfg.Legal ∧
    ((blk 1 1 "1").bb .b0).Good (blk 1 1 "1").cfg) ∧ ((blk 1 1 "").AcceptsBuffer ∧ (blk 1 1 "").cfg.Legal ∧
    ((blk 1 1 "").bb .b0).Good (blk 1 1 "").cfg ∧ ((blk 1 1 "").bb .b0).numRows = 0) :=
  ⟨⟨Or.inl rfl, by decide, filled_good (by decide) _⟩, ⟨Or.inl rfl, by decide, filled_good (by decide) _, by decide⟩⟩

theorem test_wit_NrzsDecodes : (blk 1 1 "10").AcceptsBuffer ∧ (blk 1 1 "10").cfg.Legal ∧
    ((blk 1 1 "10").bb .b0).Good (blk 1 1 "10").cfg ∧ 1 < ((blk 1 1 "10").bb .b0).len 0 :=
  ⟨Or.inl rfl, by decide, filled_good (by decide) _, by decide⟩

theorem test_wit_NrzmDecodes : (blk 1 1 "01").AcceptsBuffer ∧ (blk 1 1 "01").cfg.Legal ∧
    ((blk 1 1 "01").bb .b0).Good (blk 1 1 "01").cfg ∧ 1 < ((blk 1 1 "01").bb .b0).len 0 :=
  ⟨Or.inl rfl, by decide, filled_good (by decide) _, by decide⟩

theorem test_wit_TransformsKeepInvariants : (blk 1 1 "101").cfg.Legal ∧ ((blk 1 1 "101").bb .b0).Good (blk 1 1 "101").cfg ∧
    ∀ i ∈ [Instr.bbInvert .b0, .bbNrzs .b0, .bbNrzm .b0], ∃ t, exec i (blk 1 1 "101") = .next t :=
  ⟨by decide, filled_good (by decide) _, fun i _ => exec_answers i _⟩

/-- The last row number and the greatest length that is not clipped. -/
theorem test_wit_ExtractCopiesRun : (args State.reset 0 1024).AcceptsBuffer ∧ 49 < (args State.reset 0 1024).cfg.rows ∧
    (args State.reset 0 1024).xbuf.wf ∧ ¬ 8 * (args State.reset 0 1024).cfg.xcap < (args State.reset 0 1024).arg1.toNat ∧
    8 * (args State.reset 0 1025).cfg.xcap < (args State.reset 0 1025).arg1.toNat :=
  ⟨Or.inl rfl, by decide, by decide, by decide, by decide⟩

/-- A pattern too long by one; the longest pattern; the empty pattern; a match at the start; no match. -/
theorem test_wit_SearchFindsLeast :
    ((args State.reset 0 1025).AcceptsBuffer ∧ 49 < State.reset.cfg.rows ∧ 8 * State.reset.cfg.xcap < (1025 : Word).toNat) ∧
    (1024 : Word).toNat ≤ 8 * State.reset.cfg.xcap ∧
    ((args State.reset 0 0).arg1.toNat = 0) ∧
    (let s := args (blk 1 1 "1") 0 1
     ∀ k, k < s.arg1.toNat → s.bb0.bit s.cfg 0 (0 + k) = (Memory.read (([(0, 0x80)] : List (Nat × Byte))) (k / 8)).getLsbD (7 - k % 8)) ∧
    (let s := args (blk 1 1 "1") 1 1
     ¬ ∃ i, s.arg0.toNat ≤ i ∧ i + s.arg1.toNat ≤ s.bb0.len 0) := by
  refine ⟨⟨Or.inl rfl, by decide, by decide⟩, by decide, rfl, by decide, ?_⟩
  intro s h
  obtain ⟨i, h1, h2⟩ := h
  have h3 : 1 ≤ i := h1
  have h4 : i + 1 ≤ 1 := h2
  omega

theorem test_wit_CompareRowsResult : (args threeRows 2 0).AcceptsBuffer ∧ 3 < (args threeRows 2 0).cfg.rows ∧
    0 < (args threeRows 2 0).cfg.rows := ⟨Or.inl rfl, by decide, by decide⟩

/-- Rows of three bits compared exactly, over two bits, over more bits than they hold; two empty rows. -/
theorem test_wit_CompareIsEquivalence : let x := threeRows.bb0
    let c := dims 4 1
    x.cmp c 0 1 0 = true ∧ x.cmp c 0 2 0 = false ∧ x.cmp c 0 1 2 = true ∧ x.cmp c 1 2 2 = true ∧
    (0 < 4 ∧ x.len 0 < 4) ∧ (0 < 3 ∧ 3 ≤ x.len 0 ∧ 3 ≤ x.len 2) ∧ (x.len 3 = 0 ∧ x.len 4 = 0) := by decide

/-- The last row of the buffer, and the first row number behind it. -/
theorem test_wit_CountRepeatsResult :
    ((args (blk 2 1 "1") 0 0).AcceptsBuffer ∧ 0 < (blk 2 1 "1").cfg.rows ∧ 0 < ((blk 2 1 "1").bb .b0).numRows) ∧
    (1 < (blk 2 1 "1").cfg.rows ∧ ((blk 2 1 "1").bb .b0).Good (blk 2 1 "1").cfg ∧ ((blk 2 1 "1").bb .b0).numRows ≤ 1) :=
  ⟨⟨Or.inl rfl, by decide, by decide⟩, by decide, filled_good (by decide) _, by decide⟩

/-- One row: it meets the thresholds 1 and 1, and no row meets the thresholds 2 and 1. -/
theorem test_wit_FindRowResult : (blk 2 1 "1").AcceptsBuffer ∧
    (let x := (blk 2 1 "1").bb .b0
     (0 < x.numRows ∧ 1 ≤ x.len 0 ∧ 1 ≤ matchingRows (dims 2 1) x 0 0) ∧
     ∀ r, ¬ (r < x.numRows ∧ 1 ≤ x.len r ∧ 2 ≤ matchingRows (dims 2 1) x r 0)) := by
  refine ⟨Or.inl rfl, ⟨by decide, by decide, by decide⟩, ?_⟩
  rintro r ⟨h1, -, h3⟩
  have h4 : r < 1 := h1
  obtain rfl : r = 0 := by omega
  exact absurd h3 (by decide)

theorem test_wit_FindPrefixResult : (blk 2 1 "1").AcceptsBuffer ∧
    (let x := (blk 2 1 "1").bb .b0
     (0 < x.numRows ∧ 1 ≤ x.len 0 ∧ 1 ≤ matchingRows (dims 2 1) x 0 1) ∧
     ∀ r, ¬ (r < x.numRows ∧ 1 ≤ x.len r ∧ 2 ≤ matchingRows (dims 2 1) x r 1)) := by
  refine ⟨Or.inl rfl, ⟨by decide, by decide, by decide⟩, ?_⟩
  rintro r ⟨h1, -, h3⟩
  have h4 : r < 1 := h1
  obtain rfl : r = 0 := by omega
  exact absurd h3 (by decide)

theorem test_wit_ManchesterDecodes : (blk 2 1 "1001").AcceptsBuffer ∧ 1 < (blk 2 1 "1001").cfg.rows :=
  ⟨Or.inl rfl, by decide⟩

/-- The bits 0, 1 as high-low and low-high. -/
theorem test_wit_ManchesterRoundTrip : let s := blk 2 1 "1001"
    s.AcceptsBuffer ∧ 0 < s.cfg.rows ∧ s.arg1 = 0 ∧ (s.bb .b0).len 0 = s.arg0.toNat + 2 * [false, true].length ∧
    ∀ j, j < [false, true].length →
      (s.bb .b0).bit s.cfg 0 (s.arg0.toNat + 2 * j) = (!([false, true].getD j false)) ∧
      (s.bb .b0).bit s.cfg 0 (s.arg0.toNat + 2 * j + 1) = [false, true].getD j false :=
  ⟨Or.inl rfl, by decide, rfl, by decide, by decide⟩

theorem test_wit_DifferentialDecodes : (blk 2 1 "1010").AcceptsBuffer ∧ 1 < (blk 2 1 "1010").cfg.rows :=
  ⟨Or.inl rfl, by decide⟩

theorem test_wit_DecodersKeepInvariants : (blk 2 1 "1001").cfg.Legal ∧ (blk 2 1 "1001").bb0.Good (blk 2 1 "1001").cfg ∧
    (blk 2 1 "1001").bb1.Good (blk 2 1 "1001").cfg ∧
    ∀ i ∈ [Instr.ldManch .b0 0, .ldDmanch .b0 0], ∃ t, exec i (blk 2 1 "1001") = .next t :=
  ⟨by decide, filled_good (by decide) _, empty_good, fun i _ => exec_answers i _⟩

/-! Runs. -/

/-- A PPM run over two symbols, in raw mode. -/
def ppmBlock : State := radio 1 250 500 0 0 1000 0 [(100, 200), (100, 600)]

theorem rates_suffice {s : State} (h : ([s.spec.shortUs, s.spec.longUs, s.spec.syncUs, s.spec.gapUs, s.spec.resetUs,
    s.spec.tolUs].all (fun us => us == 0 || scale us s.pt.sampleRate != 0)) = true) : s.RateSuffices := by
  intro us hm h0
  have h1 := List.all_eq_true.1 h us hm
  simp only [Bool.or_eq_true, beq_iff_eq, bne_iff_ne] at h1
  exact h1.resolve_left h0

theorem ppmBlock_starts : ppmBlock.RunStarts :=
  ⟨rfl, by decide, fun h => absurd h (by decide), rates_suffice (by decide)⟩

theorem test_wit_RunReservedKind : ∀ k ∈ [(3 : BitVec 3), 7], (radio k 1 1 1 1 1 1 []).phase = .idle ∧
    3 ≤ (radio k 1 1 1 1 1 1 []).spec.kind.toNat := by decide

theorem test_wit_RunWidthsMissing :
    (let s := radio 0 0 200 0 0 0 0 []
     s.phase = .idle ∧ s.spec.kind = 0 ∧ (s.spec.shortUs = 0 ∨ s.spec.longUs = 0)) ∧
    (let s := radio 0 200 0 0 0 0 0 []
     s.phase = .idle ∧ s.spec.kind = 0 ∧ (s.spec.shortUs = 0 ∨ s.spec.longUs = 0)) ∧
    ((radio 1 0 0 0 0 0 0 []).phase = .idle ∧ (radio 1 0 0 0 0 0 0 []).spec.kind = 1) ∧
    ((radio 2 0 0 0 0 0 0 []).phase = .idle ∧ (radio 2 0 0 0 0 0 0 []).spec.kind = 2) := by decide

/-- TOL_US = 3 at 250 kHz is 0 samples (DM-3); and SAMPLE_RATE = 0. -/
theorem test_wit_RunRateTooLow :
    (let s : State := { radio 1 250 500 0 0 1000 3 [] with pt := ⟨[], [], 0, 250000, 0⟩ }
     s.phase = .idle ∧ demodOf s.spec.kind = some .ppm ∧ s.WidthsConfigured ∧ ¬ s.RateSuffices) ∧
    (let s : State := { radio 1 0 0 0 0 0 0 [] with pt := ⟨[], [], 0, 0, 0⟩ }
     s.phase = .idle ∧ demodOf s.spec.kind = some .ppm ∧ s.WidthsConfigured ∧ s.pt.sampleRate = 0) :=
  ⟨⟨rfl, rfl, fun h => absurd h (by decide), fun h => h 3 (by decide) (by decide) (by decide)⟩,
   ⟨rfl, rfl, fun h => absurd h (by decide), rfl⟩⟩

/-- A run that starts, and one that a check stops. -/
theorem test_wit_RunLatchesConfiguration :
    (ppmBlock.phase = .idle ∧ demodOf ppmBlock.spec.kind = some .ppm ∧ ∃ t, exec .dmRun ppmBlock = .next t) ∧
    (let s := radio 0 0 200 0 0 0 0 []
     s.phase = .idle ∧ demodOf s.spec.kind = some .pcm ∧ (∃ t, exec .dmRun s = .next t) ∧ ¬ s.RunStarts) :=
  ⟨⟨rfl, rfl, exec_answers _ _⟩, rfl, rfl, exec_answers _ _, fun h => (h.2.2.1 rfl).1 rfl⟩

/-- A run that starts; the last symbol of a train; and DISPATCHES at its greatest value. -/
theorem test_wit_RunFollowsLoop : (ppmBlock.RunStarts ∧ demodOf ppmBlock.spec.kind = some .ppm) ∧
    (let s : State := { State.reset with lat := { Latches.zero with n := 1 } }
     s.cursor.toNat < s.lat.n.toNat ∧ s.cursor.toNat + 1 = s.lat.n.toNat) ∧
    (let s : State := { State.reset with dispatches := 0xFFFFFFFF }
     s.dispatches.toNat = 2 ^ 32 - 1) := ⟨⟨ppmBlock_starts, rfl⟩, by decide, by decide⟩

theorem test_wit_RunEndsIdleOrDispatch : ppmBlock.RunStarts ∧ ∃ t, exec .dmRun ppmBlock = .next t :=
  ⟨ppmBlock_starts, exec_answers _ _⟩

theorem test_wit_EmptyTrainRun : let s := radio 1 250 500 0 0 1000 0 []
    s.RunStarts ∧ demodOf s.spec.kind = some .ppm ∧ s.pt.numPulses = 0 :=
  ⟨⟨rfl, by decide, fun h => absurd h (by decide), rates_suffice (by decide)⟩, rfl, rfl⟩

theorem test_wit_RunFrame : (∃ t, exec .dmRun ppmBlock = .next t) ∧ (∃ t, exec .dmString ppmBlock = .next t) ∧
    (after .dmSinkRet { waiting with arg0 := 2 }).map (fun t => decide (t.phase ≠ .fatal)) = some true :=
  ⟨exec_answers _ _, exec_answers _ _, by decide⟩

theorem test_wit_PpmIgnoresPulses : (ppmBlock.spec.kind = 1 ∧ ∃ t, exec .dmRun ppmBlock = .next t) ∧
    (waiting.lat.kind = .ppm ∧ ∃ t, exec .dmSinkRet waiting = .next t) :=
  ⟨⟨rfl, exec_answers _ _⟩, by decide, exec_answers _ _⟩

/-- Latches of a run with the given widths, all others zero. -/
def widths (short long sync gap tol : Nat) : Latches :=
  { Latches.zero with sShort := short, sLong := long, sSync := sync, sGap := gap, sTol := tol }

/-- The block inside a run of one symbol: accumulating, CURSOR at the last symbol. -/
def inRun (l : Latches) : State := { State.reset with phase := .accumulating, lat := { l with n := 1 } }

/-- Tolerance 1 without and with a sync width; tolerance 0 without and with a gap limit; a symbol, the last of its train; and a
train with gaps of 1 and of 999 samples, the ends of the range below RESET_US = 1000 samples. -/
theorem test_wit_PpmRawRunDecodes :
    (let l := widths 2 4 0 0 1
     0 < l.sTol ∧ l.sSync = 0) ∧
    (let l := widths 2 4 1 0 1
     0 < l.sTol ∧ 0 < l.sSync) ∧
    (let l := widths 2 4 0 0 0
     l.sTol = 0 ∧ l.sGap = 0) ∧
    (let l := widths 2 4 0 1 0
     l.sTol = 0 ∧ 0 < l.sGap) ∧
    (let s := inRun { Latches.zero with kind := .ppm }
     s.phase = .accumulating ∧ s.lat.kind = .ppm ∧ s.cursor.toNat < s.lat.n.toNat) ∧
    (let s := radio 1 250 500 0 0 1000 0 [(100, 1), (100, 999)]
     s.RunStarts ∧ s.cfg.Legal ∧ s.spec.kind = 1 ∧ s.spec.tolUs = 0 ∧ 0 < s.pt.numPulses.toNat ∧
     (if 0 < scale s.spec.gapUs s.pt.sampleRate then scale s.spec.gapUs s.pt.sampleRate
       else scale s.spec.resetUs s.pt.sampleRate) = 1000 ∧ scale s.spec.resetUs s.pt.sampleRate = 1000 ∧
     ∀ n, n < s.pt.numPulses.toNat → 0 < (s.pt.gap.read n).toNat ∧ (s.pt.gap.read n).toNat < 1000) :=
  ⟨by decide, by decide, by decide, by decide, by decide,
    ⟨rfl, by decide, fun h => absurd h (by decide), rates_suffice (by decide)⟩, by decide, rfl, rfl, by decide,
    by decide, by decide, by decide⟩

/-- Tolerance 1 without and with a sync width; raw without sync; layout A; B with the sync width equal to the short one; C with it
equal to the long one; a symbol, the last of its train; a pulse of 1 sample in a raw layout; and strict windows of 100 samples
around 200 and 600 with a pulse of 350. -/
theorem test_wit_PwmRawBandsCover :
    (let l := widths 2 4 0 0 1
     0 < l.sTol ∧ l.sSync = 0) ∧
    (let l := widths 2 4 1 0 1
     0 < l.sTol ∧ 0 < l.sSync) ∧
    (let l := widths 2 4 0 0 0
     l.sTol = 0 ∧ l.sSync = 0) ∧
    (let l := widths 2 4 1 0 0
     l.sTol = 0 ∧ 0 < l.sSync ∧ l.sSync < l.sShort) ∧
    (let l := widths 2 4 2 0 0
     l.sTol = 0 ∧ 0 < l.sSync ∧ l.sShort ≤ l.sSync ∧ l.sSync < l.sLong) ∧
    (let l := widths 2 4 4 0 0
     l.sTol = 0 ∧ 0 < l.sSync ∧ l.sShort ≤ l.sSync ∧ l.sLong ≤ l.sSync) ∧
    (let s := inRun { Latches.zero with kind := .pwm }
     s.phase = .accumulating ∧ s.lat.kind = .pwm ∧ s.cursor.toNat < s.lat.n.toNat) ∧
    (let l := widths 200 600 0 0 0
     let s : State := { State.reset with lat := pwmLatches l }
     l.sTol = 0 ∧ s.lat = pwmLatches l ∧ 0 < 1) ∧
    (let l := pwmLatches (widths 200 600 0 0 100)
     inWindow l.oneL l.oneU 350 = false ∧ inWindow l.zeroL l.zeroU 350 = false ∧
       inWindow l.syncL l.syncU 350 = false ∧ l.oneL < ((350 : Nat) : Int)) := by decide

theorem test_wit_PcmSymbolAction : let s := inRun { Latches.zero with kind := .pcm, fShort := ⟨1, 100⟩, fLong := ⟨1, 200⟩ }
    s.lat.kind = .pcm ∧ s.cursor.toNat < s.lat.n.toNat ∧ s.phase = .accumulating ∧ 0 < s.lat.fShort.den ∧
    0 < s.lat.fLong.den := by decide

/-- The standard parameters with every bit period a preamble. -/
def eager : Params := { Params.standard with pcmPreambleMin := 1 }

/-- One symbol, pulse and gap as given, at 1 MHz. -/
def oneSymbol (p g : Word) : PulseTrain := ⟨[(0, p)], [(0, g)], 1, 1000000, 0⟩

/-- The latches of a PCM run over `oneSymbol p g` with the given widths and RESET_US = 100. -/
def calibrated (c : Params) (short long p g : Nat) : Latches :=
  pcmLatches c ⟨0, BitVec.ofNat 32 short, BitVec.ofNat 32 long, 0, 0, 100, 0⟩ (oneSymbol (BitVec.ofNat 32 p) (BitVec.ofNat 32 g))
    { Latches.zero with sShort := short, sLong := long, sReset := 100, n := 1 }

/-- A train of one symbol that matches has one preamble if one bit period is enough for one, and none under the standard
parameters. -/
theorem oneSymbol_preamble {l : Latches} {p g : Word} (hn : l.n = 1) (hm : PcmMatches l (oneSymbol p g) 0)
    (hp : p ≠ 0) (hw : bitWeight l ≤ 2) (hw' : 1 ≤ bitWeight l) :
    Preamble eager l (oneSymbol p g) 0 1 ∧
    (∀ a b, Preamble eager l (oneSymbol p g) a b → b - a < 1 - 0 ∨ (b - a = 1 - 0 ∧ a ≤ 0)) ∧
    ∀ a b, ¬ Preamble Params.standard l (oneSymbol p g) a b := by
  have h1 : l.n.toNat = 1 := by rw [hn]; rfl
  have h2 : 0 < (oneSymbol p g).p 0 := Nat.pos_of_ne_zero fun h => hp (BitVec.eq_of_toNat_eq h)
  refine ⟨⟨by decide, by omega, fun n _ h => ?_, Or.inl rfl, Or.inl h1.symm, ?_, ?_, ?_⟩, fun a b h => ?_, fun a b h => ?_⟩
  · rw [show n = 0 by omega]; exact hm
  · show 1 ≤ bitWeight l * (1 - 0); omega
  · simpa [pulseSum] using h2
  · simp only [periodSum, Nat.Ico_succ_singleton, Finset.sum_singleton]; omega
  · have h3 := h.nonempty; have h4 := h.inTrain; omega
  · have h3 := h.nonempty; have h4 := h.inTrain
    have h5 : 12 ≤ bitWeight l * (b - a) := h.long
    rw [show b - a = 1 by omega] at h5
    omega

/-- RZ: nominal widths of 100 and 200 samples and one matching symbol of 110 and 95, a preamble or none; bounds 100 to 110, and
200 to 205. -/
theorem test_wit_PcmCalibrationWithinBounds_rz :
    let pt := oneSymbol 110 95
    let r := calibrated eager 100 200 110 95
    r.nrz = false ∧ Preamble eager r pt 0 1 ∧
    (∀ a b, Preamble eager r pt a b → b - a < 1 - 0 ∨ (b - a = 1 - 0 ∧ a ≤ 0)) ∧
    (∀ a b, ¬ Preamble Params.standard (calibrated Params.standard 100 200 110 95) pt a b) ∧ (0 : ℚ) < 100 ∧ (0 : ℚ) < 200 ∧
    ((100 : ℚ) ≤ ((100 * 1000000 : ℕ) : ℚ) / (1000000 : ℕ) ∧ ((100 * 1000000 : ℕ) : ℚ) / (1000000 : ℕ) ≤ 110) ∧
    (∀ i, i < 1 → PcmMatches r pt i → (100 : ℚ) ≤ (pt.p i : ℚ) ∧ (pt.p i : ℚ) ≤ 110) ∧
    ((200 : ℚ) ≤ ((200 * 1000000 : ℕ) : ℚ) / (1000000 : ℕ) ∧ ((200 * 1000000 : ℕ) : ℚ) / (1000000 : ℕ) ≤ 205) ∧
    (∀ i, i < 1 → PcmMatches r pt i → (200 : ℚ) ≤ (pt.p i + pt.g i : ℚ) ∧ (pt.p i + pt.g i : ℚ) ≤ 205) := by
  have h1 := oneSymbol_preamble (l := calibrated eager 100 200 110 95) (p := 110) (g := 95) (by decide) (by decide)
    (by decide) (by decide) (by decide)
  have h2 := oneSymbol_preamble (l := calibrated Params.standard 100 200 110 95) (p := 110) (g := 95) (by decide) (by decide)
    (by decide) (by decide) (by decide)
  have hp : (oneSymbol 110 95).p 0 = 110 := by decide
  have hg : (oneSymbol 110 95).g 0 = 95 := by decide
  refine ⟨by decide, h1.1, h1.2.1, h2.2.2, by norm_num, by norm_num, by norm_num, fun i hi _ => ?_, by norm_num, fun i hi _ => ?_⟩
  · rw [show i = 0 by omega, hp]; norm_num
  · rw [show i = 0 by omega, hp, hg]; norm_num

/-- NRZ: a bit period of 100 samples and one matching symbol of 100 and 90, a preamble or none; bounds 90 to 100. -/
theorem test_wit_PcmCalibrationWithinBounds_nrz :
    let pt := oneSymbol 100 90
    let r := calibrated eager 100 100 100 90
    r.nrz = true ∧ Preamble eager r pt 0 1 ∧
    (∀ a b, Preamble eager r pt a b → b - a < 1 - 0 ∨ (b - a = 1 - 0 ∧ a ≤ 0)) ∧
    (∀ a b, ¬ Preamble Params.standard (calibrated Params.standard 100 100 100 90) pt a b) ∧ (0 : ℚ) < 90 ∧
    ((90 : ℚ) ≤ ((100 * 1000000 : ℕ) : ℚ) / (1000000 : ℕ) ∧ ((100 * 1000000 : ℕ) : ℚ) / (1000000 : ℕ) ≤ 100) ∧
    (∀ i, i < 1 → PcmMatches r pt i → 2 * (90 : ℚ) ≤ (pt.p i + pt.g i : ℚ) ∧ (pt.p i + pt.g i : ℚ) ≤ 2 * 100) ∧
    (∀ i, i < 1 → rhu (pt.p i) ⟨1000000, 100 * 1000000⟩ = 1 ∧ ((pt.p i : Int) - 1 * 100).natAbs ≤ r.tolEff ∧
      (90 : ℚ) * 1 ≤ (pt.p i : ℚ) ∧ (pt.p i : ℚ) ≤ 100 * 1) ∧
    (∀ i, i < 1 → rhu (pt.g i) ⟨1000000, 100 * 1000000⟩ = 1 ∧ 1 ≤ r.maxZeros ∧
      ((pt.g i : Int) - 1 * 100).natAbs ≤ r.tolEff ∧ (90 : ℚ) * 1 ≤ (pt.g i : ℚ) ∧ (pt.g i : ℚ) ≤ 100 * 1) := by
  have h1 := oneSymbol_preamble (l := calibrated eager 100 100 100 90) (p := 100) (g := 90) (by decide) (by decide)
    (by decide) (by decide) (by decide)
  have h2 := oneSymbol_preamble (l := calibrated Params.standard 100 100 100 90) (p := 100) (g := 90) (by decide) (by decide)
    (by decide) (by decide) (by decide)
  have hp : (oneSymbol 100 90).p 0 = 100 := by decide
  have hg : (oneSymbol 100 90).g 0 = 90 := by decide
  refine ⟨by decide, h1.1, h1.2.1, h2.2.2, by norm_num, by norm_num, fun i hi _ => ?_, fun i hi => ?_, fun i hi => ?_⟩
  · rw [show i = 0 by omega, hp, hg]; norm_num
  · rw [show i = 0 by omega]
    refine ⟨by decide, by decide, ?_⟩
    rw [hp]; norm_num
  · rw [show i = 0 by omega]
    refine ⟨by decide, by decide, by decide, ?_⟩
    rw [hg]; norm_num

/-- The lowest legal status of a sink. -/
theorem test_wit_StringDispatches : State.reset.phase = .idle ∧ State.reset.cfg.failMin ≤ (0xFFFFFFFC : Word).toInt := by decide

/-- A positive status, status 0 and the lowest legal status. -/
theorem test_wit_SinkStatusAggregated : waiting.statFail.wf ∧ waiting.cfg.failMin ≤ 1 ∧ (0 : Int) < 1 ∧
    waiting.cfg.failMin ≤ 0 ∧ waiting.cfg.failMin ≤ -4 ∧ (-4 : Int) ≤ 0 := by decide

theorem test_wit_SinkReturnResumes :
    (waiting.phase = .dispatch ∧ waiting.cfg.failMin ≤ waiting.arg0.toInt ∧ waiting.origin = .run) ∧
    (let s : State := { State.reset with phase := .dispatch, origin := .string, arg0 := 0xFFFFFFFC }
     s.phase = .dispatch ∧ s.cfg.failMin ≤ s.arg0.toInt ∧ s.origin = .string) := by decide

/-- Status -5, the first one below the legal range. -/
theorem test_wit_SinkOutOfRangeIsFatal : let s : State := { State.reset with phase := .dispatch, arg0 := 0xFFFFFFFB }
    s.phase = .dispatch ∧ s.arg0.toInt < s.cfg.failMin := by decide

/-- A pending dispatch, and one with DISPATCHES at its greatest value: the run then comes to DISPATCH again. -/
theorem test_wit_SinkReturnMakesProgress : ∀ s ∈ [waiting, { waiting with dispatches := 0xFFFFFFFF }],
    s.phase = .dispatch ∧ s.origin = .run ∧ s.cursor.toNat < s.lat.n.toNat ∧ s.cfg.failMin ≤ s.arg0.toInt := by
  intro s hs
  rcases List.mem_pair.1 hs with rfl | rfl <;> exact ⟨by decide, by decide, by decide, by decide⟩

/-- A dispatch counted beyond 2^32 - 1 sets W_CNT_SAT (R212). -/
theorem test_dispatch_saturates : (after .dmSinkRet { waiting with dispatches := 0xFFFFFFFF }).map
    (fun t => (t.phase, t.dispatches, t.flags)) = some (.dispatch, 0xFFFFFFFF, 0x40) := by decide

theorem test_wit_ConfigurationIsLatched : waiting.phase = .dispatch ∧ ∃ t, exec .dmSinkRet waiting = .next t :=
  ⟨by decide, exec_answers _ _⟩

/-! The bus. -/

/-- NUM_PULSES with a value at the capacity and one above it, at its first and its last byte address; the first and the last
register of the list; the last byte of PAT; a read-only register, CMD's upper neighbour and the first address behind PAT. -/
theorem test_wit_NumPulsesClipped :
    (∀ v ∈ [(1200 : Word), 1201], ∀ a ∈ [0x060, 0x063], let s := facing (.write a v) State.reset
      s.AcceptsBuffer ∧ s.cfg.Legal ∧ a / 4 * 4 = 0x060 ∧ s.pending = [.write a v]) ∧
    (∀ a ∈ [0x00C, 0x067], a / 4 * 4 = 0x00C ∨ a / 4 * 4 = 0x064) ∧
    (let s := facing (.write (0x200 + 127) 0x1FF) State.reset
     127 < s.cfg.xcap ∧ s.pat.wf ∧ s.pending = [.write (s.cfg.addrMap.pat + 127) 0x1FF]) ∧
    (∀ a ∈ [0x004, 0x014, 0x280], let s := facing (.write a 1) State.reset
      4 ≤ a ∧ a / 4 * 4 ∉ writableRegisters ∧
      (∀ e ∈ [(s.cfg.addrMap.pat, s.cfg.xcap), (s.cfg.addrMap.ptPulse, 4 * s.cfg.maxp),
        (s.cfg.addrMap.ptGap, 4 * s.cfg.maxp)], ¬(e.1 ≤ a ∧ a < e.1 + e.2)) ∧ s.pending = [.write a 1]) := by
  refine ⟨fun v _ a ha => ⟨Or.inl rfl, (by decide : Params.standard.Legal), ?_, rfl⟩, by decide, ⟨by decide, by decide, rfl⟩, by decide⟩
  rcases List.mem_pair.1 ha with rfl | rfl <;> rfl

/-- The last pair of the train at the first and the last byte address of its words, in IDLE and in DISPATCH. -/
theorem test_wit_PulseTrainWrite : ∀ p ∈ [Phase.idle, .dispatch], ∀ j ∈ [0, 3],
    ∀ a ∈ [0x2000 + 4 * 1199 + j, 0x4000 + 4 * 1199 + j],
    let s : State := { facing (.write a 5) State.reset with phase := p }
    s.cfg.Legal ∧ s.pt.pulse.wf ∧ s.pt.gap.wf ∧ 1199 < s.cfg.maxp ∧ s.pending = [.write a 5] ∧ s.phase = p ∧
    j < 4 ∧ (a = s.cfg.addrMap.ptPulse + 4 * 1199 + j ∨ a = s.cfg.addrMap.ptGap + 4 * 1199 + j) := by decide

theorem test_wit_FlagsWriteOneToClear : ∀ a ∈ [0x008, 0x00B], let s := facing (.write a 0xFFFFFFFF) State.reset
    s.AcceptsBuffer ∧ a / 4 * 4 = 0x008 ∧ s.pending = [.write a 0xFFFFFFFF] := by
  intro a ha
  refine ⟨Or.inl rfl, ?_, rfl⟩
  rcases List.mem_pair.1 ha with rfl | rfl <;> rfl

/-- Writes right below and right above FLAGS, with a flag set. -/
theorem test_wit_FlagsAreSticky : ∀ a ∈ [7, 12], let s : State := { facing (.write a 1) State.reset with flags := 1 }
    (∃ t, step s = .next t) ∧ (∀ rest, s.pending ≠ .rst :: rest) ∧
    (∀ a' v rest, s.pending = .write a' v :: rest → ¬(8 ≤ a' ∧ a' < 12)) ∧ s.flags.getLsbD 0 = true := by
  intro a ha
  refine ⟨?_, fun rest h => by simp [facing] at h, ?_, (by decide : (1 : Word).getLsbD 0 = true)⟩
  · rcases List.mem_pair.1 ha with rfl | rfl <;> exact ⟨_, rfl⟩
  · intro a' v rest h
    have h1 : a = a' := by simp [facing] at h; exact h.1.1
    rcases List.mem_pair.1 ha with rfl | rfl <;> omega

/-- A buffer command while the sink has control. -/
theorem test_wit_DispatchEndsOnlyBySink : let s : State := { facing (.write 3 0x01000000) State.reset with phase := .dispatch }
    s.phase = .dispatch ∧ (∃ t, step s = .next t) ∧ (∀ rest, s.pending ≠ .rst :: rest) ∧
    (∀ a w rest, s.pending = .write a w :: rest → a < 4 → w ≠ 0x31000000) := by
  refine ⟨rfl, ⟨_, rfl⟩, fun rest h => by simp [facing] at h, ?_⟩
  intro a w rest h _
  have h1 : (0x01000000 : Word) = w := by simp [facing] at h; exact h.1.2
  subst h1
  decide

/-- A write to the first address behind CMD, and a read. For the reads: legal parameters, the last element of every window, and
addresses right above and below one that lie in no window. -/
theorem test_wit_BusCannotWriteBuffers :
    (∀ x ∈ [Access.write 4 1, .read 0x10000],
      (facing x State.reset).AtRest ∧ (facing x State.reset).pending = [x] ∧ ∃ t, step (facing x State.reset) = .next t) ∧
    (let c := State.reset.cfg
     c.Legal ∧ 4 < c.nfail ∧ 0x080 + 4 * c.nfail ≤ 0x094 ∧ 127 < c.xcap ∧ 1199 < c.maxp ∧ 6399 < c.rows * c.cols ∧
     49 < c.rows ∧ ∀ a ∈ [0x1B8, 0x1FFF, 0x22808], 0x100 ≤ a ∧ ∀ e ∈ busWindows c, ¬(e.1 ≤ a ∧ a < e.1 + e.2)) := by
  refine ⟨fun x hx => ⟨Or.inl rfl, rfl, ?_⟩, by decide⟩
  rcases List.mem_pair.1 hx with rfl | rfl <;> exact ⟨_, rfl⟩

theorem test_wit_ResetZeroesEverything : (facing .rst State.reset).pending = [.rst] := rfl

/-- The block in IDLE with a row in `bb[0]`, facing a command, satisfies the invariants and takes a step. -/
theorem test_wit_StepKeepsGood : (facing (.write 0 0x02000001) (blk 1 1 "1")).Good ∧
    ∃ t, step (facing (.write 0 0x02000001) (blk 1 1 "1")) = .next t := by
  refine ⟨⟨by decide, Or.inl rfl, ⟨by decide, by decide⟩, ⟨by decide, by decide, fun h => by cases h⟩,
    filled_good (by decide) _, empty_good, ?_⟩, ⟨_, rfl⟩⟩
  exact ⟨(filled_good dims_legal _).canonical, empty_good (c := dims 1 1) |>.canonical, by decide, by decide, by decide, by decide, by decide⟩

theorem test_wit_ResetIsGood : Params.standard.Legal := by decide

end Sys2Proof.Tests
end

section
/-! The invariants of the block under one step: each update of a field, each command, each access of the environment. -/

namespace Sys2Proof.Machine

/-! ### Updates of one field under the invariants -/

/-- The invariants do not look at the environment's accesses, the word read last, or the event `done`. -/
theorem Good.environment {s : State} (h : s.Good) (pending : List Access) (rdata : Word) (done : Bool) :
    ({ s with pending := pending, rdata := rdata, done := done } : State).Good :=
  ⟨h.legal, h.rest, h.flags, h.counts, h.bb0, h.bb1, h.arrays⟩

/-- Raising a flag other than F_FATAL on a condition keeps the invariants. -/
theorem Good.raiseWhen {s : State} (h : s.Good) (p : Bool) (f : Flag) (hf : f ≠ .fFatal) : (s.raiseWhen p f).Good := by
  cases p
  · exact h
  · exact Good.raise h f hf

theorem Good.setEvents {s : State} (h : s.Good) (v : Word) : (s.setEvents v).Good :=
  ⟨h.legal, h.rest, h.flags, h.counts, h.bb0, h.bb1, h.arrays⟩

theorem Good.setDispatches {s : State} (h : s.Good) (v : Word) : (s.setDispatches v).Good :=
  ⟨h.legal, h.rest, h.flags, h.counts, h.bb0, h.bb1, h.arrays⟩

/-- In IDLE no dispatch is pending, so CURSOR is free (R41). -/
theorem Good.setCursor {s : State} (h : s.Good) (hp : s.phase = .idle) (v : Word) : (s.setCursor v).Good := by
  obtain ⟨hpulses, hlatN, -⟩ := h.counts
  exact ⟨h.legal, h.rest, h.flags, ⟨hpulses, hlatN, fun hd => by simp [hp] at hd⟩, h.bb0, h.bb1, h.arrays⟩

theorem Good.setXbuf {s : State} (h : s.Good) {m : Memory Byte} (hm : m.wf) : (s.setXbuf m).Good := by
  obtain ⟨hb0, hb1, hpulse, hgap, hpat, -, hfail⟩ := h.arrays
  exact ⟨h.legal, h.rest, h.flags, h.counts, h.bb0, h.bb1, hb0, hb1, hpulse, hgap, hpat, hm, hfail⟩

theorem Good.setPat {s : State} (h : s.Good) {m : Memory Byte} (hm : m.wf) : ({ s with pat := m } : State).Good := by
  obtain ⟨hb0, hb1, hpulse, hgap, -, hxbuf, hfail⟩ := h.arrays
  exact ⟨h.legal, h.rest, h.flags, h.counts, h.bb0, h.bb1, hb0, hb1, hpulse, hgap, hm, hxbuf, hfail⟩

/-- Replacing the train keeps the invariants if NUM_PULSES stays in range (R30) and the arrays canonical. -/
theorem Good.setPt {s : State} (h : s.Good) {pt : PulseTrain} (hn : pt.numPulses.toNat ≤ s.cfg.maxp) (hp : pt.pulse.wf)
    (hg : pt.gap.wf) : ({ s with pt := pt } : State).Good := by
  obtain ⟨-, hlatN, hcursor⟩ := h.counts
  obtain ⟨hb0, hb1, -, -, hpat, hxbuf, hfail⟩ := h.arrays
  exact ⟨h.legal, h.rest, h.flags, ⟨hn, hlatN, hcursor⟩, h.bb0, h.bb1, hb0, hb1, hp, hg, hpat, hxbuf, hfail⟩

/-! ### Reset and the fatal stop -/

/-- Every piece of state zero satisfies the invariants, for every legal choice of parameters (R51). -/
theorem resetWith_good {c : Params} (hc : c.Legal) : (State.resetWith c).Good where
  legal  := hc
  rest   := Or.inl rfl
  flags  := ⟨by simp [State.resetWith], by simp [State.resetWith]⟩
  counts := ⟨Nat.zero_le _, Nat.zero_le _, fun h => by cases h⟩
  bb0    := empty_good
  bb1    := empty_good
  arrays := ⟨empty_good (c := c) |>.canonical, empty_good (c := c) |>.canonical, Memory.wf_nil, Memory.wf_nil, Memory.wf_nil,
    Memory.wf_nil, Memory.wf_nil⟩

theorem resetInput_good {s : State} (h : s.Good) : (resetInput s).Good :=
  Good.environment (resetWith_good h.legal) s.pending 0 false

/-- The fatal stop sets F_FATAL together with STATE = FATAL (R296), so the one still mirrors the other (R39). -/
theorem raiseFatal_good {s : State} (h : s.Good) (v : Word) : (raiseFatal v s).Good := by
  obtain ⟨hpulses, hlatN, -⟩ := h.counts
  refine ⟨h.legal, Or.inr (Or.inr rfl), ⟨?_, ?_⟩, ⟨hpulses, hlatN, fun hd => by cases hd⟩, h.bb0, h.bb1, h.arrays⟩
  · rw [masked_iff]
    intro i hi
    rw [raiseFatal_flags, raiseIn_getLsbD, Bool.or_eq_true, decide_eq_true_eq] at hi
    rcases hi with hold | rfl
    · exact (masked_iff _).1 h.flags.1 i hold
    · exact Or.inr (Or.inr rfl)
  · simp [raiseIn_getLsbD]

/-- Waiting for the sink in a dispatch of DM_STRING: it stands at no symbol of the train (R219). -/
theorem Good.awaitString {s : State} (h : s.Good) (hp : s.phase ≠ .fatal) :
    ((s.setOrigin .string).setPhase .dispatch).Good := by
  obtain ⟨hpulses, hlatN, -⟩ := h.counts
  have hflags : ((s.setOrigin .string).setPhase .dispatch).FlagsSound :=
    FlagsSound.warns h.flags (Warns.refl _) (by simp [hp])
  exact ⟨h.legal, Or.inr (Or.inl rfl), hflags, ⟨hpulses, hlatN, fun _ ho => by cases ho⟩, h.bb0, h.bb1, h.arrays⟩

/-- The effect of DM_STRING in IDLE: the run counters cleared, then a dispatch (R219). -/
theorem dispatchString_good {s : State} (h : s.Good) (hp : s.phase = .idle) :
    (dispatch .string (((s.setEvents 0).setDispatches 0).setCursor 0)).Good := by
  have hclear : (((s.setEvents 0).setDispatches 0).setCursor 0).Good :=
    Good.setCursor (Good.setDispatches (Good.setEvents h 0) 0) (by simp [hp]) 0
  exact Good.awaitString (Good.setDispatches (Good.raiseWhen hclear _ .wCntSat (by decide)) _) (by simp [hp])

/-! ### The commands (R293, R294) -/

/-- A command keeps the invariants if its effect does where it executes: a refusal raises a flag only (R292). -/
theorem command_good {s t : State} (h : s.Good) {cls : CommandClass} {ok : Bool} {effect : State → State} {i : Instr}
    (hi : exec i s = command cls ok effect s) (ht : exec i s = .next t)
    (he : verdictOn s.phase cls = .executes → (effect s).Good) : t.Good := by
  rw [hi] at ht
  rcases command_cases cls ok effect s with ⟨hv, -, e⟩ | ⟨-, -, e⟩ | ⟨-, e⟩ | ⟨-, e⟩ <;>
    obtain rfl := Host.Outcome.next.inj (e.symm.trans ht)
  · exact he hv
  · exact Good.raise h .eBadCmd (by decide)
  · exact Good.raise h .eBadState (by decide)
  · exact h

/-- DM_RUN and DM_STRING execute in IDLE only (R293). -/
theorem verdict_start {p : Phase} : verdictOn p .start = .executes ↔ p = .idle := by cases p <;> decide

/-- DM_SINKRET executes in DISPATCH only (R293). -/
theorem verdict_sinkReturn {p : Phase} : verdictOn p .sinkReturn = .executes ↔ p = .dispatch := by cases p <;> decide

/-- A transform of all active bits keeps the invariants (R146). -/
theorem transform_good {s : State} (h : s.Good) (b : Buf) (f : Bool → Bool → Bool) :
    (s.setBb b ((s.bb b).mapBits s.cfg f)).Good :=
  Good.setBb h b _ (mapBits_spec h.legal f (bb_good h b)).1

/-- A row operation on one buffer keeps the invariants if it keeps R26. -/
theorem onBuffer_good {s : State} (h : s.Good) (b : Buf) {f : Logged → Logged} (hf : ∀ p, Logged.Keeps s.cfg p (f p)) :
    (s.onBuffer b f).Good :=
  Good.logged h b _ (hf _)

/-- Writing one element after the other keeps an array canonical. -/
theorem upTo_write_wf {m : Memory Byte} (hm : m.wf) (n : Nat) (v : Nat → Byte) :
    Memory.wf (upTo n (fun j a => a.write j (v j)) m) :=
  upTo_induction (motive := fun _ a => Memory.wf a) hm fun j _ _ ha => Memory.wf_write ha j (v j)

/-- Every command keeps the invariants. -/
theorem exec_good {s t : State} (h : s.Good) (i : Instr) (ht : exec i s = .next t) : t.Good := by
  cases i with
  | bbClear b => exact command_good h (exec_bbClear b s) ht fun _ => Good.setBb h b _ empty_good
  | bbAddBit b v => exact command_good h (exec_bbAddBit b v s) ht fun _ => onBuffer_good h b (addBit_keeps v)
  | bbAddRow b => exact command_good h (exec_bbAddRow b s) ht fun _ => onBuffer_good h b addRow_keeps
  | bbAddSync b => exact command_good h (exec_bbAddSync b s) ht fun _ => onBuffer_good h b addSync_keeps
  | bbInvert b => exact command_good h (exec_bbInvert b s) ht fun _ => transform_good h b _
  | bbNrzs b => exact command_good h (exec_bbNrzs b s) ht fun _ => transform_good h b _
  | bbNrzm b => exact command_good h (exec_bbNrzm b s) ht fun _ => transform_good h b _
  | bbExtract b row =>
    obtain ⟨-, -, -, -, -, hxbuf, -⟩ := h.arrays
    exact command_good h (exec_bbExtract b row s) ht fun _ =>
      Good.res0 (Good.setXbuf (Good.raiseWhen h _ .wXtrunc (by decide)) (upTo_write_wf hxbuf _ _)) _
  | bbSearch b row => exact command_good h (exec_bbSearch b row s) ht fun _ => Good.res0 h _
  | bbCmpRows b ra rb => exact command_good h (exec_bbCmpRows b ra rb s) ht fun _ => Good.res0 h _
  | bbCntRep b row => exact command_good h (exec_bbCntRep b row s) ht fun _ => Good.res0 h _
  | bbFindRow b => exact command_good h (exec_bbFindRow b s) ht fun _ => Good.res0 h _
  | bbFindPfx b => exact command_good h (exec_bbFindPfx b s) ht fun _ => Good.res0 h _
  | ldManch b row =>
    exact command_good h (exec_ldManch b row s) ht fun _ => storeLine_good h b _ (manchLoop_keeps _ _ _ _ (lineStart s b))
  | ldDmanch b row =>
    exact command_good h (exec_ldDmanch b row s) ht fun _ => storeLine_good h b _ (dmanchLoop_keeps _ _ _ _ (lineStart s b))
  | dmRun => exact command_good h (exec_dmRun s) ht fun hv => runEntry_good h (verdict_start.1 hv)
  | dmSinkRet =>
    refine command_good h (exec_dmSinkRet s) ht fun hv => ?_
    split
    · exact raiseFatal_good (Good.environment h s.pending s.rdata false) s.arg0
    · exact sinkReturn_good h (verdict_sinkReturn.1 hv)
  | dmString => exact command_good h (exec_dmString s) ht fun hv => dispatchString_good h (verdict_start.1 hv)

/-- A reserved word raises E_BADCMD or does nothing (R94). -/
theorem refuseReserved_good {s : State} (h : s.Good) : (refuseReserved s).Good := by
  have hr := Good.raise h .eBadCmd (by decide)
  unfold refuseReserved
  split
  · exact hr
  · exact hr
  · exact h
  · exact h
  · exact h

/-- A command word keeps the invariants, decoded or reserved (R93, R94). -/
theorem issue_good {s t : State} (h : s.Good) (w : Word) (ht : issue w s = .next t) : t.Good := by
  unfold issue at ht
  split at ht
  · exact exec_good h _ ht
  · cases ht; exact refuseReserved_good h

/-! ### The bus (R70 to R72) -/

/-- Everything a bus write of a register can do, once: clear bits of FLAGS, set NUM_PULSES in or out of range, or replace registers
that no invariant names (R50). -/
theorem regWrite_cases (s : State) (off : Nat) (v : Word) :
    regWrite s off v = s.setFlags (writeOneToClear s.flags v) ∨
    (s.cfg.maxp < v.toNat ∧ regWrite s off v =
      ({ s with pt := { s.pt with numPulses := BitVec.ofNat 32 s.cfg.maxp } } : State).raise .wPulsesTrunc) ∨
    (v.toNat ≤ s.cfg.maxp ∧ regWrite s off v = { s with pt := { s.pt with numPulses := v } }) ∨
    ∃ a0 a1 spec rate est, regWrite s off v =
      { s with arg0 := a0, arg1 := a1, spec := spec, pt := { s.pt with sampleRate := rate, fskF2Est := est } } := by
  unfold regWrite
  split
  case h_1 => exact .inl rfl
  case h_12 =>
    split
    · exact .inr (.inl ⟨‹_›, rfl⟩)
    · exact .inr (.inr (.inl ⟨by omega, rfl⟩))
  all_goals exact .inr (.inr (.inr ⟨_, _, _, _, _, rfl⟩))

/-- A write of FLAGS clears bits below 31 only, so F_FATAL still mirrors STATE (R39). -/
theorem Good.clearFlags {s : State} (h : s.Good) (v : Word) : (s.setFlags (writeOneToClear s.flags v)).Good := by
  have hbit : ∀ i, (writeOneToClear s.flags v).getLsbD i = true → s.flags.getLsbD i = true := by
    intro i hi
    simp only [writeOneToClear, BitVec.getLsbD_and, Bool.and_eq_true] at hi
    exact hi.1
  have hfatal : (writeOneToClear s.flags v).getLsbD Flag.fFatal.pos = s.flags.getLsbD Flag.fFatal.pos := by
    simp [writeOneToClear, Flag.pos]
  refine ⟨h.legal, h.rest, ⟨?_, ?_⟩, h.counts, h.bb0, h.bb1, h.arrays⟩
  · rw [masked_iff]
    exact fun i hi => (masked_iff _).1 h.flags.1 i (hbit i hi)
  · rw [State.setFlags_flags, hfatal]
    exact h.flags.2

theorem regWrite_good {s : State} (h : s.Good) (off : Nat) (v : Word) : (regWrite s off v).Good := by
  obtain ⟨-, -, hpulse, hgap, -⟩ := h.arrays
  rcases regWrite_cases s off v with e | ⟨-, e⟩ | ⟨hv, e⟩ | ⟨a0, a1, spec, rate, est, e⟩ <;> rw [e]
  · exact Good.clearFlags h v
  · have hclip : (BitVec.ofNat 32 s.cfg.maxp).toNat ≤ s.cfg.maxp := by
      rw [BitVec.toNat_ofNat]
      exact Nat.mod_le _ _
    exact Good.raise (Good.setPt (pt := { s.pt with numPulses := _ }) h hclip hpulse hgap) .wPulsesTrunc (by decide)
  · exact Good.setPt (pt := { s.pt with numPulses := v }) h hv hpulse hgap
  · exact ⟨h.legal, h.rest, h.flags, h.counts, h.bb0, h.bb1, h.arrays⟩

/-- A write to the train is ignored, refused, or replaces the train (R72). -/
theorem ptWrite_good {s : State} (h : s.Good) (i : Nat) {pt : PulseTrain} (hpt : ({ s with pt := pt } : State).Good) :
    (ptWrite s i pt).Good := by
  unfold ptWrite
  split
  · exact h
  · split
    · exact Good.raise h .eBadState (by decide)
    · exact hpt

theorem writeElement_good {s : State} (h : s.Good) (sp : Space) (i : Nat) (v : Word) : (writeElement s sp i v).Good := by
  obtain ⟨hpulses, -, -⟩ := h.counts
  obtain ⟨-, -, hpulse, hgap, hpat, -, -⟩ := h.arrays
  cases sp with
  | reg => exact regWrite_good h i v
  | pat =>
    simp only [writeElement]
    split
    · exact Good.setPat h (Memory.wf_write hpat _ _)
    · exact h
  | ptPulse => exact ptWrite_good h i (Good.setPt h hpulses (Memory.wf_write hpulse _ _) hgap)
  | ptGap => exact ptWrite_good h i (Good.setPt h hpulses hpulse (Memory.wf_write hgap _ _))
  | lat => exact h
  | xbuf => exact h
  | mem b => exact h
  | bits b => exact h
  | syncs b => exact h
  | numRows b => exact h
  | freeRow b => exact h

/-- A bus write keeps the invariants, wherever its address leads (R70 to R72). -/
theorem busWrite_good {s : State} (h : s.Good) (a : Nat) (v : Word) : (busWrite s a v).Good := by
  unfold busWrite
  split
  · unfold memWrite
    split
    · exact h
    · exact writeElement_good h _ _ v
  · exact h

/-! ### The step (R80, R90) -/

/-- At rest the block accepts a write to CMD and runs the command in the same step (R90). -/
theorem step_command {s : State} {a : Nat} {w : Word} {rest : List Access} (hs : s.AtRest) (hp : s.pending = .write a w :: rest)
    (ha : a < 4) : step s = issue w (takeAccess rest s) := by
  have hcmd : isCmdAddr a = true := by simp [isCmdAddr, ha]
  unfold step acceptNext
  rw [hp]
  rcases hs with h | h | h <;> simp [h, hcmd]

/-- One step from a good state, by the access that it accepts (R76, R80). -/
theorem step_good {s t : State} (h : s.Good) (ht : step s = .next t) : t.Good := by
  rcases hp : s.pending with _ | ⟨_ | ⟨a, v⟩ | a, rest⟩
  case nil =>
    simp only [step, acceptNext, hp] at ht
    cases ht
    exact Good.environment h _ _ _
  case cons.rst =>
    simp only [step, acceptNext, hp] at ht
    cases ht
    exact resetInput_good (Good.environment h _ _ _)
  case cons.write =>
    by_cases ha : a < 4
    · rw [step_command h.rest hp ha] at ht
      exact issue_good (Good.environment h _ _ _) v ht
    · rw [step_write h.rest hp (by omega)] at ht
      cases ht
      exact busWrite_good (Good.environment h _ _ _) a v
  case cons.read =>
    rw [step_read h.rest hp] at ht
    cases ht
    exact Good.environment h _ _ _

/-- Settles O59: the access that the step accepts, or the command it runs, keeps every invariant, and R26 bounds the row lengths. -/
theorem stepKeepsGood : Obligations.StepKeepsGood := by
  intro s t h ht
  have hg := step_good h ht
  exact ⟨hg, fun b => (bb_good hg b).lengthsInRange hg.legal⟩

end Sys2Proof.Machine
end

section
/-! DM_RUN against the loop of R205: the entry of a run that starts, and the parts of the loop as equations. -/

namespace Sys2Proof.Machine

/-! ### The entry of a run that starts -/

/-- With the checks E2, E4 and E5 passed, DM_RUN is ENTRY and then the loop (R193, R205). -/
theorem exec_dmRun_starts {s : State} {k : DemodKind} (hs : s.RunStarts) (hk : demodOf s.spec.kind = some k) :
    exec .dmRun s = .next (runFrom (s.entered k)) := by
  obtain ⟨hidle, -, hwidths, hrate⟩ := hs
  have hconfig : ¬ configBad (entryE3 k (entryE1 (s.setDone false))) = true := by
    rw [configBad_iff]
    rintro ⟨rfl, hzero⟩
    have hw := hwidths ((demodOf_spec _).1.1 hk)
    exact hzero.elim hw.1 hw.2
  have hlow : ¬ rateTooLow (entryE3 k (entryE1 (s.setDone false))) = true := by
    rw [rateTooLow_iff]
    simpa [State.RateSuffices] using hrate
  rw [exec_dmRun, command_executes (by rw [hidle]; rfl) rfl, runEntry_known hk, if_neg hconfig, if_neg hlow]

/-- What ENTRY leaves: the counters of E1, the widths of E3, `bb[0]` empty and the latches of E7 (R193). -/
theorem entered_eq (s : State) (k : DemodKind) :
    let samples : Word → Nat := fun us => us.toNat * s.pt.sampleRate.toNat / 1000000
    let l : Latches := { s.lat with
      kind := k, n := s.pt.numPulses, sShort := samples s.spec.shortUs, sLong := samples s.spec.longUs,
      sSync := samples s.spec.syncUs, sGap := samples s.spec.gapUs, sReset := samples s.spec.resetUs,
      sTol := samples s.spec.tolUs }
    s.entered k = { s with
      events := 0, dispatches := 0, cursor := 0, origin := .run, bb0 := BitBuffer.empty, done := false,
      lat := match k with
        | .pcm => pcmLatches s.cfg s.spec s.pt l
        | .ppm => ppmLatches l
        | .pwm => pwmLatches l } := by
  cases s
  cases k <;> rfl

/-! ### The parts of the loop -/

/-- The symbol CURSOR names goes to SYMBOL, `last` exactly at the end of the train (R205). -/
theorem symbolStep_eq {s : State} (h : s.cursor.toNat < s.lat.n.toNat) :
    symbolStep s = symbol (s.pt.pulse.read s.cursor.toNat).toNat (s.pt.gap.read s.cursor.toNat).toNat
      (decide (s.cursor.toNat + 1 = s.lat.n.toNat)) { s with phase := .accumulating } := by
  have hlast : (s.cursor.toNat == s.lat.n.toNat - 1) = decide (s.cursor.toNat + 1 = s.lat.n.toNat) := by
    rw [Bool.eq_iff_iff, beq_iff_eq, decide_eq_true_iff]
    omega
  simp only [symbolStep, hlast]
  rfl

/-- HAS_DATA: a second row, or a bit in the first (R207). -/
theorem hasData_iff (x : BitBuffer) : x.hasData = true ↔ 1 < x.numRows ∨ 0 < x.len 0 := by
  simp [BitBuffer.hasData]

/-- `dispatch` counts DISPATCHES up to its limit, and flags the entry that no longer counts (R212). -/
theorem dispatch_eq (o : Origin) (s : State) :
    dispatch o s = { s with
      dispatches := sat32 (s.dispatches.toNat + 1)
      flags := if s.dispatches.toNat = 2 ^ 32 - 1 then raiseIn .wCntSat s.flags else s.flags
      origin := o
      phase := .dispatch } := by
  have hsat : s.dispatches.toNat + 1 > 2 ^ 32 - 1 ↔ s.dispatches.toNat = 2 ^ 32 - 1 := by
    have := s.dispatches.isLt
    omega
  have hflags : raiseIf (s.dispatches.toNat + 1 > 2 ^ 32 - 1) .wCntSat s.flags =
      if s.dispatches.toNat = 2 ^ 32 - 1 then raiseIn .wCntSat s.flags else s.flags := by
    simp only [raiseIf, hsat, decide_eq_true_eq]
  rw [← hflags]
  rfl

/-- Settles O37: `runFrom` is the loop of the model, `runFrom_follows` and `RunLoop.unique` make it that of R205; the other four
parts are the equations above. -/
theorem runFollowsLoop : Obligations.RunFollowsLoop := by
  refine ⟨fun s k hs hk => ?_, entered_eq, fun s h => symbolStep_eq h, hasData_iff, fun s => ⟨fun o => ?_, rfl, rfl, rfl⟩⟩
  · have hloop := runFrom_follows (s.entered k)
    exact ⟨runFrom (s.entered k), exec_dmRun_starts hs hk, hloop, fun u hu => hloop.unique hu⟩
  · exact ⟨sat32 (s.dispatches.toNat + 1), sat32_toNat _, dispatch_eq o s⟩

end Sys2Proof.Machine
end

section
/-! Reset (R51, R310): what the reset input leaves, and that it meets the invariants. -/

namespace Sys2Proof.Machine

/-- From every state, at rest or not, the reset input is accepted at once; the environment's later accesses stay (R310). -/
theorem step_rst {s : State} {rest : List Access} (hp : s.pending = .rst :: rest) :
    step s = .next { State.resetWith s.cfg with pending := rest } := by
  simp only [step, acceptNext, hp]
  rfl

/-- Every element of LAT is 0 after reset (R48, R51). -/
theorem latRead_zero (k : Nat) : latRead Latches.zero k = 0 := by
  unfold latRead
  split <;> rfl

/-- A cleared BitBuffer reads 0 everywhere (R51, R120). -/
theorem empty_reads_zero : (∀ a, BitBuffer.empty.mem.read a = 0) ∧ (∀ r, BitBuffer.empty.len r = 0) ∧
    (∀ r, BitBuffer.empty.syncsBeforeRow.read r = 0) ∧ BitBuffer.empty.numRows = 0 ∧ BitBuffer.empty.freeRow = 0 :=
  ⟨fun _ => rfl, fun _ => rfl, fun _ => rfl, rfl, rfl⟩

/-- The suggested parameters of R8 meet the constraints on them, with the default placement of R71. -/
theorem standard_legal : Params.standard.Legal := by decide

/-- Settles O58: the step is the reset input, and every field of its state is read off. -/
theorem resetZeroesEverything : Obligations.ResetZeroesEverything := by
  refine ⟨fun s rest hp => step_rst hp, fun c => ⟨fun b => ?buffer, fun _ => ⟨rfl, rfl⟩, rfl, rfl, rfl, rfl, rfl, rfl, rfl,
    rfl, fun _ => ⟨rfl, rfl⟩, rfl, rfl, rfl, rfl, rfl, fun _ => rfl, rfl, latRead_zero⟩⟩
  case buffer => cases b <;> exact empty_reads_zero

/-- Settles O60: the state after reset is good for every legal choice of parameters, the suggested ones among them. -/
theorem resetIsGood : Obligations.ResetIsGood :=
  ⟨fun _ hc => resetWith_good hc, resetWith_good standard_legal⟩

end Sys2Proof.Machine
end

section
/-! A bus write in IDLE and DISPATCH (R70, R72): the word goes to the register or the element its address names. -/

namespace Sys2Proof.Machine

variable {c : Params} {s : State}

/-! ### Where a write leads -/

/-- The windows of a BitBuffer hold no space that a bus write stores to (R60, R72). -/
theorem locateBuffer_readOnly {b : Buf} {a : Nat} {sp : Space} {i : Nat} (h : locateBuffer c b a = some (sp, i)) :
    sp ≠ .reg ∧ sp ≠ .pat ∧ sp ≠ .ptPulse ∧ sp ≠ .ptGap := by
  simp only [locateBuffer] at h
  split_ifs at h <;> cases h <;> simp

/-- An address that leads to a space with write rights lies in that space's window (R71). -/
theorem locate_window {a : Nat} {sp : Space} {i : Nat} (h : locate c a = some (sp, i)) :
    (sp = .reg → a < 0x100 ∧ i = a / 4 * 4) ∧
    (sp = .pat → c.addrMap.pat ≤ a ∧ a < c.addrMap.pat + c.xcap) ∧
    (sp = .ptPulse → c.addrMap.ptPulse ≤ a ∧ a < c.addrMap.ptPulse + 4 * c.maxp) ∧
    (sp = .ptGap → c.addrMap.ptGap ≤ a ∧ a < c.addrMap.ptGap + 4 * c.maxp) := by
  simp only [locate, inSpan_iff, Nat.one_mul] at h
  split_ifs at h with hreg hlat hpat hxbuf hpulse hgap
  · cases h; exact ⟨fun _ => ⟨hreg, rfl⟩, by simp, by simp, by simp⟩
  · cases h; simp
  · cases h; exact ⟨by simp, fun _ => hpat, by simp, by simp⟩
  · cases h; simp
  · cases h; exact ⟨by simp, by simp, fun _ => hpulse, by simp⟩
  · cases h; exact ⟨by simp, by simp, by simp, fun _ => hgap⟩
  · have hro : sp ≠ .reg ∧ sp ≠ .pat ∧ sp ≠ .ptPulse ∧ sp ≠ .ptGap := by
      split at h
      · next hb0 => cases h; exact locateBuffer_readOnly hb0
      · exact locateBuffer_readOnly h
    simp [hro]

/-- In IDLE and DISPATCH a write to REG reaches the register at the offset rounded down to the word (R67, R72). -/
theorem step_regWrite {a off : Nat} {v : Word} {rest : List Access} (hs : s.AcceptsBuffer)
    (hp : s.pending = .write a v :: rest) (ha : a / 4 * 4 = off) (hlo : 4 ≤ off) (hhi : off < 0x100) :
    step s = .next (regWrite (takeAccess rest s) off v) := by
  subst ha
  exact step_writeElement hs hp (by omega) (locate_reg (by omega))

/-! ### What a write stores -/

/-- Offsets of read-only registers and offsets that are not listed are ignored (R50, R72). -/
theorem regWrite_ignored {off : Nat} (h : off ∉ writableRegisters) (v : Word) : regWrite s off v = s := by
  unfold regWrite
  split
  case h_14 => rfl
  all_goals exact absurd (by decide) h

/-- NUM_PULSES takes the smaller of the word and MAXP, and W_PULSES_TRUNC tells of the clipping (R30). -/
theorem regWrite_numPulses (hmax : s.cfg.maxp < 2 ^ 32) (v : Word) :
    ∃ n : Word, n.toNat = min v.toNat s.cfg.maxp ∧
      regWrite s 0x060 v = { s with
        pt := { s.pt with numPulses := n }
        flags := if s.cfg.maxp < v.toNat then raiseIn .wPulsesTrunc s.flags else s.flags } := by
  simp only [regWrite]
  by_cases hclip : s.cfg.maxp < v.toNat
  · refine ⟨BitVec.ofNat 32 s.cfg.maxp, ?_, by simp only [if_pos hclip]; rfl⟩
    rw [BitVec.toNat_ofNat, Nat.mod_eq_of_lt hmax, Nat.min_eq_right hclip.le]
  · exact ⟨v, (Nat.min_eq_left (by omega)).symm, by simp only [if_neg hclip]⟩

/-- A write of FLAGS clears the bits written as 1, but not bit 31 (R39). -/
theorem writeOneToClear_getLsbD (f v : Word) {i : Nat} (hi : i < 32) :
    (writeOneToClear f v).getLsbD i = (f.getLsbD i && (!v.getLsbD i || decide (i = 31))) := by
  have hmask : ∀ j : Fin 32, (0x7FFFFFFF : Word).getLsbD j.1 = !decide (j.1 = 31) := by decide
  have hmask_i : (0x7FFFFFFF : Word).getLsbD i = !decide (i = 31) := hmask ⟨i, hi⟩
  simp only [writeOneToClear, BitVec.getLsbD_and, BitVec.getLsbD_not, hi, hmask_i]
  simp

/-- An address that leads to no space with write rights, nor to a register that takes a write, stores nothing (R70, R72). -/
theorem step_writeIgnored {a : Nat} {v : Word} {rest : List Access} (hs : s.AcceptsBuffer)
    (hp : s.pending = .write a v :: rest) (ha : 4 ≤ a) (hreg : a / 4 * 4 ∉ writableRegisters)
    (hpat : ¬(s.cfg.addrMap.pat ≤ a ∧ a < s.cfg.addrMap.pat + s.cfg.xcap))
    (hpulse : ¬(s.cfg.addrMap.ptPulse ≤ a ∧ a < s.cfg.addrMap.ptPulse + 4 * s.cfg.maxp))
    (hgap : ¬(s.cfg.addrMap.ptGap ≤ a ∧ a < s.cfg.addrMap.ptGap + 4 * s.cfg.maxp)) :
    step s = .next (takeAccess rest s) := by
  cases hl : locate s.cfg a with
  | none => exact step_writeNowhere hs.atRest hp ha hl
  | some x =>
    obtain ⟨sp, i⟩ := x
    obtain ⟨hwReg, hwPat, hwPulse, hwGap⟩ := locate_window hl
    rw [step_writeElement hs hp ha hl]
    cases sp with
    | reg =>
      obtain ⟨-, rfl⟩ := hwReg rfl
      exact congrArg _ (regWrite_ignored hreg v)
    | pat => exact absurd (hwPat rfl) hpat
    | ptPulse => exact absurd (hwPulse rfl) hpulse
    | ptGap => exact absurd (hwGap rfl) hgap
    | lat | xbuf | mem | bits | syncs | numRows | freeRow => rfl

/-- A write to PAT[j] stores the low byte of the word there (R38, R72). -/
theorem step_writePat {j : Nat} {v : Word} {rest : List Access} (hs : s.AcceptsBuffer) (hc : s.cfg.Legal)
    (hj : j < s.cfg.xcap) (hp : s.pending = .write (s.cfg.addrMap.pat + j) v :: rest) :
    step s = .next { s with pending := rest, done := false, pat := s.pat.write j (v.setWidth 8) } := by
  have hcfg : (takeAccess rest s).cfg = s.cfg := rfl
  have h0 := mapOrder hc
  rw [step_writeElement hs hp (by omega) (locate_pat hc hj), writeElement, hcfg, if_pos hj]
  rfl

/-- Settles O52: NUM_PULSES, the registers that store the word as it is, PAT, and the addresses that ignore a write. -/
theorem numPulsesClipped : Obligations.NumPulsesClipped := by
  intro s v rest hs hc
  refine ⟨fun a ha hp => ?numPulses, fun e he a ha hp => ?registers, fun j hj hpat hp => ?pat,
    fun a ha hreg hwin hp => ?ignored⟩
  case numPulses =>
    obtain ⟨-, -, -, -, hmaxp, -⟩ := hc
    rw [step_regWrite hs hp ha (by decide) (by decide)]
    obtain ⟨n, hn, e⟩ := regWrite_numPulses (s := takeAccess rest s) (by change s.cfg.maxp < _; omega) v
    exact ⟨n, hn, congrArg _ e⟩
  case registers =>
    have hstore : 4 ≤ e.1 ∧ e.1 < 0x100 ∧
        regWrite (takeAccess rest s) e.1 v = { e.2 with pending := rest, done := false } := by
      clear ha
      revert e
      simp only [List.forall_mem_cons, List.not_mem_nil, IsEmpty.forall_iff, implies_true, and_true]
      refine ⟨?_, ?_, ?_, ?_, ?_, ?_, ?_, ?_, ?_, ?_, ?_⟩ <;> exact ⟨by decide, by decide, rfl⟩
    obtain ⟨hlo, hhi, e⟩ := hstore
    rw [step_regWrite hs hp ha hlo hhi, e]
  case pat =>
    exact ⟨_, step_writePat hs hc hj hp, fun k => Memory.read_write hpat j k _⟩
  case ignored =>
    simp only [List.forall_mem_cons] at hwin
    obtain ⟨hpat, hpulse, hgap, -⟩ := hwin
    exact step_writeIgnored hs hp ha hreg hpat hpulse hgap

/-- Settles O54: the write reaches FLAGS, and `writeOneToClear` bit by bit. -/
theorem flagsWriteOneToClear : Obligations.FlagsWriteOneToClear := by
  intro s a v rest hs ha hp
  refine ⟨writeOneToClear s.flags v, ?_, fun i hi => writeOneToClear_getLsbD s.flags v hi⟩
  rw [step_regWrite hs hp ha (by decide) (by decide)]
  rfl

end Sys2Proof.Machine
end

section
/-! FLAGS under one step (R39): a set bit stays set, but for the reset input and a write to FLAGS. -/

namespace Sys2Proof.Machine

/-- From `v` to `w` no bit of FLAGS is cleared (R39). -/
def BitsKept (v w : Word) : Prop := ∀ i, v.getLsbD i = true → w.getLsbD i = true

theorem BitsKept.refl (v : Word) : BitsKept v v := fun _ h => h

theorem BitsKept.trans {u v w : Word} (h : BitsKept u v) (h' : BitsKept v w) : BitsKept u w := fun i hi => h' i (h i hi)

theorem raiseIn_bitsKept (f : Flag) (v : Word) : BitsKept v (raiseIn f v) := by
  intro i hi
  rw [raiseIn_getLsbD, hi, Bool.true_or]

theorem raiseIf_bitsKept (p : Bool) (f : Flag) (v : Word) : BitsKept v (raiseIf p f v) := by
  cases p
  · exact BitsKept.refl v
  · exact raiseIn_bitsKept f v

theorem Warns.bitsKept {v w : Word} (h : Warns v w) : BitsKept v w := fun i => (h.getLsbD i).1

/-! ### The commands (R285, R294) -/

/-- AGGREGATE clears no flag (R215). -/
theorem aggregate_bitsKept (st : Int) (s : State) : BitsKept s.flags (aggregate st s).flags := by
  simp only [aggregate]
  split
  · exact raiseIf_bitsKept _ .wCntSat s.flags
  · exact raiseIf_bitsKept _ .wCntSat s.flags

/-- A run, from where it stands to its end, clears no flag (R205). -/
theorem runFrom_bitsKept (s : State) : BitsKept s.flags (runFrom s).flags := (runFrom_follows s).keeps.2.bitsKept

/-- An abort clears no flag (R193, R199). -/
theorem abortRun_bitsKept (f : Flag) {s u : State} (h : u.flags = s.flags) : BitsKept s.flags (abortRun f u).flags := by
  rw [abortRun_flags, h]
  exact raiseIn_bitsKept f s.flags

/-- DM_RUN clears no flag, aborted or not (R193). -/
theorem runEntry_bitsKept (s : State) : BitsKept s.flags (runEntry (entryE1 (s.setDone false))).flags := by
  cases hk : demodOf s.spec.kind with
  | none =>
    have habort : runEntry (entryE1 (s.setDone false)) = abortRun .eKind (entryE1 (s.setDone false)) := by
      simp only [runEntry, entryE1_spec, State.setDone_spec, hk]
    rw [habort]
    exact abortRun_bitsKept .eKind (by simp)
  | some k =>
    have hrun := runFrom_bitsKept (s.entered k)
    rw [entered_flags] at hrun
    rw [runEntry_known hk]
    split
    · exact abortRun_bitsKept .eConfig (by simp)
    · split
      · exact abortRun_bitsKept .eRateLow (by simp)
      · exact hrun

/-- DM_SINKRET with a legal status clears no flag (R214). -/
theorem sinkReturn_bitsKept (s : State) : BitsKept s.flags (sinkReturn s).flags := by
  simp only [sinkReturn]
  split
  · exact aggregate_bitsKept s.sinkStatus s
  · exact (aggregate_bitsKept s.sinkStatus s).trans (runFrom_bitsKept (resume (aggregate s.sinkStatus s)))

/-- A command clears no flag if its effect does not: a refusal raises one (R292). -/
theorem command_bitsKept {s t : State} {cls : CommandClass} {ok : Bool} {effect : State → State} {i : Instr}
    (hi : exec i s = command cls ok effect s) (ht : exec i s = .next t) (he : BitsKept s.flags (effect s).flags) :
    BitsKept s.flags t.flags := by
  rw [hi] at ht
  rcases command_cases cls ok effect s with ⟨-, -, e⟩ | ⟨-, -, e⟩ | ⟨-, e⟩ | ⟨-, e⟩ <;>
    obtain rfl := Host.Outcome.next.inj (e.symm.trans ht)
  · exact he
  · exact raiseIn_bitsKept .eBadCmd s.flags
  · exact raiseIn_bitsKept .eBadState s.flags
  · exact BitsKept.refl s.flags

/-- No command clears a flag. -/
theorem exec_bitsKept {s t : State} (i : Instr) (ht : exec i s = .next t) : BitsKept s.flags t.flags := by
  have hsame : ∀ v : Word, v = s.flags → BitsKept s.flags v := fun v e => e ▸ BitsKept.refl _
  cases i with
  | bbClear b => exact command_bitsKept (exec_bbClear b s) ht (hsame _ (State.setBb_flags s b _))
  | bbAddBit b v => exact command_bitsKept (exec_bbAddBit b v s) ht (addBit_keeps v (s.bb b, s.flags)).2.bitsKept
  | bbAddRow b => exact command_bitsKept (exec_bbAddRow b s) ht (addRow_keeps (s.bb b, s.flags)).2.bitsKept
  | bbAddSync b => exact command_bitsKept (exec_bbAddSync b s) ht (addSync_keeps (s.bb b, s.flags)).2.bitsKept
  | bbInvert b => exact command_bitsKept (exec_bbInvert b s) ht (hsame _ (State.setBb_flags s b _))
  | bbNrzs b => exact command_bitsKept (exec_bbNrzs b s) ht (hsame _ (State.setBb_flags s b _))
  | bbNrzm b => exact command_bitsKept (exec_bbNrzm b s) ht (hsame _ (State.setBb_flags s b _))
  | bbExtract b row => exact command_bitsKept (exec_bbExtract b row s) ht (raiseIf_bitsKept _ .wXtrunc s.flags)
  | bbSearch b row => exact command_bitsKept (exec_bbSearch b row s) ht (BitsKept.refl _)
  | bbCmpRows b ra rb => exact command_bitsKept (exec_bbCmpRows b ra rb s) ht (BitsKept.refl _)
  | bbCntRep b row => exact command_bitsKept (exec_bbCntRep b row s) ht (BitsKept.refl _)
  | bbFindRow b => exact command_bitsKept (exec_bbFindRow b s) ht (BitsKept.refl _)
  | bbFindPfx b => exact command_bitsKept (exec_bbFindPfx b s) ht (BitsKept.refl _)
  | ldManch b row =>
    exact command_bitsKept (exec_ldManch b row s) ht (manchLoop_keeps s.cfg _ _ _ (lineStart s b)).2.bitsKept
  | ldDmanch b row =>
    exact command_bitsKept (exec_ldDmanch b row s) ht (dmanchLoop_keeps s.cfg _ _ _ (lineStart s b)).2.bitsKept
  | dmRun => exact command_bitsKept (exec_dmRun s) ht (runEntry_bitsKept s)
  | dmSinkRet =>
    refine command_bitsKept (exec_dmSinkRet s) ht ?_
    split
    · exact raiseIn_bitsKept .fFatal s.flags
    · exact sinkReturn_bitsKept (s.setDone false)
  | dmString =>
    refine command_bitsKept (exec_dmString s) ht ?_
    rw [dispatch_flags]
    exact raiseIf_bitsKept _ .wCntSat s.flags

/-- A command word clears no flag, decoded or reserved (R94). -/
theorem issue_bitsKept {s t : State} (w : Word) (ht : issue w s = .next t) : BitsKept s.flags t.flags := by
  have hreserved : BitsKept s.flags (refuseReserved s).flags := by
    unfold refuseReserved
    split
    · exact raiseIn_bitsKept .eBadCmd s.flags
    · exact raiseIn_bitsKept .eBadCmd s.flags
    all_goals exact BitsKept.refl _
  unfold issue at ht
  split at ht
  · exact exec_bitsKept _ ht
  · cases ht; exact hreserved

/-! ### The bus (R70 to R72) -/

/-- Every write to REG but the one to FLAGS clears no flag (R30, R39). -/
theorem regWrite_bitsKept {s : State} {off : Nat} (h : off ≠ 0x008) (v : Word) :
    BitsKept s.flags (regWrite s off v).flags := by
  unfold regWrite
  split
  case h_1 => exact absurd rfl h
  case h_12 =>
    split
    · exact raiseIn_bitsKept .wPulsesTrunc s.flags
    · exact BitsKept.refl _
  all_goals exact BitsKept.refl _

/-- A write to the train may be refused, and clears no flag (R72). -/
theorem ptWrite_bitsKept (s : State) (i : Nat) (pt : PulseTrain) : BitsKept s.flags (ptWrite s i pt).flags := by
  unfold ptWrite
  split_ifs
  · exact BitsKept.refl _
  · exact raiseIn_bitsKept .eBadState s.flags
  · exact BitsKept.refl _

/-- A bus write outside the word of FLAGS clears no flag. -/
theorem busWrite_bitsKept {s : State} {a : Nat} (h : ¬(8 ≤ a ∧ a < 12)) (v : Word) :
    BitsKept s.flags (busWrite s a v).flags := by
  unfold busWrite
  split
  next sp i hl =>
    unfold memWrite
    split
    · exact BitsKept.refl _
    · cases sp with
      | reg =>
        obtain ⟨-, rfl⟩ := (locate_window hl).1 rfl
        exact regWrite_bitsKept (by omega) v
      | pat =>
        simp only [writeElement]
        split <;> exact BitsKept.refl _
      | ptPulse => exact ptWrite_bitsKept s i _
      | ptGap => exact ptWrite_bitsKept s i _
      | lat | xbuf | mem | bits | syncs | numRows | freeRow => exact BitsKept.refl _
  next => exact BitsKept.refl _

/-! ### The step (R80, R90) -/

/-- In ACCUMULATING and NEW_ROW every access but the reset input waits (R76; log 6). -/
theorem step_atRest_or_waits {s : State} {x : Access} {rest : List Access} (hp : s.pending = x :: rest) (hx : x ≠ .rst) :
    s.AtRest ∨ step s = .next s := by
  have hwaits : s.phase = .accumulating ∨ s.phase = .newRow → step s = .next s := by
    intro h
    unfold step acceptNext
    rw [hp]
    cases x with
    | rst => exact absurd rfl hx
    | write | read => rcases h with h | h <;> simp [h]
  cases hph : s.phase with
  | idle => exact .inl (.inl hph)
  | dispatch => exact .inl (.inr (.inl hph))
  | fatal => exact .inl (.inr (.inr hph))
  | accumulating => exact .inr (hwaits (.inl hph))
  | newRow => exact .inr (hwaits (.inr hph))

/-- Everything one step can be, once: a reset, a command, a bus write, or a step that leaves FLAGS as it is (R76, R80). -/
theorem step_cases {s t : State} (ht : step s = .next t) :
    (∃ rest, s.pending = .rst :: rest) ∨
    (∃ a w rest, s.pending = .write a w :: rest ∧ issue w (takeAccess rest s) = .next t) ∨
    (∃ a v rest, s.pending = .write a v :: rest ∧ t = busWrite (takeAccess rest s) a v) ∨
    t.flags = s.flags := by
  rcases hp : s.pending with _ | ⟨_ | ⟨a, v⟩ | a, rest⟩
  case nil =>
    simp only [step, acceptNext, hp] at ht
    cases ht
    exact .inr (.inr (.inr rfl))
  case cons.rst => exact .inl ⟨rest, rfl⟩
  case cons.write =>
    rcases step_atRest_or_waits hp (by simp) with hs | hwaits
    · by_cases ha : a < 4
      · rw [step_command hs hp ha] at ht
        exact .inr (.inl ⟨a, v, rest, rfl, ht⟩)
      · rw [step_write hs hp (by omega)] at ht
        exact .inr (.inr (.inl ⟨a, v, rest, rfl, (Host.Outcome.next.inj ht).symm⟩))
    · obtain rfl := Host.Outcome.next.inj (hwaits.symm.trans ht)
      exact .inr (.inr (.inr rfl))
  case cons.read =>
    rcases step_atRest_or_waits hp (by simp) with hs | hwaits
    · rw [step_read hs hp] at ht
      cases ht
      exact .inr (.inr (.inr rfl))
    · obtain rfl := Host.Outcome.next.inj (hwaits.symm.trans ht)
      exact .inr (.inr (.inr rfl))

/-- Settles O55: every step but a reset and a write to FLAGS only raises flags. -/
theorem flagsAreSticky : Obligations.FlagsAreSticky := by
  intro s t i ht hrst hwrite
  suffices hkept : BitsKept s.flags t.flags from hkept i
  rcases step_cases ht with ⟨rest, hp⟩ | ⟨a, w, rest, -, hi⟩ | ⟨a, v, rest, hp, rfl⟩ | e
  · exact absurd hp (hrst rest)
  · exact issue_bitsKept (s := takeAccess rest s) w hi
  · exact busWrite_bitsKept (s := takeAccess rest s) (hwrite a v rest hp) v
  · exact e ▸ BitsKept.refl _

end Sys2Proof.Machine
end

section
/-! The bus and the state a host cannot write (R60, R72), and the word each read returns (R48, R50, R66, R73). -/

namespace Sys2Proof.Machine

variable {s : State}

/-! ### What a bus write can change -/

/-- A write to the train replaces the train, raises a flag, or does nothing (R72). -/
theorem ptWrite_changes (s : State) (i : Nat) (pt : PulseTrain) :
    ∃ pt' fl, ptWrite s i pt = { s with pt := pt', flags := fl } := by
  unfold ptWrite
  split_ifs
  · exact ⟨s.pt, s.flags, rfl⟩
  · exact ⟨s.pt, _, rfl⟩
  · exact ⟨pt, s.flags, rfl⟩

/-- A write to REG replaces operands, the ModulationSpec, the train's header or FLAGS, and nothing else (R50, R72). -/
theorem regWrite_changes (s : State) (off : Nat) (v : Word) : ∃ a0 a1 spec pt fl,
    regWrite s off v = { s with arg0 := a0, arg1 := a1, spec := spec, pt := pt, flags := fl } := by
  rcases regWrite_cases s off v with e | ⟨-, e⟩ | ⟨-, e⟩ | ⟨a0, a1, spec, rate, est, e⟩
  · exact ⟨s.arg0, s.arg1, s.spec, s.pt, _, e⟩
  · exact ⟨s.arg0, s.arg1, s.spec, _, _, e⟩
  · exact ⟨s.arg0, s.arg1, s.spec, _, s.flags, e⟩
  · exact ⟨a0, a1, spec, _, s.flags, e⟩

/-- Everything a bus write can change, once: operands, ModulationSpec, train, PAT and FLAGS (R60, R72). -/
theorem busWrite_changes (s : State) (a : Nat) (v : Word) : ∃ a0 a1 spec pt pat fl,
    busWrite s a v = { s with arg0 := a0, arg1 := a1, spec := spec, pt := pt, pat := pat, flags := fl } := by
  have hnothing : ∃ a0 a1 spec pt pat fl,
      s = { s with arg0 := a0, arg1 := a1, spec := spec, pt := pt, pat := pat, flags := fl } :=
    ⟨s.arg0, s.arg1, s.spec, s.pt, s.pat, s.flags, rfl⟩
  unfold busWrite
  split
  next sp i _ =>
    unfold memWrite
    split
    · exact hnothing
    · cases sp with
      | reg =>
        obtain ⟨a0, a1, spec, pt, fl, e⟩ := regWrite_changes s i v
        exact ⟨a0, a1, spec, pt, s.pat, fl, e⟩
      | pat =>
        simp only [writeElement]
        split
        · exact ⟨s.arg0, s.arg1, s.spec, s.pt, _, s.flags, rfl⟩
        · exact hnothing
      | ptPulse | ptGap =>
        obtain ⟨pt, fl, e⟩ := ptWrite_changes s i _
        exact ⟨s.arg0, s.arg1, s.spec, pt, s.pat, fl, e⟩
      | lat | xbuf | mem | bits | syncs | numRows | freeRow => exact hnothing
  next => exact hnothing

/-! ### What a bus read returns -/

/-- Outside LAT a read returns the low word of the element its address names (R66). -/
theorem busRead_element {a : Nat} {sp : Space} {i : Nat} (hl : locate s.cfg a = some (sp, i)) (hsp : sp ≠ .lat) :
    busRead s a = (memRead s sp i).extractLsb' 0 32 := by
  unfold busRead
  rw [hl]
  cases sp with
  | lat => exact absurd rfl hsp
  | reg | pat | xbuf | ptPulse | ptGap | mem | bits | syncs | numRows | freeRow => rfl

/-- A read of an element of 32 bits returns it whole (R73). -/
theorem busRead_word {a : Nat} {sp : Space} {i : Nat} {v : Word} (hl : locate s.cfg a = some (sp, i)) (hsp : sp ≠ .lat)
    (hv : memRead s sp i = v.setWidth 64) : busRead s a = v := by
  rw [busRead_element hl hsp, hv, extractLsb'_setWidth]

/-- A read of a narrower element returns it zero-extended (R73). -/
theorem busRead_narrow {a : Nat} {sp : Space} {i w : Nat} {v : BitVec w} (hl : locate s.cfg a = some (sp, i))
    (hsp : sp ≠ .lat) (hw : w ≤ 32) (hv : memRead s sp i = v.setWidth 64) : (busRead s a).toNat = v.toNat := by
  rw [busRead_element hl hsp, hv, extractLsb'_toNat_of_lt v hw]

/-- A read in no window returns 0 (R71). -/
theorem busRead_nowhere {a : Nat} (hl : locate s.cfg a = none) : busRead s a = 0 := by
  unfold busRead
  rw [hl]

/-- At every byte address of a word of REG a read returns the register (R67). -/
theorem busRead_aligned {a : Nat} (h : a < 0x100) : busRead s a = busRead s (a / 4 * 4) := by
  rw [busRead_reg h, busRead_reg (by omega), show a / 4 * 4 / 4 * 4 = a / 4 * 4 by omega]

/-- A read of FLAGS returns its defined bits (R39). -/
theorem readFlags_getLsbD (v : Word) (i : Nat) :
    (readFlags v).getLsbD i = (v.getLsbD i && decide (i < 7 ∨ (8 ≤ i ∧ i ≤ 12) ∨ i = 31)) := by
  rw [readFlags, BitVec.getLsbD_and, flagsDefined_bit]
  simp only [Nat.lt_succ_iff]

/-- STAT_FAIL[k] stands at 0x080 + 4k, inside REG as NFAIL is at most 16 (R8, R50). -/
theorem busRead_statFail (hc : s.cfg.Legal) {k : Nat} (hk : k < s.cfg.nfail) :
    busRead s (0x080 + 4 * k) = s.statFail.read k := by
  obtain ⟨-, -, -, -, -, -, -, hmin, -⟩ := hc
  have hn : s.cfg.nfail ≤ 16 := by simp only [Params.nfail]; omega
  rw [busRead_reg (by omega), regRead_statFail (by omega), if_pos (by omega),
    show ((0x080 + 4 * k) / 4 * 4 - 0x080) / 4 = k by omega]

/-- Offsets of REG that no register is listed for read 0 (R50). -/
theorem busRead_unlisted {a : Nat} (ha : a < 0x100)
    (h : (0x02C ≤ a ∧ a < 0x040) ∨ (0x068 ≤ a ∧ a < 0x080) ∨ 0x080 + 4 * s.cfg.nfail ≤ a) : busRead s a = 0 := by
  rw [busRead_reg ha]
  rcases h with ⟨hlo, hhi⟩ | ⟨hlo, hhi⟩ | hlo
  · exact regRead_gap (by omega) (by omega)
  · rw [regRead_statFail (by omega), if_neg (by omega)]
  · rw [regRead_statFail (by omega), if_neg (by omega)]

/-- The two words of an element of LAT, at any of their byte addresses, make up its value (R48, R66). -/
theorem busRead_lat (hc : s.cfg.Legal) {k j : Nat} (hk : k < 23) (hj : j < 4) :
    (busRead s (s.cfg.addrMap.lat + 8 * k + 4 + j) ++ busRead s (s.cfg.addrMap.lat + 8 * k + j) : BitVec 64) =
      BitVec.ofInt 64 ((latValues s.lat).getD k 0) := by
  have hlow : busRead s (s.cfg.addrMap.lat + 8 * k + j) = (latRead s.lat k).extractLsb' 0 32 := by
    rw [busRead, locate_lat hc hk (by omega)]
    exact if_pos (by omega)
  have hhigh : busRead s (s.cfg.addrMap.lat + 8 * k + 4 + j) = (latRead s.lat k).extractLsb' 32 32 := by
    rw [Nat.add_assoc _ 4 j, busRead, locate_lat hc hk (by omega)]
    exact if_neg (by omega)
  rw [hlow, hhigh, append_extractLsb', latRead_eq _ hk]

/-- The words of the windows of one BitBuffer (R60, R71, R73). -/
theorem busRead_buffer (hc : s.cfg.Legal) (b : Buf) :
    let c := s.cfg
    let w := bufferWindows c b
    let x := s.bb b
    (∀ a, a < c.rows * c.cols → (busRead s (w.mem + a)).toNat = (x.mem.read a).toNat) ∧
    (∀ r j, r < c.rows → j < 4 → busRead s (w.bits + 4 * r + j) = resultWord (x.len r) ∧
      (busRead s (w.syncs + 4 * r + j)).toNat = (x.syncsBeforeRow.read r).toNat) ∧
    (∀ j, j < 4 → busRead s (w.numRows + j) = resultWord x.numRows ∧
      busRead s (w.freeRow + j) = resultWord x.freeRow) := by
  refine ⟨fun a ha => ?_, fun r j hr hj => ⟨?_, ?_⟩, fun j hj => ⟨?_, ?_⟩⟩
  · exact busRead_narrow (locate_mem hc b ha) (by simp) (by decide) (if_pos ha)
  · exact busRead_word (locate_bits hc b hr hj) (by simp) (if_pos hr)
  · exact busRead_narrow (locate_syncs hc b hr hj) (by simp) (by decide) (if_pos hr)
  · exact busRead_word (locate_numRows hc b hj) (by simp) rfl
  · exact busRead_word (locate_freeRow hc b hj) (by simp) rfl

/-- Settles O57: what a bus write can change, that a read changes only the word read, and the reads window by window. -/
theorem busCannotWriteBuffers : Obligations.BusCannotWriteBuffers := by
  refine ⟨fun s t x rest hs hp ht => ⟨?write, ?read⟩, fun s hc => ⟨⟨fun a ha => busRead_aligned ha, ?registers, ?state,
    fun i _ => ?flags, ?origin, ?kind, fun k hk => busRead_statFail hc hk,
    fun a ha h => busRead_unlisted ha h⟩, fun k j hk hj => busRead_lat hc hk hj, fun j hj => ⟨?pat, ?xbuf⟩,
    fun n j hn hj => ⟨?pulse, ?gap⟩, ?buffer, fun a ha h => busRead_nowhere (locate_none ha h)⟩⟩
  case write =>
    rintro a v rfl ha
    rw [step_write hs hp ha] at ht
    obtain ⟨a0, a1, spec, pt, pat, fl, e⟩ := busWrite_changes (takeAccess rest s) a v
    rw [e] at ht
    cases ht
    exact ⟨rfl, rfl, rfl, rfl, rfl, rfl, rfl, rfl, rfl, rfl, rfl, rfl⟩
  case read =>
    rintro a rfl
    rw [step_read hs hp] at ht
    cases ht
    rfl
  case registers =>
    simp only [List.forall_mem_cons, List.not_mem_nil, IsEmpty.forall_iff, implies_true, and_true]
    refine ⟨?_, ?_, ?_, ?_, ?_, ?_, ?_, ?_, ?_, ?_, ?_, ?_, ?_, ?_, ?_, ?_, ?_⟩ <;> rw [busRead_reg (by decide)]
    case refine_1 => simp [regRead]
    all_goals rfl
  case state =>
    rw [busRead_reg (by decide)]
    cases h : s.phase <;> simp [regRead, h, Phase.code]
  case flags =>
    rw [busRead_reg (by decide)]
    exact readFlags_getLsbD s.flags i
  case origin =>
    rw [busRead_reg (by decide)]
    cases h : s.origin <;> simp [regRead, h, Origin.code]
  case kind =>
    rw [busRead_reg (by decide)]
    exact BitVec.toNat_setWidth_of_le (by decide)
  case pat => exact busRead_narrow (locate_pat hc hj) (by simp) (by decide) (if_pos hj)
  case xbuf => exact busRead_narrow (locate_xbuf hc hj) (by simp) (by decide) (if_pos hj)
  case pulse => exact busRead_word (locate_ptPulse hc hn hj) (by simp) (if_pos hn)
  case gap => exact busRead_word (locate_ptGap hc hn hj) (by simp) (if_pos hn)
  case buffer =>
    intro b
    cases b
    · exact busRead_buffer hc .b0
    · exact busRead_buffer hc .b1

end Sys2Proof.Machine
end

section
/-! The four core operations on a BitBuffer (R120 to R125): as commands they change one buffer by a row operation, or nothing. -/

namespace Sys2Proof.Machine

/-- A buffer command with no operand to check has its effect or leaves both buffers as they are (R293). -/
theorem bufferCommand_cases {s t : State} {effect : State → State} (ht : command .buffer true effect s = .next t) :
    t = effect s ∨ ∀ b, t.bb b = s.bb b := by
  rcases command_cases .buffer true effect s with ⟨-, -, e⟩ | ⟨-, hok, -⟩ | ⟨-, e⟩ | ⟨-, e⟩
  · exact .inl (Host.Outcome.next.inj (ht.symm.trans e))
  · cases hok
  · obtain rfl := Host.Outcome.next.inj (e.symm.trans ht)
    exact .inr fun b => State.refuse_bb s .eBadState b
  · obtain rfl := Host.Outcome.next.inj (e.symm.trans ht)
    exact .inr fun _ => rfl

/-- From `s` to `t` buffer `b` becomes `y` or stays as it is, and the other buffer stays. -/
def State.BufferBecomes (s t : State) (b : Buf) (y : BitBuffer) : Prop :=
  (t.bb b = y ∨ t.bb b = s.bb b) ∧ t.bb (otherBuf b) = s.bb (otherBuf b)

theorem clear_bufferBecomes {s t : State} {b : Buf} (ht : exec (.bbClear b) s = .next t) :
    s.BufferBecomes t b BitBuffer.empty := by
  rw [exec_bbClear] at ht
  rcases bufferCommand_cases ht with rfl | hsame
  · exact ⟨.inl (State.setBb_bb s b _), State.setBb_bb_other s b _⟩
  · exact ⟨.inr (hsame b), hsame _⟩

/-- A command that is a row operation `f` on buffer `b`. -/
theorem onBuffer_bufferBecomes {s t : State} {b : Buf} {f : Params → Logged → Logged}
    (ht : command .buffer true (fun u => u.onBuffer b (f u.cfg)) s = .next t) :
    s.BufferBecomes t b (f s.cfg (s.bb b, s.flags)).1 := by
  rcases bufferCommand_cases ht with rfl | hsame
  · exact ⟨.inl (State.onBuffer_bb s b _), State.onBuffer_bb_other s b _⟩
  · exact ⟨.inr (hsame b), hsame _⟩

theorem addBit_bufferBecomes {s t : State} {b : Buf} {v : Bool} (ht : exec (.bbAddBit b v) s = .next t) :
    s.BufferBecomes t b ((s.bb b).addBit s.cfg v) :=
  onBuffer_bufferBecomes (f := fun c p => p.addBit c v) ht

theorem addRow_bufferBecomes {s t : State} {b : Buf} (ht : exec (.bbAddRow b) s = .next t) :
    s.BufferBecomes t b ((s.bb b).addRow s.cfg) :=
  onBuffer_bufferBecomes (f := Logged.addRow) ht

theorem addSync_bufferBecomes {s t : State} {b : Buf} (ht : exec (.bbAddSync b) s = .next t) :
    s.BufferBecomes t b (Logged.addSync s.cfg (s.bb b, s.flags)).1 :=
  onBuffer_bufferBecomes (f := Logged.addSync) ht

/-- A buffer that becomes a good one keeps R26, and no byte past the storage changes, as all of them are 0 (R26 I4, R128). -/
theorem State.BufferBecomes.keepsGood {s t : State} {b : Buf} {y : BitBuffer} (h : s.BufferBecomes t b y)
    (hc : s.cfg.Legal) (hg : (s.bb b).Good s.cfg) (hy : y.Good s.cfg) :
    (t.bb b).Good s.cfg ∧ t.bb (otherBuf b) = s.bb (otherBuf b) ∧
      ∀ a, s.cfg.rows * s.cfg.cols ≤ a → (t.bb b).mem.read a = (s.bb b).mem.read a := by
  obtain ⟨hbuf, hother⟩ := h
  have hgood : (t.bb b).Good s.cfg := by
    rcases hbuf with e | e
    · exact e ▸ hy
    · exact e ▸ hg
  exact ⟨hgood, hother, fun a ha => (hgood.read_beyond hc ha).trans (hg.read_beyond hc ha).symm⟩

/-- A buffer that becomes one with few changes has no others (R130). -/
theorem State.BufferBecomes.touchesOnly {s t : State} {b : Buf} {y : BitBuffer} (h : s.BufferBecomes t b y)
    {bytes counts syncs : Set Nat} (hy : (s.bb b).TouchesOnly y bytes counts syncs) :
    (s.bb b).TouchesOnly (t.bb b) bytes counts syncs := by
  obtain ⟨e | e, -⟩ := h
  · exact e ▸ hy
  · exact e ▸ BitBuffer.TouchesOnly.refl _ _ _ _

/-- Settles O16: each operation keeps R26, and touches what its row operation touches, in each case of ADD_ROW and ADD_SYNC. -/
theorem coreKeepsInvariants : Obligations.CoreKeepsInvariants := by
  intro s t b v hc hg
  refine ⟨?keeps, fun ht => (addBit_bufferBecomes ht).touchesOnly (addBit_touchesOnly v),
    fun ht => ⟨fun hfree => ?rowFree, fun hfull => ?rowFull⟩,
    fun ht => ⟨fun hempty => ?syncEmpty, fun hbits hfree => ?syncFree, fun hbits hfull => ?syncFull⟩⟩
  case keeps =>
    simp only [List.forall_mem_cons, List.not_mem_nil, IsEmpty.forall_iff, implies_true, and_true]
    exact ⟨fun ht => (clear_bufferBecomes ht).keepsGood hc hg empty_good,
      fun ht => (addBit_bufferBecomes ht).keepsGood hc hg (addBit_good hc hg v),
      fun ht => (addRow_bufferBecomes ht).keepsGood hc hg (addRow_good hc hg),
      fun ht => (addSync_bufferBecomes ht).keepsGood hc hg (addSync_good hc hg)⟩
  case rowFree => exact (addRow_bufferBecomes ht).touchesOnly (addRow_touchesOnly hfree ∅ ∅ ∅)
  case rowFull => exact (addRow_bufferBecomes ht).touchesOnly (addRow_overflow_touchesOnly hfull)
  case syncEmpty =>
    exact (addSync_bufferBecomes ht).touchesOnly (addSync_empty_touchesOnly (p := (s.bb b, s.flags)) hempty)
  case syncFree =>
    exact (addSync_bufferBecomes ht).touchesOnly (addSync_newRow_touchesOnly (p := (s.bb b, s.flags)) hbits hfree)
  case syncFull =>
    exact (addSync_bufferBecomes ht).touchesOnly (addSync_overflow_touchesOnly (p := (s.bb b, s.flags)) hbits hfull)

end Sys2Proof.Machine
end

section
/-! A bus write to the PulseTrain (R72, R83): stored in IDLE, refused in DISPATCH, at every byte address of the word (R67). -/

namespace Sys2Proof.Machine

variable {s : State}

theorem ptWrite_idle {n : Nat} (hn : n < s.cfg.maxp) (hs : s.phase = .idle) (pt : PulseTrain) :
    ptWrite s n pt = { s with pt := pt } := by
  rw [ptWrite, if_neg (by omega), if_neg (by simp [hs])]

theorem ptWrite_dispatch {n : Nat} (hn : n < s.cfg.maxp) (hs : s.phase = .dispatch) (pt : PulseTrain) :
    ptWrite s n pt = s.refuse .eBadState := by
  rw [ptWrite, if_neg (by omega), if_pos hs]

/-- The address of a byte of PT.pulse[n] leads the write to that element, and to no register (R67, R71). -/
theorem step_writePulse {n j : Nat} {v : Word} {rest : List Access} (hs : s.AcceptsBuffer) (hc : s.cfg.Legal)
    (hn : n < s.cfg.maxp) (hj : j < 4) (hp : s.pending = .write (s.cfg.addrMap.ptPulse + 4 * n + j) v :: rest) :
    step s = .next (ptWrite (takeAccess rest s) n { s.pt with pulse := s.pt.pulse.write n v }) := by
  have hmap := mapOrder hc
  exact step_writeElement hs hp (by omega) (locate_ptPulse hc hn hj)

/-- The address of a byte of PT.gap[n] leads the write to that element, and to no register (R67, R71). -/
theorem step_writeGap {n j : Nat} {v : Word} {rest : List Access} (hs : s.AcceptsBuffer) (hc : s.cfg.Legal)
    (hn : n < s.cfg.maxp) (hj : j < 4) (hp : s.pending = .write (s.cfg.addrMap.ptGap + 4 * n + j) v :: rest) :
    step s = .next (ptWrite (takeAccess rest s) n { s.pt with gap := s.pt.gap.write n v }) := by
  have hmap := mapOrder hc
  exact step_writeElement hs hp (by omega) (locate_ptGap hc hn hj)

/-- The two outcomes of a step that is such a write: the train is replaced in IDLE, E_BADSTATE is raised in DISPATCH (R72). -/
theorem ptWrite_step_cases {n : Nat} {rest : List Access} {pt : PulseTrain} (hn : n < s.cfg.maxp)
    (hstep : s.AcceptsBuffer → step s = .next (ptWrite (takeAccess rest s) n pt)) :
    (s.phase = .idle → step s = .next { s with pending := rest, done := false, pt := pt }) ∧
    (s.phase = .dispatch →
      step s = .next { s with pending := rest, done := false, flags := raiseIn .eBadState s.flags }) := by
  refine ⟨fun hidle => ?idle, fun hdispatch => ?dispatch⟩
  case idle =>
    rw [hstep (.inl hidle), ptWrite_idle (s := takeAccess rest s) hn hidle]
    rfl
  case dispatch =>
    rw [hstep (.inr hdispatch), ptWrite_dispatch (s := takeAccess rest s) hn hdispatch]
    rfl

/-- Settles O53: the write reaches the element, and the array read after a write gives every element of the new train. -/
theorem pulseTrainWrite : Obligations.PulseTrainWrite := by
  intro s n j v rest hc hpulse hgap hn hj
  refine ⟨fun hp => ?pulse, fun hp => ?gap⟩
  case pulse =>
    obtain ⟨hidle, hdispatch⟩ := ptWrite_step_cases hn fun hs => step_writePulse hs hc hn hj hp
    exact ⟨fun h => ⟨_, hidle h, fun k => Memory.read_write hpulse n k v⟩, hdispatch⟩
  case gap =>
    obtain ⟨hidle, hdispatch⟩ := ptWrite_step_cases hn fun hs => step_writeGap hs hc hn hj hp
    exact ⟨fun h => ⟨_, hidle h, fun k => Memory.read_write hgap n k v⟩, hdispatch⟩

end Sys2Proof.Machine
end

section
/-! DM_SINKRET and the configuration registers (R82, R194, R322): every part of a resumed run commutes with replacing them. -/

namespace Sys2Proof.Machine

/-- The registers that configure a run: the ModulationSpec and the header of the train (R30 to R34). -/
structure Configuration where
  spec       : ModSpec
  numPulses  : Word
  sampleRate : Word
  fskF2Est   : Word

/-- The block with other values in the configuration registers. -/
def State.withConfig (w : Configuration) (s : State) : State :=
  { s with
    spec := w.spec
    pt := { s.pt with numPulses := w.numPulses, sampleRate := w.sampleRate, fskF2Est := w.fskF2Est } }

variable (w : Configuration) (s : State)

/-! ### What a run reads -/

@[simp] theorem withConfig_cfg : (s.withConfig w).cfg = s.cfg := rfl
@[simp] theorem withConfig_bb0 : (s.withConfig w).bb0 = s.bb0 := rfl
@[simp] theorem withConfig_arg0 : (s.withConfig w).arg0 = s.arg0 := rfl
@[simp] theorem withConfig_phase : (s.withConfig w).phase = s.phase := rfl
@[simp] theorem withConfig_cursor : (s.withConfig w).cursor = s.cursor := rfl
@[simp] theorem withConfig_origin : (s.withConfig w).origin = s.origin := rfl
@[simp] theorem withConfig_lat : (s.withConfig w).lat = s.lat := rfl
@[simp] theorem withConfig_sinkStatus : (s.withConfig w).sinkStatus = s.sinkStatus := rfl
@[simp] theorem withConfig_pulse (n : Nat) : (s.withConfig w).pt.p n = s.pt.p n := rfl
@[simp] theorem withConfig_gap (n : Nat) : (s.withConfig w).pt.g n = s.pt.g n := rfl

/-! ### Operations that a run is made of -/

theorem setPhase_withConfig (p : Phase) : (s.withConfig w).setPhase p = (s.setPhase p).withConfig w := rfl
theorem setDone_withConfig (d : Bool) : (s.withConfig w).setDone d = (s.setDone d).withConfig w := rfl
theorem refuse_withConfig (f : Flag) : (s.withConfig w).refuse f = (s.refuse f).withConfig w := rfl
theorem advance_withConfig : advance (s.withConfig w) = (advance s).withConfig w := rfl
theorem resume_withConfig : resume (s.withConfig w) = (resume s).withConfig w := rfl
theorem endRun_withConfig : endRun (s.withConfig w) = (endRun s).withConfig w := rfl
theorem dispatch_withConfig (o : Origin) : dispatch o (s.withConfig w) = (dispatch o s).withConfig w := rfl
theorem raiseFatal_withConfig (v : Word) : raiseFatal v (s.withConfig w) = (raiseFatal v s).withConfig w := rfl

theorem aggregate_withConfig (st : Int) : aggregate st (s.withConfig w) = (aggregate st s).withConfig w := by
  unfold aggregate
  split <;> rfl

/-! ### One symbol -/

/-! The conditions of SYMBOL read latches only, so they are the same on both sides; a branch changes `bb[0]` and FLAGS by what
it reads from these two and the parameters, so with `withConfig` moved into the branches the two sides are the same term. -/

/-- SYMBOL of PCM works from the latches, `bb[0]` and FLAGS (R240). -/
theorem pcmSymbol_withConfig (p g : Nat) : pcmSymbol p g (s.withConfig w) = (pcmSymbol p g s).withConfig w := by
  unfold pcmSymbol
  simp only [apply_ite (State.withConfig w)]
  rfl

/-- SYMBOL of PPM works from the latches, `bb[0]` and FLAGS (R255). -/
theorem ppmSymbol_withConfig (g : Nat) : ppmSymbol g (s.withConfig w) = (ppmSymbol g s).withConfig w := by
  unfold ppmSymbol
  simp only [apply_ite (State.withConfig w)]
  rfl

theorem pwmPulse_withConfig (p : Nat) : pwmPulse p (s.withConfig w) = (pwmPulse p s).withConfig w := by
  unfold pwmPulse
  simp only [apply_ite (State.withConfig w)]
  rfl

/-- SYMBOL of PWM works from the latches, `bb[0]` and FLAGS (R270). -/
theorem pwmSymbol_withConfig (p g : Nat) (last : Bool) :
    pwmSymbol p g last (s.withConfig w) = (pwmSymbol p g last s).withConfig w := by
  unfold pwmSymbol
  simp only [pwmPulse_withConfig, apply_ite (State.withConfig w)]
  rfl

theorem symbol_withConfig (p g : Nat) (last : Bool) :
    symbol p g last (s.withConfig w) = (symbol p g last s).withConfig w := by
  unfold symbol
  rw [withConfig_lat]
  cases s.lat.kind with
  | pcm => exact pcmSymbol_withConfig w s p g
  | ppm => exact ppmSymbol_withConfig w s g
  | pwm => exact pwmSymbol_withConfig w s p g last

/-- The symbol is the one CURSOR names in the train, whose arrays are no configuration (R205). -/
theorem symbolStep_withConfig : symbolStep (s.withConfig w) = (symbolStep s).withConfig w := by
  simp only [symbolStep, withConfig_cursor, withConfig_pulse, withConfig_gap, withConfig_lat, setPhase_withConfig,
    symbol_withConfig]

theorem messageEnds_withConfig : messageEnds (s.withConfig w) = messageEnds s := rfl

/-! ### The loop and DM_SINKRET -/

theorem runLoop_withConfig (fuel : Nat) : runLoop fuel (s.withConfig w) = (runLoop fuel s).withConfig w := by
  induction fuel generalizing s with
  | zero => exact endRun_withConfig w s
  | succ fuel ih =>
    simp only [runLoop, withConfig_cursor, withConfig_lat, messageEnds_withConfig, symbolStep_withConfig, withConfig_bb0,
      dispatch_withConfig, resume_withConfig, advance_withConfig, endRun_withConfig, ih, apply_ite (State.withConfig w)]

theorem runFrom_withConfig : runFrom (s.withConfig w) = (runFrom s).withConfig w :=
  runLoop_withConfig w s _

theorem sinkReturn_withConfig : sinkReturn (s.withConfig w) = (sinkReturn s).withConfig w := by
  simp only [sinkReturn, withConfig_sinkStatus, withConfig_origin, aggregate_withConfig]
  cases s.origin with
  | string => rfl
  | run => exact (congrArg runFrom (resume_withConfig w _)).trans (runFrom_withConfig w _)

variable {w s}

/-- A command whose effect commutes with replacing the configuration commutes with it as a whole: STATE alone decides on its
admission (R293), and a refusal raises a flag (R292). -/
theorem command_withConfig {cls : CommandClass} {ok : Bool} {effect : State → State} {t : State}
    (heffect : effect (s.withConfig w) = (effect s).withConfig w) (ht : command cls ok effect s = .next t) :
    command cls ok effect (s.withConfig w) = .next (t.withConfig w) := by
  rcases command_cases cls ok effect s with ⟨hv, rfl, e⟩ | ⟨hv, rfl, e⟩ | ⟨hv, e⟩ | ⟨hv, e⟩ <;>
    obtain rfl := Host.Outcome.next.inj (e.symm.trans ht)
  · rw [command_executes (s := s.withConfig w) hv rfl, heffect]
  · rw [command_operand_refused (s := s.withConfig w) hv, refuse_withConfig]
  · rw [command_badState (s := s.withConfig w) hv, refuse_withConfig]
  · unfold command
    rcases hv with hv | hv <;> rw [withConfig_phase, hv]

/-- Settles O51: both ends of DM_SINKRET, the fatal stop and the legal return, commute with replacing the configuration. -/
theorem configurationIsLatched : Obligations.ConfigurationIsLatched := by
  intro s t sp n rate fsk other ht
  rw [exec_dmSinkRet] at ht ⊢
  refine command_withConfig (w := ⟨sp, n, rate, fsk⟩) ?_ ht
  simp only [setDone_withConfig, withConfig_sinkStatus, withConfig_cfg, withConfig_arg0, raiseFatal_withConfig,
    sinkReturn_withConfig, apply_ite (State.withConfig _)]

end Sys2Proof.Machine
end

section
/-! Decoding and encoding (R91 to R95). A row of R95 keeps, outside its mask, just the columns its command uses: a word decodes by
the one row it matches, and the encoding of the command puts the columns back. -/

namespace Sys2Proof

/-! ### The rows of R95 -/

/-- The first row with the opcode of a row of R95 is that row: no two rows share an opcode. -/
theorem find?_opc_of_mem {r : OpcodeRow} (hr : r ∈ opcodeTable) : opcodeTable.find? (fun q => q.opc == r.opc) = some r := by
  have hrows : ∀ r ∈ opcodeTable, opcodeTable.find? (fun q => q.opc == r.opc) = some r := by
    simp only [opcodeTable, List.forall_mem_cons]
    exact ⟨rfl, rfl, rfl, rfl, rfl, rfl, rfl, rfl, rfl, rfl, rfl, rfl, rfl, rfl, rfl, rfl, rfl, rfl, nofun⟩
  exact hrows r hr

/-- A mask of eight ones keeps a column of eight bits. -/
theorem and_byteMask (x : BitVec 8) : x &&& 0xFF = x := BitVec.and_allOnes

/-- Every mask of R95 covers the column OPC, and every match holds its row's opcode there. -/
theorem opcColumn_of_mem : ∀ r ∈ opcodeTable, r.mask.extractLsb' 24 8 = 0xFF ∧ r.pattern.extractLsb' 24 8 = r.opc := by decide

/-- A word that matches a row carries the row's opcode. -/
theorem opc_of_matches {w : Word} {r : OpcodeRow} (hr : r ∈ opcodeTable) (hm : w &&& r.mask = r.pattern) :
    (fieldsOf w).opc = r.opc := by
  obtain ⟨hmask, hpattern⟩ := opcColumn_of_mem r hr
  calc w.extractLsb' 24 8 = w.extractLsb' 24 8 &&& r.mask.extractLsb' 24 8 := by rw [hmask, and_byteMask]
    _ = r.pattern.extractLsb' 24 8 := by rw [← BitVec.extractLsb'_and, hm]
    _ = r.opc := hpattern

/-- A word decodes exactly by a row of R95 that it matches, to the command the row makes of its columns (R93). -/
theorem decode_eq_ok_iff {w : Word} {i : Instr} :
    decode w = .ok i ↔ ∃ r ∈ opcodeTable, w &&& r.mask = r.pattern ∧ r.make (fieldsOf w) = i := by
  constructor
  · intro h
    unfold decode at h
    split at h
    next => cases h
    next r hfind =>
      split at h
      next hm => exact ⟨r, List.mem_of_find?_eq_some hfind, hm, Except.ok.inj h⟩
      next => cases h
  · rintro ⟨r, hr, hm, rfl⟩
    unfold decode
    rw [opc_of_matches hr hm, find?_opc_of_mem hr]
    exact if_pos hm

/-- The opcodes of R95 as numbers. -/
def listedOpcodes : List Nat := opcodeTable.map (fun r => r.opc.toNat)

/-- The opcodes of R95 are 18 distinct bytes, so 238 of the 256 opcode values stand in no row. -/
theorem unlisted_opcodes_length :
    ((List.range 256).filter (fun o => opcodeTable.all (fun r => r.opc.toNat != o))).length = 238 := by
  have hset : ((List.range 256).filter (fun o => opcodeTable.all (fun r => r.opc.toNat != o))).toFinset =
      Finset.range 256 \ listedOpcodes.toFinset := by
    ext o
    simp [listedOpcodes]
  have hdistinct : listedOpcodes.toFinset.card = 18 := by decide
  have hbytes : listedOpcodes.toFinset ⊆ Finset.range 256 := by
    intro o ho
    obtain ⟨r, -, rfl⟩ := List.mem_map.mp (List.mem_toFinset.mp ho)
    exact Finset.mem_range.mpr r.opc.isLt
  rw [← List.toFinset_card_of_nodup (List.nodup_range.filter _), hset, Finset.card_sdiff_of_subset hbytes, hdistinct,
    Finset.card_range]

/-- Settles O3: decoding succeeds by a matching row, so it fails when there is none. -/
theorem reservedIffNoRow : Obligations.ReservedIffNoRow := by
  refine ⟨fun w => ⟨?_, fun h => ?_⟩, unlisted_opcodes_length⟩
  · rintro ⟨e, he⟩ r hr hm
    cases he.symm.trans (decode_eq_ok_iff.mpr ⟨r, hr, hm, rfl⟩)
  · cases hd : decode w with
    | error e => exact ⟨e, rfl⟩
    | ok i =>
      obtain ⟨r, hr, hm, -⟩ := decode_eq_ok_iff.mp hd
      exact absurd hm (h r hr)

/-! ### From the word to the command and back -/

theorem fieldsOf_a_lt (w : Word) : (fieldsOf w).a < 256 := (w.extractLsb' 16 8).isLt
theorem fieldsOf_b_lt (w : Word) : (fieldsOf w).b < 256 := (w.extractLsb' 8 8).isLt

/-- The row operands of a decoded command come from columns of 8 bits (R91). -/
theorem wellFormed_make (w : Word) : ∀ r ∈ opcodeTable, WellFormed (r.make (fieldsOf w)) = true := by
  simp [opcodeTable, WellFormed, fieldsOf_a_lt, fieldsOf_b_lt]

/-- Packing the columns of a word under a mask gives the opcode and the word's bits under that mask. -/
theorem packWord_columns (w : Word) (opc ma mb : BitVec 8) (mbuf mbit : Bool) :
    packWord opc (w.extractLsb' 16 8 &&& ma) (w.extractLsb' 8 8 &&& mb) (w.getLsbD 1 && mbuf) (w.getLsbD 0 && mbit) =
      packWord opc 0 0 false false ||| (w &&& packWord 0 ma mb mbuf mbit) := by
  apply BitVec.eq_of_getLsbD_eq
  intro i hi
  simp only [BitVec.getLsbD_or, BitVec.getLsbD_and, packWord_getLsbD, BitVec.getLsbD_extractLsb']
  split_ifs with h0 h1 h8 h16 h24
  · simp [h0]
  · simp [h1]
  · simp
  · have hcol : 8 + (i - 8) = i := by omega
    simp [hcol, show i - 8 < 8 by omega]
  · have hcol : 16 + (i - 16) = i := by omega
    simp [hcol, show i - 16 < 8 by omega]
  · simp

/-- Where a row's mask leaves the columns A, B, BUF and BIT free as `ma`, `mb`, `mbuf` and `mbit` say, packing what is free of
them behind the row's opcode gives the row's match with the word's unmasked bits. -/
theorem packWord_unmasked {w : Word} {opc ma mb : BitVec 8} {mbuf mbit : Bool} {pattern mask : Word}
    (hp : packWord opc 0 0 false false = pattern) (hm : packWord 0 ma mb mbuf mbit = ~~~mask) :
    packWord opc (w.extractLsb' 16 8 &&& ma) (w.extractLsb' 8 8 &&& mb) (w.getLsbD 1 && mbuf) (w.getLsbD 0 && mbit) =
      pattern ||| (w &&& ~~~mask) := by
  rw [packWord_columns, hp, hm]

/-- A command with a buffer operand takes the column BUF. -/
theorem packBuf_fieldsOf (w : Word) {opc : BitVec 8} {pattern : Word} (hp : packWord opc 0 0 false false = pattern) :
    packBuf opc (fieldsOf w).buf = pattern ||| (w &&& ~~~0xFFFFFFFD) := by
  rw [← packWord_unmasked (ma := 0) (mb := 0) (mbuf := true) (mbit := false) hp rfl]
  simp [packBuf, fieldsOf]

/-- A command with a buffer and a row operand takes the columns A and BUF. -/
theorem packRow_fieldsOf (w : Word) {opc : BitVec 8} {pattern : Word} (hp : packWord opc 0 0 false false = pattern) :
    packRow opc (fieldsOf w).buf (fieldsOf w).a = pattern ||| (w &&& ~~~0xFF00FFFD) := by
  rw [← packWord_unmasked (ma := 0xFF) (mb := 0) (mbuf := true) (mbit := false) hp rfl, and_byteMask]
  simp only [packRow, fieldsOf, BitVec.ofNat_toNat, BitVec.setWidth_eq, bitOfBuf_bufOfBit, Bool.and_true, Bool.and_false,
    BitVec.ofNat_eq_ofNat, BitVec.and_zero]

/-- A command without operands takes no column. -/
theorem packWord_noOperand (w : Word) {opc : BitVec 8} {pattern : Word} (hp : packWord opc 0 0 false false = pattern) :
    packWord opc 0 0 false false = pattern ||| (w &&& ~~~0xFFFFFFFF) := by
  rw [← packWord_unmasked (ma := 0) (mb := 0) (mbuf := false) (mbit := false) hp rfl]
  simp

/-- BB_ADDBIT takes the columns BUF and BIT. -/
theorem encode_bbAddBit_fieldsOf (w : Word) :
    encode (.bbAddBit (fieldsOf w).buf (fieldsOf w).bit) = 0x02000000 ||| (w &&& ~~~0xFFFFFFFC) := by
  refine Eq.trans ?_ (packWord_unmasked (opc := 0x02) (ma := 0) (mb := 0) (mbuf := true) (mbit := true) rfl rfl)
  simp [encode, fieldsOf]

/-- BB_CMPROWS takes the columns A, B and BUF. -/
theorem encode_bbCmpRows_fieldsOf (w : Word) :
    encode (.bbCmpRows (fieldsOf w).buf (fieldsOf w).a (fieldsOf w).b) = 0x15000000 ||| (w &&& ~~~0xFF0000FD) := by
  refine Eq.trans ?_ (packWord_unmasked (opc := 0x15) (ma := 0xFF) (mb := 0xFF) (mbuf := true) (mbit := false) rfl rfl)
  simp only [encode, fieldsOf, BitVec.ofNat_toNat, BitVec.setWidth_eq, bitOfBuf_bufOfBit, and_byteMask, Bool.and_true,
    Bool.and_false]

/-- The command a row makes of a word encodes to the row's match with the word's bits outside the mask. -/
theorem encode_make (w : Word) : ∀ r ∈ opcodeTable, encode (r.make (fieldsOf w)) = r.pattern ||| (w &&& ~~~r.mask) := by
  simp only [opcodeTable, List.forall_mem_cons]
  exact ⟨packBuf_fieldsOf w rfl, encode_bbAddBit_fieldsOf w, packBuf_fieldsOf w rfl, packBuf_fieldsOf w rfl,
    packBuf_fieldsOf w rfl, packBuf_fieldsOf w rfl, packBuf_fieldsOf w rfl, packRow_fieldsOf w rfl, packRow_fieldsOf w rfl,
    encode_bbCmpRows_fieldsOf w, packRow_fieldsOf w rfl, packBuf_fieldsOf w rfl, packBuf_fieldsOf w rfl,
    packRow_fieldsOf w rfl, packRow_fieldsOf w rfl, packWord_noOperand w rfl, packWord_noOperand w rfl,
    packWord_noOperand w rfl, nofun⟩

/-- Settles O2: the match and the bits outside the mask make up the whole word. -/
theorem encodeDecode : Obligations.EncodeDecode := by
  intro w i h
  obtain ⟨r, hr, hm, rfl⟩ := decode_eq_ok_iff.mp h
  refine ⟨wellFormed_make w r hr, ?_⟩
  calc encode (r.make (fieldsOf w)) = (w &&& r.mask) ||| (w &&& ~~~r.mask) := by rw [hm, encode_make w r hr]
    _ = w := by rw [← BitVec.and_or_distrib_left, BitVec.or_not_self, BitVec.and_allOnes]

/-! ### From the command to the word and back -/

/-- The word of every command matches the row of its mnemonic. -/
theorem encode_matches_row (i : Instr) : Laws.Encoding.Statement i := by
  cases i with
  | bbClear b => exact Laws.Encoding.bbClear b
  | bbAddBit b v => exact Laws.Encoding.bbAddBit b v
  | bbAddRow b => exact Laws.Encoding.bbAddRow b
  | bbAddSync b => exact Laws.Encoding.bbAddSync b
  | bbInvert b => exact Laws.Encoding.bbInvert b
  | bbNrzs b => exact Laws.Encoding.bbNrzs b
  | bbNrzm b => exact Laws.Encoding.bbNrzm b
  | bbExtract b row => exact Laws.Encoding.bbExtract b row
  | bbSearch b row => exact Laws.Encoding.bbSearch b row
  | bbCmpRows b ra rb => exact Laws.Encoding.bbCmpRows b ra rb
  | bbCntRep b row => exact Laws.Encoding.bbCntRep b row
  | bbFindRow b => exact Laws.Encoding.bbFindRow b
  | bbFindPfx b => exact Laws.Encoding.bbFindPfx b
  | ldManch b row => exact Laws.Encoding.ldManch b row
  | ldDmanch b row => exact Laws.Encoding.ldDmanch b row
  | dmRun => exact Laws.Encoding.dmRun
  | dmSinkRet => exact Laws.Encoding.dmSinkRet
  | dmString => exact Laws.Encoding.dmString

theorem fieldsOf_packBuf (opc : BitVec 8) (b : Buf) : fieldsOf (packBuf opc b) = ⟨opc, 0, 0, b, false⟩ :=
  fieldsOf_packWord opc 0 0 b false

/-- A row operand that fits its column comes back as it was (R92). -/
theorem fieldsOf_packRow (opc : BitVec 8) (b : Buf) {row : Nat} (h : row < 256) :
    fieldsOf (packRow opc b row) = ⟨opc, row, 0, b, false⟩ := by
  rw [packRow, fieldsOf_packWord, BitVec.toNat_ofNat, Nat.mod_eq_of_lt h]
  rfl

/-- The row of a command's mnemonic makes that command of the columns of its word. -/
theorem make_fieldsOf_encode {i : Instr} {r : OpcodeRow} (hwf : WellFormed i = true)
    (hr : Laws.Encoding.rowNamed (Laws.Encoding.mnemonicOf i) = some r) : r.make (fieldsOf (encode i)) = i := by
  cases i <;> obtain rfl := Option.some.inj (hr.symm.trans rfl)
  case bbAddBit b v => rw [encode, fieldsOf_packWord]
  case bbCmpRows b ra rb =>
    obtain ⟨ha, hb⟩ : ra < 256 ∧ rb < 256 := by simpa [WellFormed] using hwf
    rw [encode, fieldsOf_packWord, BitVec.toNat_ofNat, BitVec.toNat_ofNat, Nat.mod_eq_of_lt ha, Nat.mod_eq_of_lt hb]
  case dmRun | dmSinkRet | dmString => rfl
  case bbExtract b row | bbSearch b row | bbCntRep b row | ldManch b row | ldDmanch b row =>
    rw [encode, fieldsOf_packRow _ b (of_decide_eq_true hwf)]
  all_goals rw [encode, fieldsOf_packBuf]

/-- Settles O1: the word of a command matches the row of its mnemonic, which makes the command again. -/
theorem decodeEncode : Obligations.DecodeEncode := by
  intro i hwf
  obtain ⟨r, hr, hm⟩ := encode_matches_row i
  exact decode_eq_ok_iff.mpr ⟨r, List.mem_of_find?_eq_some hr, hm, make_fieldsOf_encode hwf hr⟩

/-- Settles O4: six words are encodings of commands, a word with opcode 0 has no row, and two words miss their row's match. -/
theorem decodeSamples : Obligations.DecodeSamples :=
  ⟨decodeEncode (.bbAddBit .b0 true) rfl, decodeEncode (.bbAddRow .b1) rfl, decodeEncode (.bbCmpRows .b0 2 5) rfl,
    decodeEncode (.ldManch .b0 3) rfl, decodeEncode .dmRun rfl, decodeEncode .dmSinkRet rfl, rfl, rfl, rfl⟩

end Sys2Proof
end

section
/-! A command word at the command port (R90): a word that decodes is executed in the step that accepts it. -/

namespace Sys2Proof.Machine

/-- A command word that decodes runs its command (R90). -/
theorem issue_of_decode {w : Word} {i : Instr} (h : decode w = .ok i) (s : State) : issue w s = exec i s := by
  rw [issue, h]

/-- Settles O5: the bus at rest hands a word written to CMD to the decoder in the same step. -/
theorem stepRunsCommand : Obligations.StepRunsCommand := by
  intro s a w rest i hrest hp ha hi
  rw [step_command hrest hp ha, issue_of_decode hi]
  rfl

end Sys2Proof.Machine
end

section
/-! The core BitBuffer commands (R120 to R125): what ADD_BIT, ADD_ROW and the counting of a sync leave, field by field, and the
four commands in these terms. -/

namespace Sys2Proof.Machine

variable {c : Params} {s : State} {x : BitBuffer}

/-! ### A row operation on a buffer of the block (R13, R14), and its command in IDLE and DISPATCH (R293) -/

/-- A row operation that raises no flag replaces the buffer. -/
theorem onBuffer_eq_setBb {b : Buf} {f : Logged → Logged} {y : BitBuffer} (h : f (s.bb b, s.flags) = (y, s.flags)) :
    s.onBuffer b f = s.setBb b y := by
  rw [State.onBuffer, h]
  cases b <;> rfl

/-- A row operation that raises a flag replaces the buffer and sets that bit. -/
theorem onBuffer_eq_raise {b : Buf} {f : Logged → Logged} {y : BitBuffer} {w : Flag}
    (h : f (s.bb b, s.flags) = (y, raiseIn w s.flags)) : s.onBuffer b f = (s.setBb b y).raise w := by
  rw [State.onBuffer, h, State.raise, State.setBb_flags]

theorem exec_bbAddBit_accepted (hs : s.AcceptsBuffer) (b : Buf) (v : Bool) :
    exec (.bbAddBit b v) s = .next (s.onBuffer b (Logged.addBit s.cfg v)) := by
  rw [exec_bbAddBit, buffer_command hs rfl]

theorem exec_bbAddRow_accepted (hs : s.AcceptsBuffer) (b : Buf) :
    exec (.bbAddRow b) s = .next (s.onBuffer b (Logged.addRow s.cfg)) := by
  rw [exec_bbAddRow, buffer_command hs rfl]

theorem exec_bbAddSync_accepted (hs : s.AcceptsBuffer) (b : Buf) :
    exec (.bbAddSync b) s = .next (s.onBuffer b (Logged.addSync s.cfg)) := by
  rw [exec_bbAddSync, buffer_command hs rfl]

/-! ### CLEAR (R120) -/

/-- Settles O11: BB_CLEAR stores the empty buffer, which is the reset value. -/
theorem clearZeroes : Obligations.ClearZeroes := by
  intro s b hs
  refine ⟨BitBuffer.empty, ?_, fun _ => rfl, fun _ => rfl, fun _ => rfl, rfl, rfl, by cases b <;> rfl⟩
  rw [exec_bbClear, buffer_command hs rfl]

/-! ### ADD_BIT (R121) -/

theorem startsSlot_iff : x.startsSlot c = true ↔ 0 < x.len x.cur ∧ x.len x.cur % (8 * c.cols) = 0 := by
  rw [BitBuffer.startsSlot, Bool.and_eq_true, decide_eq_true_eq, decide_eq_true_eq, Params.slotBits]

theorem dropsBit_iff : x.dropsBit c = true ↔ 0 < x.autocreate.len x.autocreate.cur ∧
    x.autocreate.len x.autocreate.cur % (8 * c.cols) = 0 ∧ x.autocreate.freeRow = c.rows := by
  rw [BitBuffer.dropsBit, Bool.and_eq_true, startsSlot_iff, decide_eq_true_eq, and_assoc]

/-- Without a slot for the bit, AUTOCREATE stands and W_BIT_DROPPED is set. -/
theorem Logged.addBit_dropped {p : Logged} (h : p.1.dropsBit c = true) (v : Bool) :
    p.addBit c v = (p.1.autocreate, raiseIn .wBitDropped p.2) := by
  rw [Logged.addBit, (addBit_of_drops h v).1, h, raiseIf_true]

/-- With a slot for the bit, it is appended and no flag is raised. -/
theorem Logged.addBit_appended {p : Logged} (h : ¬ p.1.dropsBit c = true) (v : Bool) :
    p.addBit c v = (p.1.autocreate.appendBit c v, p.2) := by
  rw [Logged.addBit, BitBuffer.addBit, if_neg h, raiseIf, if_neg h]

theorem appendBit_numRows (v : Bool) : (x.appendBit c v).numRows = x.numRows := by
  simp only [BitBuffer.appendBit]; split <;> rfl

theorem appendBit_freeRow (v : Bool) :
    (x.appendBit c v).freeRow = if x.startsSlot c = true then x.freeRow + 1 else x.freeRow := by
  simp only [BitBuffer.appendBit]; split <;> rfl

theorem appendBit_syncs (v : Bool) : (x.appendBit c v).syncsBeforeRow = x.syncsBeforeRow := by
  simp only [BitBuffer.appendBit]; split <;> rfl

theorem appendBit_mem (v : Bool) : (x.appendBit c v).mem = (x.setbit c x.cur (x.len x.cur) v).mem := by
  simp only [BitBuffer.appendBit]; split <;> rfl

theorem appendBit_len (hx : x.Canonical) (v : Bool) (r : Nat) :
    (x.appendBit c v).len r = if r = x.cur then x.len x.cur + 1 else x.len r := by
  obtain ⟨-, hbits, -⟩ := hx
  simp only [BitBuffer.appendBit, BitBuffer.len]
  split <;> exact Memory.read_write hbits _ _ _

/-- The current row reads the appended bit at its old end, and as before below it (R63, R64). -/
theorem appendBit_bit (hx : x.Canonical) (v : Bool) {i : Nat} (hi : i < x.len x.cur + 1) :
    (x.appendBit c v).bit c x.cur i = if i = x.len x.cur then v else x.bit c x.cur i := by
  have hmem : x.mem.wf := hx.1
  have hplace : x.cur * c.cols + i / 8 = bitAddr c x.cur (x.len x.cur) ∧ 7 - i % 8 = 7 - x.len x.cur % 8 ↔
      i = x.len x.cur := by
    simp only [bitAddr]
    omega
  rw [BitBuffer.bit, appendBit_len hx, if_pos rfl, decide_eq_true hi, Bool.true_and, packedBit, appendBit_mem,
    setbit_storage hmem _ _ _ (by omega), if_congr hplace rfl rfl]
  by_cases hend : i = x.len x.cur
  · rw [if_pos hend, if_pos hend]
  · have hlt : i < x.len x.cur := by omega
    rw [if_neg hend, if_neg hend, BitBuffer.bit, decide_eq_true hlt, Bool.true_and, packedBit]

theorem autocreate_canonical (hx : x.Canonical) : x.autocreate.Canonical := by
  rw [BitBuffer.Canonical, autocreate_mem, autocreate_bits, autocreate_syncs]
  exact hx

/-- Settles O12: the two outcomes of ADD_BIT, the appended buffer field by field. -/
theorem addBitAppends : Obligations.AddBitAppends := by
  intro s b v hs hb c x nb
  have hx : x.Canonical := autocreate_canonical hb
  refine ⟨fun hdrop => ?_, fun hroom => ⟨x.appendBit c v, ?_, appendBit_numRows v, ?_, appendBit_len hx v, fun r => ?_,
    fun k hk => ?_, fun a ha => ?_⟩⟩
  · rw [exec_bbAddBit_accepted hs]
    exact congrArg _ (onBuffer_eq_raise (Logged.addBit_dropped (dropsBit_iff.2 hdrop) v))
  · rw [exec_bbAddBit_accepted hs]
    exact congrArg _ (onBuffer_eq_setBb (Logged.addBit_appended (mt dropsBit_iff.1 hroom) v))
  · rw [appendBit_freeRow, if_congr startsSlot_iff rfl rfl]
  · rw [appendBit_syncs]
  · rw [appendBit_mem, setbit_storage hx.1 _ _ _ hk]
    exact if_congr (and_iff_right rfl) rfl rfl
  · rw [appendBit_mem]
    exact setbit_other_byte _ _ _ ha

/-! ### ADD_BIT of a list on an empty buffer (R131) -/

theorem autocreate_bit (r i : Nat) : x.autocreate.bit c r i = x.bit c r i := by
  rw [BitBuffer.bit, BitBuffer.bit, autocreate_len, autocreate_mem]

theorem autocreate_numRows_of_le_one (h : x.numRows ≤ 1) : x.autocreate.numRows = 1 := by
  simp only [BitBuffer.autocreate]
  split
  · rfl
  · omega

/-- A row that fills `k` slots takes those, but at least one (R26 I2). -/
theorem extent_of_full_slots (hc : c.Legal) {r k : Nat} (h : x.len r = k * c.slotBits) : x.extent c r = max 1 k := by
  have hpos := slotBits_pos hc
  rw [BitBuffer.extent, h, Nat.add_sub_assoc (by omega), Nat.mul_comm, Nat.mul_add_div hpos,
    Nat.div_eq_of_lt (by omega), Nat.add_zero]

/-- In the first row, ADD_BIT drops a bit exactly if the row fills the whole storage (R131 (e)). -/
theorem dropsBit_firstRow_iff (hc : c.Legal) (h : x.Good c) (hn : x.numRows ≤ 1) :
    x.dropsBit c = true ↔ x.len 0 = c.rows * c.slotBits := by
  have hnum := autocreate_numRows_of_le_one hn
  have hcur : x.autocreate.cur = 0 := by rw [BitBuffer.cur, hnum]
  have hfree : x.autocreate.freeRow = x.autocreate.extent c 0 := by
    rw [(autocreate_good hc h).free autocreate_numRows_pos, hcur, Nat.zero_add]
  have hrows : 1 ≤ c.rows := hc.1
  rw [dropsBit_iff, hcur, hfree, autocreate_len]
  constructor
  · rintro ⟨hpos, hmod, hfull⟩
    obtain ⟨k, hk⟩ := Nat.dvd_of_mod_eq_zero hmod
    rw [Nat.mul_comm] at hk
    rw [extent_of_full_slots hc ((autocreate_len 0).trans hk)] at hfull
    have hk0 : k ≠ 0 := by rintro rfl; omega
    rw [hk, ← hfull, max_eq_right (by omega)]
    rfl
  · intro hfull
    refine ⟨?_, ?_, ?_⟩
    · rw [hfull]; exact Nat.mul_pos hrows (slotBits_pos hc)
    · rw [hfull]; exact Nat.mul_mod_left _ _
    · rw [extent_of_full_slots hc ((autocreate_len 0).trans hfull), max_eq_right hrows]

/-- Row 0, the only one, holds `bits` up to the capacity of the storage, and W_BIT_DROPPED is added to `v` if some are lost. -/
structure Logged.FirstRowHolds (c : Params) (v : Word) (bits : List Bool) (p : Logged) : Prop where
  good    : p.1.Good c
  len     : p.1.len 0 = min bits.length (c.rows * c.slotBits)
  bit     : ∀ i, i < p.1.len 0 → p.1.bit c 0 i = bits.getD i false
  numRows : p.1.numRows = if bits = [] then 0 else 1
  flags   : p.2 = if c.rows * c.slotBits < bits.length then raiseIn .wBitDropped v else v

theorem firstRowHolds_nil (v : Word) : Logged.FirstRowHolds c v [] (BitBuffer.empty, v) where
  good := empty_good
  len := by simp [BitBuffer.len, BitBuffer.empty]
  bit := fun i hi => absurd hi (Nat.not_lt_zero i)
  numRows := rfl
  flags := by simp

/-- One more ADD_BIT holds one more bit, or loses it once the storage is full (R131 (a), (d), (e)). -/
theorem Logged.FirstRowHolds.addBit (hc : c.Legal) {v : Word} {bits : List Bool} {p : Logged} (h : p.FirstRowHolds c v bits)
    (b : Bool) : (p.addBit c b).FirstRowHolds c v (bits ++ [b]) := by
  have hle : p.1.numRows ≤ 1 := by rw [h.numRows]; split <;> omega
  have hnum := autocreate_numRows_of_le_one hle
  have hlen := h.len
  have hgood : (p.addBit c b).1.Good c := addBit_good hc h.good b
  have hbits : (bits ++ [b]).length = bits.length + 1 := by simp
  by_cases hd : p.1.dropsBit c = true
  · have hfull := (dropsBit_firstRow_iff hc h.good hle).1 hd
    rw [Logged.addBit_dropped hd] at hgood ⊢
    refine ⟨hgood, ?_, fun i hi => ?_, by simp [hnum], ?_⟩
    · rw [autocreate_len]; omega
    · rw [autocreate_len] at hi
      rw [autocreate_bit, h.bit i hi, List.getD_append _ _ _ _ (by omega)]
    · have hlost : c.rows * c.slotBits < (bits ++ [b]).length := by omega
      rw [h.flags, if_pos hlost]
      split
      · exact raiseIn_idem _ _
      · rfl
  · have hroom := mt (dropsBit_firstRow_iff hc h.good hle).2 hd
    have hcur : p.1.autocreate.cur = 0 := by rw [BitBuffer.cur, hnum]
    have hx := autocreate_canonical h.good.canonical
    have hlen' : (p.1.autocreate.appendBit c b).len 0 = p.1.len 0 + 1 := by
      rw [appendBit_len hx, hcur, if_pos rfl, autocreate_len]
    rw [Logged.addBit_appended hd] at hgood ⊢
    refine ⟨hgood, by simp only [hlen']; omega, fun i hi => ?_, by simp [appendBit_numRows, hnum], ?_⟩
    · have hbit := appendBit_bit (c := c) hx b (i := i)
      rw [hcur, autocreate_len] at hbit
      simp only [hlen'] at hi
      rw [hbit hi, autocreate_bit]
      split
      next hend => rw [hend, show p.1.len 0 = bits.length by omega]; simp
      next hne => rw [h.bit i (by omega), List.getD_append _ _ _ _ (by omega)]
    · rw [h.flags, if_neg (by omega), if_neg (by omega)]

/-- After any list of bits, row 0 of a buffer that was empty holds it. -/
theorem addAll_firstRowHolds (hc : c.Legal) (v : Word) (bits : List Bool) :
    (Logged.addAll c bits (BitBuffer.empty, v)).FirstRowHolds c v bits := by
  induction bits using List.reverseRecOn with
  | nil => exact firstRowHolds_nil v
  | append_singleton bits b ih =>
    rw [addAll_append]
    exact ih.addBit hc b

/-- Settles O13, by induction on the list from its end. -/
theorem addBitsFillRow : Obligations.AddBitsFillRow := by
  intro c bits v hc p
  have h := addAll_firstRowHolds hc v bits
  exact ⟨h.len, h.bit, h.numRows, h.flags⟩

/-! ### ADD_ROW (R123) -/

theorem rowOverflows_iff : x.rowOverflows c = true ↔ ¬ x.autocreate.freeRow < c.rows := by
  rw [BitBuffer.rowOverflows, decide_eq_true_eq, not_lt]

/-- With a free slot ADD_ROW moves the two cursors behind it and raises no flag. -/
theorem Logged.addRow_starts {p : Logged} (h : p.1.autocreate.freeRow < c.rows) : p.addRow c =
    ({ p.1.autocreate with numRows := p.1.autocreate.freeRow + 1, freeRow := p.1.autocreate.freeRow + 1 }, p.2) := by
  have hroom : ¬ p.1.rowOverflows c = true := fun hov => rowOverflows_iff.1 hov h
  rw [Logged.addRow, BitBuffer.addRow, if_neg hroom, raiseIf, if_neg hroom]

/-- Without a free slot ADD_ROW raises W_ROW_OVERFLOW. -/
theorem Logged.addRow_overflows {p : Logged} (h : ¬ p.1.autocreate.freeRow < c.rows) :
    p.addRow c = (p.1.addRow c, raiseIn .wRowOverflow p.2) := by
  rw [Logged.addRow, rowOverflows_iff.2 h, raiseIf_true]

/-- `y` is `x` with the current row cleared: no bits, its slots zero and given back, and `k` syncs (R123, R125). -/
structure BitBuffer.CurrentRowCleared (c : Params) (x y : BitBuffer) (k : BitVec 16) : Prop where
  numRows : y.numRows = x.numRows
  freeRow : y.freeRow = x.cur + 1
  len     : ∀ r, y.len r = if r = x.cur then 0 else x.len r
  syncs   : ∀ r, y.syncsBeforeRow.read r = if r = x.cur then k else x.syncsBeforeRow.read r
  mem     : ∀ a, y.mem.read a = if x.cur * c.cols ≤ a ∧ a < x.freeRow * c.cols then 0 else x.mem.read a

/-- Without a free slot ADD_ROW clears the current row (R123). -/
theorem addRow_clearsCurrentRow (hx : x.autocreate.Canonical) (h : ¬ x.autocreate.freeRow < c.rows) :
    x.autocreate.CurrentRowCleared c (x.addRow c) 0 := by
  obtain ⟨-, hbits, hsyncs⟩ := hx
  rw [BitBuffer.addRow, if_pos (rowOverflows_iff.2 h)]
  exact ⟨rfl, rfl, fun r => Memory.read_write hbits _ r 0, fun r => Memory.read_write hsyncs _ r 0,
    Memory.read_zeroRange _ _ _⟩

/-- No storage bit is set from the slot at `free_row` on (R26 I2, I4, I5). -/
theorem BitBuffer.Good.read_from_freeRow (hc : c.Legal) (h : x.Good c) {a : Nat} (ha : x.freeRow * c.cols ≤ a) :
    x.mem.read a = 0 := by
  refine BitVec.eq_of_getLsbD_eq fun k hk => ?_
  refine (Bool.eq_false_iff.2 fun hset => ?_).trans BitVec.getLsbD_zero.symm
  obtain ⟨r, i, hr, hi, rfl, -⟩ := h.padding a k hk hset
  have hend : r + x.extent c r ≤ x.freeRow := by
    have hfree := h.free (by omega)
    rcases Nat.lt_or_ge r x.cur with hlt | hge
    · have := h.disjoint.2 r hlt
      omega
    · obtain rfl : r = x.cur := by simp only [BitBuffer.cur] at hge ⊢; omega
      exact hfree.ge
  have hin := bitAddr_lt_extent hc hi
  have hmul := Nat.mul_le_mul_right c.cols hend
  omega

/-- Settles O14: the two outcomes of ADD_ROW; a row it starts is empty by R26. -/
theorem addRowStartsRow : Obligations.AddRowStartsRow := by
  intro s b hs hc hb c x
  have hx : x.Good c := autocreate_good hc hb
  refine ⟨fun hfree => ?_, fun hfull => ?_⟩
  · obtain ⟨hlen, hsyncs⟩ := hx.unused x.freeRow hx.cursors.1
    refine ⟨?_, hlen, hsyncs, fun a ha => hx.read_from_freeRow hc ha⟩
    rw [exec_bbAddRow_accepted hs]
    exact congrArg _ (onBuffer_eq_setBb (Logged.addRow_starts hfree))
  · have hcleared := addRow_clearsCurrentRow hx.canonical hfull
    refine ⟨(s.bb b).addRow c, ?_, hcleared.numRows, hcleared.freeRow, hcleared.len, hcleared.syncs, hcleared.mem⟩
    rw [exec_bbAddRow_accepted hs]
    exact congrArg _ (onBuffer_eq_raise (Logged.addRow_overflows hfull))

/-! ### ADD_SYNC (R125) -/

/-- A counter at 65535 stays and W_SYNC_SAT is set. -/
theorem Logged.countSync_saturated {p : Logged} (h : p.1.syncsBeforeRow.read p.1.cur = 65535#16) :
    p.countSync = (p.1, raiseIn .wSyncSat p.2) := by
  rw [Logged.countSync, if_pos h]

/-- A counter below 65535 goes one up, and no flag is raised. -/
theorem Logged.countSync_counts {p : Logged} {n : BitVec 16} (h : p.1.syncsBeforeRow.read p.1.cur = n) (hn : n ≠ 65535#16) :
    p.countSync = ({ p.1 with syncsBeforeRow := p.1.syncsBeforeRow.write p.1.cur (n + 1) }, p.2) := by
  subst h
  rw [Logged.countSync, if_neg hn]

/-- On an empty current row ADD_SYNC only counts. -/
theorem Logged.addSync_of_empty {p : Logged} (h : p.1.autocreate.len p.1.autocreate.cur = 0) :
    p.addSync c = Logged.countSync (p.1.autocreate, p.2) := by
  have hempty : ¬ p.1.autocreate.hasContent = true := by simp [BitBuffer.hasContent, h]
  rw [Logged.addSync, if_neg hempty]

/-- On a current row with bits ADD_SYNC counts after an ADD_ROW. -/
theorem Logged.addSync_of_content {p : Logged} (h : 0 < p.1.autocreate.len p.1.autocreate.cur) :
    p.addSync c = (p.addRow c).countSync := by
  have hcontent : p.1.autocreate.hasContent = true := by simpa [BitBuffer.hasContent] using h
  rw [Logged.addSync, if_pos hcontent, Logged.addRow, addRow_autocreate, BitBuffer.rowOverflows, autocreate_autocreate]
  rfl

/-- A row just cleared that counts a sync is a cleared row with one (R125). -/
theorem BitBuffer.CurrentRowCleared.countSync {y : BitBuffer} {v : Word} (h : x.CurrentRowCleared c y 0)
    (hy : y.syncsBeforeRow.wf) :
    ∃ z, Logged.countSync (y, v) = (z, v) ∧ x.CurrentRowCleared c z 1 := by
  have hcur : y.cur = x.cur := by rw [BitBuffer.cur, h.numRows]; rfl
  have hread : y.syncsBeforeRow.read y.cur = 0 := by rw [h.syncs, if_pos hcur]
  refine ⟨_, Logged.countSync_counts (p := (y, v)) hread (by decide), h.numRows, h.freeRow, h.len, fun r => ?_, h.mem⟩
  rw [Memory.read_write hy, hcur, h.syncs]
  split
  · rfl
  · rfl

/-- Settles O15: the four cases of ADD_SYNC, by the bits of the current row and the slot or the counter it needs. -/
theorem addSyncCounts : Obligations.AddSyncCounts := by
  intro s b hs hc hb c x
  have hx : x.Good c := autocreate_good hc hb
  obtain ⟨-, -, hsyncs⟩ := hx.canonical
  rw [exec_bbAddSync_accepted hs]
  refine ⟨fun hempty hbelow => ?counts, fun hempty hsat => ?saturated, fun hbits hfree => ?newRow,
    fun hbits hfull => ?overflow⟩
  case counts =>
    refine ⟨_, congrArg _ (onBuffer_eq_setBb ?_), fun r => Memory.read_write hsyncs x.cur r _⟩
    rw [Logged.addSync_of_empty hempty, Logged.countSync_counts rfl hbelow]
  case saturated =>
    refine congrArg _ (onBuffer_eq_raise ?_)
    rw [Logged.addSync_of_empty hempty, Logged.countSync_saturated hsat]
  case newRow =>
    have hnew : x.syncsBeforeRow.read x.freeRow = 0 := (hx.unused x.freeRow hx.cursors.1).2
    refine ⟨x.syncsBeforeRow.write x.freeRow (0 + 1), congrArg _ (onBuffer_eq_setBb ?_),
      fun r => Memory.read_write hsyncs _ r _⟩
    rw [Logged.addSync_of_content hbits, Logged.addRow_starts hfree]
    exact Logged.countSync_counts hnew (by decide)
  case overflow =>
    obtain ⟨-, -, hsyncs'⟩ := (addRow_good hc hb).canonical
    obtain ⟨z, hz, hcleared⟩ :=
      (addRow_clearsCurrentRow hx.canonical hfull).countSync (v := raiseIn .wRowOverflow s.flags) hsyncs'
    refine ⟨z, congrArg _ (onBuffer_eq_raise ?_), hcleared.numRows, hcleared.freeRow, hcleared.len, hcleared.syncs,
      hcleared.mem⟩
    rw [Logged.addSync_of_content hbits, Logged.addRow_overflows hfull, hz]

end Sys2Proof.Machine
end

section
/-! The transforms BB_INVERT, BB_NRZS and BB_NRZM (R140 to R146): all three are `mapBits` on one buffer, so what they do and what
they keep is said once, for every `f`. -/

namespace Sys2Proof.Machine

variable {c : Params} {s t : State} {b : Buf} {x y : BitBuffer} {f : Bool → Bool → Bool} {i : Instr}

/-- `y` satisfies R26 and is `x` with no more than its active bits changed (R146). -/
structure BitBuffer.ActiveBitsOnly (c : Params) (x y : BitBuffer) : Prop where
  good     : y.Good c
  shape    : SameShape x y
  inactive : ∀ a k, k < 8 → ¬ x.ActiveBit c a k → (y.mem.read a).getLsbD k = (x.mem.read a).getLsbD k

theorem BitBuffer.ActiveBitsOnly.refl (h : x.Good c) : x.ActiveBitsOnly c x := ⟨h, SameShape.refl x, fun _ _ _ _ => rfl⟩

theorem BitBuffer.ActiveBitsOnly.trans {z : BitBuffer} (h : x.ActiveBitsOnly c y) (h' : y.ActiveBitsOnly c z) :
    x.ActiveBitsOnly c z where
  good := h'.good
  shape := by
    obtain ⟨hnum, hfree, hbits, hsyncs⟩ := h.shape
    obtain ⟨hnum', hfree', hbits', hsyncs'⟩ := h'.shape
    exact ⟨hnum'.trans hnum, hfree'.trans hfree, hbits'.trans hbits, hsyncs'.trans hsyncs⟩
  inactive := fun a k hk ha => (h'.inactive a k hk (mt (h.shape.activeBit a k).1 ha)).trans (h.inactive a k hk ha)

theorem mapBits_activeBitsOnly (hc : c.Legal) (h : x.Good c) (f : Bool → Bool → Bool) :
    x.ActiveBitsOnly c (x.mapBits c f) := by
  obtain ⟨hgood, hshape, -⟩ := mapBits_spec hc f h
  exact ⟨hgood, hshape, mapBits_inactive f h.canonical.1⟩

/-- A buffer of the same shape is the old one with another storage. -/
theorem SameShape.eq_withMem (h : SameShape x y) : y = { x with mem := y.mem } := by
  obtain ⟨hnum, hfree, hbits, hsyncs⟩ := h
  cases y
  cases hnum
  cases hfree
  cases hbits
  cases hsyncs
  rfl

/-- The storage bit of an active position is the row's bit (R62, R63). -/
theorem storage_eq_bit {r j : Nat} (h : j < x.len r) :
    (x.mem.read (bitAddr c r j)).getLsbD (7 - j % 8) = x.bit c r j := by
  rw [BitBuffer.bit, decide_eq_true h, Bool.true_and]
  rfl

/-- A buffer is known by its shape, its active bits and the rest of its storage. -/
theorem BitBuffer.ActiveBitsOnly.eq_of_bits (h : x.ActiveBitsOnly c y) (hx : x.Good c)
    (hbit : ∀ r j, r < x.numRows → j < x.len r → y.bit c r j = x.bit c r j) : y = x := by
  have hmem : y.mem = x.mem := by
    refine Memory.ext_of_read h.good.canonical.1 hx.canonical.1 fun a => BitVec.eq_of_getLsbD_eq fun k hk => ?_
    by_cases hactive : x.ActiveBit c a k
    · obtain ⟨r, j, hr, hj, rfl, rfl⟩ := hactive
      rw [storage_eq_bit hj, storage_eq_bit (by rwa [h.shape.len]), hbit r j hr hj]
    · exact h.inactive a k hk hactive
  rw [h.shape.eq_withMem, hmem]

/-! ### The commands -/

/-- Command `i` is the transform `f` of buffer `b`. -/
def IsTransform (i : Instr) (b : Buf) (f : Bool → Bool → Bool) : Prop :=
  ∀ s, exec i s = command .buffer true (fun t => t.setBb b ((t.bb b).mapBits t.cfg f)) s

theorem bbInvert_isTransform (b : Buf) : IsTransform (.bbInvert b) b fun cur _ => !cur := exec_bbInvert b
theorem bbNrzs_isTransform (b : Buf) : IsTransform (.bbNrzs b) b fun cur prev => !(cur ^^ prev) := exec_bbNrzs b
theorem bbNrzm_isTransform (b : Buf) : IsTransform (.bbNrzm b) b fun cur prev => cur ^^ prev := exec_bbNrzm b

theorem IsTransform.accepted (hi : IsTransform i b f) (hs : s.AcceptsBuffer) :
    exec i s = .next (s.setBb b ((s.bb b).mapBits s.cfg f)) := by
  rw [hi, buffer_command hs rfl]

/-- An accepted transform gives each active bit its new value and changes nothing else (R140, R142, R143). -/
theorem IsTransform.decodes (hi : IsTransform i b f) (hs : s.AcceptsBuffer) (hc : s.cfg.Legal) (hg : (s.bb b).Good s.cfg) :
    ∃ m : Memory Byte, exec i s = .next (s.setBb b { s.bb b with mem := m }) ∧
      (∀ r j, r < (s.bb b).numRows → j < (s.bb b).len r →
        BitBuffer.bit s.cfg { s.bb b with mem := m } r j = f ((s.bb b).bit s.cfg r j) (prevBit s.cfg (s.bb b) r j)) ∧
      (∀ a k, k < 8 → ¬ (s.bb b).ActiveBit s.cfg a k → (m.read a).getLsbD k = ((s.bb b).mem.read a).getLsbD k) := by
  obtain ⟨-, hshape, hbit⟩ := mapBits_spec hc f hg
  have hmem := hshape.eq_withMem
  refine ⟨((s.bb b).mapBits s.cfg f).mem, ?_, ?_, mapBits_inactive f hg.canonical.1⟩
  · rw [hi.accepted hs, ← hmem]
  · rwa [← hmem]

/-- A transform touches active bits only, also where STATE does not admit it (R146, R293). -/
theorem IsTransform.activeBitsOnly (hi : IsTransform i b f) (hc : s.cfg.Legal) (hg : (s.bb b).Good s.cfg)
    (ht : exec i s = .next t) : (s.bb b).ActiveBitsOnly s.cfg (t.bb b) := by
  rw [hi] at ht
  rcases bufferCommand_cases ht with rfl | hsame
  · rw [State.setBb_bb]
    exact mapBits_activeBitsOnly hc hg f
  · rw [hsame b]
    exact .refl hg

/-- Settles O17: BB_INVERT is the transform that complements. -/
theorem invertFlipsActiveBits : Obligations.InvertFlipsActiveBits := fun _ b hs hc hg =>
  (bbInvert_isTransform b).decodes hs hc hg

/-- Settles O19: BB_NRZS is the transform that compares a bit with the one before it. -/
theorem nrzsDecodes : Obligations.NrzsDecodes := fun _ b hs hc hg =>
  (bbNrzs_isTransform b).decodes hs hc hg

/-- Settles O20: BB_NRZM is the transform of the opposite polarity. -/
theorem nrzmDecodes : Obligations.NrzmDecodes := fun _ b hs hc hg =>
  (bbNrzm_isTransform b).decodes hs hc hg

/-- Settles O21: each of the three commands is a transform, which touches active bits only. -/
theorem transformsKeepInvariants : Obligations.TransformsKeepInvariants := by
  intro s t b hc hg i hi ht
  have hkeeps : (s.bb b).ActiveBitsOnly s.cfg (t.bb b) := by
    simp only [List.mem_cons, List.not_mem_nil, or_false] at hi
    rcases hi with rfl | rfl | rfl
    · exact (bbInvert_isTransform b).activeBitsOnly hc hg ht
    · exact (bbNrzs_isTransform b).activeBitsOnly hc hg ht
    · exact (bbNrzm_isTransform b).activeBitsOnly hc hg ht
  obtain ⟨hgood, ⟨hnum, hfree, hbits, hsyncs⟩, hinactive⟩ := hkeeps
  exact ⟨hgood, hbits, hsyncs, hnum, hfree, hinactive⟩

/-! ### BB_INVERT twice (R141) -/

/-- Inverting every active bit twice gives the same buffer. -/
theorem mapBits_not_twice (hc : c.Legal) (h : x.Good c) :
    (x.mapBits c fun cur _ => !cur).mapBits c (fun cur _ => !cur) = x := by
  have honce := mapBits_activeBitsOnly hc h fun cur _ => !cur
  have htwice := mapBits_activeBitsOnly hc honce.good fun cur _ => !cur
  obtain ⟨-, -, hbit⟩ := mapBits_spec hc (fun cur _ => !cur) h
  obtain ⟨-, -, hbit'⟩ := mapBits_spec hc (fun cur _ => !cur) honce.good
  refine (honce.trans htwice).eq_of_bits h fun r j hr hj => ?_
  have hr' : r < (x.mapBits c fun cur _ => !cur).numRows := by rwa [honce.shape.1]
  have hj' : j < (x.mapBits c fun cur _ => !cur).len r := by rwa [honce.shape.len]
  rw [hbit' r j hr' hj', hbit r j hr hj, Bool.not_not]

theorem mapBits_of_no_rows (h : x.numRows = 0) (f : Bool → Bool → Bool) : x.mapBits c f = x := by
  rw [BitBuffer.mapBits, h, upTo_zero]

theorem State.setBb_setBb (s : State) (b : Buf) (x y : BitBuffer) : (s.setBb b x).setBb b y = s.setBb b y := by cases b <;> rfl

/-- Settles O18: the second BB_INVERT undoes the first, and without rows there is no bit to invert. -/
theorem invertTwiceRestores : Obligations.InvertTwiceRestores := by
  intro s b hs hc hg
  have hexec := bbInvert_isTransform b
  have hs' : (s.setBb b ((s.bb b).mapBits s.cfg fun cur _ => !cur)).AcceptsBuffer := by
    rwa [State.AcceptsBuffer, State.setBb_phase]
  refine ⟨⟨_, hexec.accepted hs, ?_⟩, fun hempty => ?_⟩
  · rw [hexec.accepted hs', State.setBb_bb, State.setBb_cfg, mapBits_not_twice hc hg, State.setBb_setBb, State.setBb_self]
  · rw [hexec.accepted hs, mapBits_of_no_rows hempty, State.setBb_self]

end Sys2Proof.Machine
end

section
/-! The query commands (R147 to R158). A query reads the buffers and writes RES0 only, but for BB_EXTRACT, which also stores to
XBUF and FLAGS. The search for a least index and the comparison of rows are treated once, before the commands that use them. -/

namespace Sys2Proof.Machine

variable {c : Params} {s : State} {x : BitBuffer} {row m : Nat}

theorem rowInRange_of_lt (h : row < c.rows) : rowInRange c row = true := decide_eq_true h

/-! ### BB_EXTRACT (R147) -/

theorem bytesFor_iff (n j : Nat) : j < bytesFor n ↔ 8 * j < n := by
  rw [bytesFor]
  omega

/-- After elements `0 .. n - 1` are written in turn, they hold what was written and the others what they held. -/
theorem read_upTo_write {a : Memory Byte} (ha : a.wf) (n : Nat) (v : Nat → Byte) (j : Nat) :
    (upTo n (fun j a => a.write j (v j)) a).read j = if j < n then v j else a.read j := by
  induction n with
  | zero => rfl
  | succ n ih =>
    rw [upTo_succ, Memory.read_write (upTo_write_wf ha n v), ih]
    rcases Nat.lt_trichotomy j n with h | rfl | h
    · rw [if_neg h.ne, if_pos h, if_pos (by omega)]
    · rw [if_pos rfl, if_pos (by omega)]
    · rw [if_neg h.ne', if_neg (by omega), if_neg (by omega)]

theorem extractLen_eq (s : State) :
    extractLen s = if 8 * s.cfg.xcap < s.arg1.toNat then 8 * s.cfg.xcap else s.arg1.toNat := by
  rw [extractLen, State.argNat1, xcapBits]
  split <;> omega

theorem runByte_getLsbD {off len j k : Nat} (hk : k < 8) : (x.runByte c row off len j).getLsbD (7 - k) =
    (decide (8 * j + k < len) && x.bit c row (off + (8 * j + k))) := packByte_bit _ hk

/-- XBUF after a run of `len` bits of the row is extracted from `off` on: the bytes that hold a bit of it are written. -/
def State.extracted (s : State) (b : Buf) (row off len : Nat) : Memory Byte :=
  upTo (bytesFor len) (fun j a => a.write j ((s.bb b).runByte s.cfg row off len j)) s.xbuf

theorem extracted_read (hx : s.xbuf.wf) (b : Buf) (row off len j : Nat) : (s.extracted b row off len).read j =
    if 8 * j < len then (s.bb b).runByte s.cfg row off len j else s.xbuf.read j :=
  (read_upTo_write hx _ _ j).trans (if_congr (bytesFor_iff len j) rfl rfl)

/-- BB_EXTRACT on a row below ROWS: XBUF, RES0 and the flag. -/
theorem exec_bbExtract_accepted (hs : s.AcceptsBuffer) (hrow : row < s.cfg.rows) (b : Buf) :
    exec (.bbExtract b row) s = .next { s with
      xbuf := s.extracted b row s.arg0.toNat (extractLen s)
      res0 := resultWord (extractLen s)
      flags := if 8 * s.cfg.xcap < s.arg1.toNat then raiseIn .wXtrunc s.flags else s.flags } := by
  rw [exec_bbExtract, buffer_command hs (rowInRange_of_lt hrow)]
  simp only [State.raiseWhen, raiseIf, decide_eq_true_eq]
  rfl

/-- Settles O22: the bytes BB_EXTRACT writes are those that hold a bit of the run. -/
theorem extractCopiesRun : Obligations.ExtractCopiesRun := by
  intro s b row hs hrow hx off len
  have hlen : extractLen s = len := extractLen_eq s
  refine ⟨s.extracted b row off len, ?_, fun j k hj hk => ?_, fun j hj => ?_⟩
  · rw [exec_bbExtract_accepted hs hrow, hlen]
  · rw [extracted_read hx, if_pos hj, runByte_getLsbD hk]
  · rw [extracted_read hx, if_neg hj.not_gt]

/-! ### The least index of a search -/

/-- A search answers the least index of its range that fits. -/
theorem leastFrom_eq_some_of_least {p : Nat → Bool} {start count r : Nat} (hlo : start ≤ r) (hhi : r < start + count)
    (hr : p r = true) (hleast : ∀ i, start ≤ i → i < start + count → p i = true → r ≤ i) :
    leastFrom p start count = some r := by
  cases hfound : leastFrom p start count with
  | none => exact absurd hr (Bool.eq_false_iff.1 (leastFrom_eq_none.1 hfound r hlo hhi))
  | some q =>
    obtain ⟨hqlo, hqhi, hq, hbelow⟩ := leastFrom_eq_some hfound
    have hle : r ≤ q := hleast q hqlo hqhi hq
    have hge : ¬ r < q := fun hlt => absurd hr (Bool.eq_false_iff.1 (hbelow r hlo hlt))
    rw [show q = r by omega]

/-! ### BB_SEARCH (R150) -/

/-- The pattern of `pl` bits stands at position `i` of the row, at or after `start` and wholly inside the row (R150). -/
def PatternStands (c : Params) (x : BitBuffer) (pat : Memory Byte) (row start pl i : Nat) : Prop :=
  start ≤ i ∧ i + pl ≤ x.len row ∧ ∀ k, k < pl → x.bit c row (i + k) = (pat.read (k / 8)).getLsbD (7 - k % 8)

theorem patternStands_iff {pat : Memory Byte} {start pl i : Nat} :
    PatternStands c x pat row start pl i ↔ start ≤ i ∧ patternAt c x pat row pl i = true := by
  rw [patternAt_iff, PatternStands]

theorem searchResult_no_pattern (c : Params) (x : BitBuffer) (pat : Memory Byte) (row start : Nat) :
    searchResult c x pat row start 0 = x.len row := if_pos rfl

/-- Where the pattern stands somewhere, the answer is the first such place. -/
theorem searchResult_least {pat : Memory Byte} {start pl : Nat} (hpl : pl ≠ 0)
    (h : ∃ i, PatternStands c x pat row start pl i) :
    PatternStands c x pat row start pl (searchResult c x pat row start pl) ∧
      ∀ i, PatternStands c x pat row start pl i → searchResult c x pat row start pl ≤ i := by
  classical
  have hfirst := Nat.find_spec h
  obtain ⟨hlo, hin, -⟩ := Nat.find_spec h
  have hfound : leastFrom (patternAt c x pat row pl) start (x.len row + 1 - start) = some (Nat.find h) :=
    leastFrom_eq_some_of_least hlo (by omega) (patternStands_iff.1 hfirst).2
      fun i hi _ hp => Nat.find_min' h (patternStands_iff.2 ⟨hi, hp⟩)
  have hresult : searchResult c x pat row start pl = Nat.find h := by
    rw [searchResult, if_neg hpl, hfound, Option.getD_some]
  rw [hresult]
  exact ⟨hfirst, fun i hi => Nat.find_min' h hi⟩

/-- Where the pattern stands nowhere, the answer is the row's length. -/
theorem searchResult_none {pat : Memory Byte} {start pl : Nat} (hpl : pl ≠ 0)
    (h : ¬ ∃ i, PatternStands c x pat row start pl i) : searchResult c x pat row start pl = x.len row := by
  have hnone : leastFrom (patternAt c x pat row pl) start (x.len row + 1 - start) = none :=
    leastFrom_eq_none.2 fun i hi _ => Bool.eq_false_iff.2 fun hp => h ⟨i, patternStands_iff.2 ⟨hi, hp⟩⟩
  rw [searchResult, if_neg hpl, hnone, Option.getD_none]

/-- Settles O23: a pattern longer than PAT is refused; any other is looked for. -/
theorem searchFindsLeast : Obligations.SearchFindsLeast := by
  intro s b row hs hrow n start pl stands
  refine ⟨fun hlong => ?_, fun hfits => ⟨searchResult s.cfg (s.bb b) s.pat row start pl, ?_, ?_, searchResult_least,
    searchResult_none⟩⟩
  · have hrefused : decide (s.argNat1 ≤ xcapBits s.cfg) = false := decide_eq_false (Nat.not_le.2 hlong)
    rw [exec_bbSearch, hrefused, Bool.and_false, command_operand_refused (verdict_buffer hs)]
    rfl
  · have hok : (rowInRange s.cfg row && decide (s.argNat1 ≤ xcapBits s.cfg)) = true := by
      rw [rowInRange_of_lt hrow, Bool.true_and]
      exact decide_eq_true hfits
    rw [exec_bbSearch, buffer_command hs hok]
    rfl
  · intro hempty
    rw [hempty]
    exact searchResult_no_pattern _ _ _ _ _

/-! ### The comparison of rows (R153, R154) -/

/-- Two rows have the same length and the same bits. -/
def SameRow (c : Params) (x : BitBuffer) (a b : Nat) : Prop :=
  x.len a = x.len b ∧ ∀ i, i < x.len a → x.bit c a i = x.bit c b i

/-- Two rows agree on their first `m` bits. -/
def SamePrefix (c : Params) (x : BitBuffer) (m a b : Nat) : Prop := ∀ i, i < m → x.bit c a i = x.bit c b i

theorem SameRow.refl (a : Nat) : SameRow c x a a := ⟨rfl, fun _ _ => rfl⟩

theorem SameRow.symm {a b : Nat} (h : SameRow c x a b) : SameRow c x b a :=
  ⟨h.1.symm, fun i hi => (h.2 i (h.1 ▸ hi)).symm⟩

theorem SameRow.trans {a b d : Nat} (h : SameRow c x a b) (h' : SameRow c x b d) : SameRow c x a d :=
  ⟨h.1.trans h'.1, fun i hi => (h.2 i hi).trans (h'.2 i (h.1 ▸ hi))⟩

theorem SamePrefix.trans {a b d : Nat} (h : SamePrefix c x m a b) (h' : SamePrefix c x m b d) : SamePrefix c x m a d :=
  fun i hi => (h i hi).trans (h' i hi)

/-- The row holds the `m > 0` bits of a prefix compare. -/
def HoldsPrefix (x : BitBuffer) (m a : Nat) : Prop := 0 < m ∧ m ≤ x.len a

/-- CMP is exact but for two rows that both hold the prefix (R153). -/
theorem rowsMatch_iff {a b : Nat} : RowsMatch c x a b m ↔
    SameRow c x a b ∨ (HoldsPrefix x m a ∧ HoldsPrefix x m b ∧ SamePrefix c x m a b) := by
  simp only [SameRow, HoldsPrefix, SamePrefix, RowsMatch]
  tauto

/-- Of two rows that match, both hold the prefix or none. -/
theorem RowsMatch.holdsPrefix_iff {a b : Nat} (h : RowsMatch c x a b m) : HoldsPrefix x m a ↔ HoldsPrefix x m b := by
  rcases rowsMatch_iff.1 h with ⟨hlen, -⟩ | ⟨ha, hb, -⟩
  · rw [HoldsPrefix, HoldsPrefix, hlen]
  · exact ⟨fun _ => hb, fun _ => ha⟩

/-- Two rows that hold the prefix match iff they agree on it. -/
theorem rowsMatch_iff_samePrefix {a b : Nat} (ha : HoldsPrefix x m a) (hb : HoldsPrefix x m b) :
    RowsMatch c x a b m ↔ SamePrefix c x m a b := by
  refine rowsMatch_iff.trans ⟨?_, fun h => .inr ⟨ha, hb, h⟩⟩
  rintro (⟨-, hbits⟩ | ⟨-, -, hprefix⟩)
  · exact fun i hi => hbits i (hi.trans_le ha.2)
  · exact hprefix

/-- A row that does not hold the prefix matches the rows equal to it. -/
theorem rowsMatch_iff_sameRow {a b : Nat} (ha : ¬ HoldsPrefix x m a) : RowsMatch c x a b m ↔ SameRow c x a b :=
  rowsMatch_iff.trans ⟨fun h => h.resolve_right fun hp => ha hp.1, .inl⟩

theorem rowsMatch_refl (a : Nat) : RowsMatch c x a a m := rowsMatch_iff.2 (.inl (.refl a))

theorem RowsMatch.symm {a b : Nat} (h : RowsMatch c x a b m) : RowsMatch c x b a m := by
  rcases rowsMatch_iff.1 h with hsame | ⟨ha, hb, hprefix⟩
  · exact rowsMatch_iff.2 (.inl hsame.symm)
  · exact rowsMatch_iff.2 (.inr ⟨hb, ha, fun i hi => (hprefix i hi).symm⟩)

/-- Matching is transitive, as rows that match hold the prefix together (R154). -/
theorem RowsMatch.trans {a b d : Nat} (h : RowsMatch c x a b m) (h' : RowsMatch c x b d m) : RowsMatch c x a d m := by
  by_cases ha : HoldsPrefix x m a
  · have hb := h.holdsPrefix_iff.1 ha
    have hd := h'.holdsPrefix_iff.1 hb
    exact (rowsMatch_iff_samePrefix ha hd).2
      (((rowsMatch_iff_samePrefix ha hb).1 h).trans ((rowsMatch_iff_samePrefix hb hd).1 h'))
  · have hb := mt h.holdsPrefix_iff.2 ha
    exact (rowsMatch_iff_sameRow ha).2 (((rowsMatch_iff_sameRow ha).1 h).trans ((rowsMatch_iff_sameRow hb).1 h'))

/-- Settles O24: RES0 tells whether CMP holds. -/
theorem compareRowsResult : Obligations.CompareRowsResult := by
  intro s b ra rb hs ha hb
  have hok : (rowInRange s.cfg ra && rowInRange s.cfg rb) = true := by
    rw [rowInRange_of_lt ha, rowInRange_of_lt hb, Bool.true_and]
  rw [exec_bbCmpRows, buffer_command hs hok, ← if_congr (cmp_iff s.cfg (s.bb b) ra rb s.arg0.toNat) rfl rfl]
  rfl

/-- Settles O25: the laws of CMP, by whether a row holds the prefix. -/
theorem compareIsEquivalence : Obligations.CompareIsEquivalence := by
  intro c x m same
  simp only [cmp_iff]
  refine ⟨rowsMatch_refl, fun a b => RowsMatch.symm, fun a b d => RowsMatch.trans, fun a b hm => ?exact,
    fun a b _ hshort => ?short, fun a b hm ha hb => rowsMatch_iff_samePrefix ⟨hm, ha⟩ ⟨hm, hb⟩, fun a b ha hb => ?noBits⟩
  case exact => exact rowsMatch_iff_sameRow fun h => h.1.ne' hm
  case short => exact rowsMatch_iff_sameRow fun h => hshort.not_ge h.2
  case noBits => exact .inl ⟨ha.trans hb.symm, fun i hi => absurd (ha ▸ hi) (Nat.not_lt_zero i)⟩

/-! ### BB_CNTREP (R155) -/

/-- A row of the buffer matches itself. -/
theorem matchingRows_pos (h : row < x.numRows) : 1 ≤ matchingRows c x row m :=
  Finset.card_pos.2 ⟨row, Finset.mem_filter.2 ⟨Finset.mem_range.2 h, rowsMatch_refl row⟩⟩

/-- A row without bits matches the rows without bits. -/
theorem rowsMatch_of_len_zero {r : Nat} (h : x.len row = 0) : RowsMatch c x row r m ↔ x.len r = 0 := by
  have hshort : ¬ HoldsPrefix x m row := fun hp => by
    have hm := hp.1
    have hle := hp.2
    omega
  rw [rowsMatch_iff_sameRow hshort, SameRow, h]
  exact ⟨fun hsame => hsame.1.symm, fun hr => ⟨hr.symm, fun i hi => absurd hi (Nat.not_lt_zero i)⟩⟩

/-- A slot behind the rows of a good buffer has no bits, so it matches the rows without bits (R26 I3). -/
theorem matchingRows_outside (hg : x.Good c) (h : x.numRows ≤ row) :
    matchingRows c x row m = ((Finset.range x.numRows).filter (fun r => x.len r = 0)).card := by
  have hzero : x.len row = 0 := (hg.unused row h).1
  rw [matchingRows]
  exact congrArg _ (Finset.filter_congr fun r _ => rowsMatch_of_len_zero hzero)

/-- Settles O26: RES0 is the number of matching rows. -/
theorem countRepeatsResult : Obligations.CountRepeatsResult := by
  intro s b row hs hrow
  refine ⟨?_, matchingRows_pos, matchingRows_outside⟩
  rw [exec_bbCntRep, buffer_command hs (rowInRange_of_lt hrow), ← matchCount_eq]
  rfl

/-! ### BB_FINDROW and BB_FINDPFX (R157, R158) -/

/-- Row `r` of the buffer has at least `mb` bits, and at least `q` rows match it over `m`. -/
def MeetsThresholds (c : Params) (x : BitBuffer) (q mb m r : Nat) : Prop :=
  r < x.numRows ∧ mb ≤ x.len r ∧ q ≤ matchingRows c x r m

theorem meetsThresholds_iff {q mb r : Nat} : MeetsThresholds c x q mb m r ↔
    r < x.numRows ∧ (decide (mb ≤ x.len r) && decide (q ≤ x.matchCount c r m)) = true := by
  rw [MeetsThresholds, matchCount_eq, Bool.and_eq_true, decide_eq_true_eq, decide_eq_true_eq]

/-- The search for a repeated row finds the least row that meets the thresholds. -/
theorem findRepeated_least {q mb r : Nat} (hr : MeetsThresholds c x q mb m r)
    (hleast : ∀ r', MeetsThresholds c x q mb m r' → r ≤ r') : x.findRepeated c q mb m = some r := by
  obtain ⟨hlt, hfits⟩ := meetsThresholds_iff.1 hr
  refine leastFrom_eq_some_of_least (Nat.zero_le r) (by omega) hfits fun i _ hi hp => ?_
  exact hleast i (meetsThresholds_iff.2 ⟨by omega, hp⟩)

/-- The search for a repeated row finds nothing where no row meets the thresholds. -/
theorem findRepeated_none {q mb : Nat} (h : ∀ r, ¬ MeetsThresholds c x q mb m r) : x.findRepeated c q mb m = none := by
  refine leastFrom_eq_none.2 fun i _ hi => Bool.eq_false_iff.2 fun hp => ?_
  exact h i (meetsThresholds_iff.2 ⟨by omega, hp⟩)

/-- A command that answers that search in RES0 gives the least such row, or 0xFFFFFFFF (R157, R158). -/
theorem repeatedRow_result {i : Instr} {q mb : Nat}
    (hexec : exec i s = .next { s with res0 := rowOrNone (x.findRepeated s.cfg q mb m) }) :
    (∀ r, MeetsThresholds s.cfg x q mb m r → (∀ r', MeetsThresholds s.cfg x q mb m r' → r ≤ r') →
      exec i s = .next { s with res0 := resultWord r }) ∧
    ((∀ r, ¬ MeetsThresholds s.cfg x q mb m r) → exec i s = .next { s with res0 := 0xFFFFFFFF }) := by
  refine ⟨fun r hr hleast => ?_, fun hnone => ?_⟩
  · rw [hexec, findRepeated_least hr hleast, rowOrNone]
  · rw [hexec, findRepeated_none hnone, rowOrNone]

/-- Settles O27: BB_FINDROW is that search with rows compared exactly. -/
theorem findRowResult : Obligations.FindRowResult := by
  intro s b hs x q mb meets
  refine repeatedRow_result ?_
  rw [exec_bbFindRow, buffer_command hs rfl]
  rfl

/-- Settles O28: BB_FINDPFX is that search with rows compared over `min_bits` bits. -/
theorem findPrefixResult : Obligations.FindPrefixResult := by
  intro s b hs x q mb meets
  refine repeatedRow_result ?_
  rw [exec_bbFindPfx, buffer_command hs rfl]
  rfl

end Sys2Proof.Machine
end

section
/-! The line decoders (R170 to R180): LD_MANCH and LD_DMANCH are one kind of command. Each runs a loop over the half-bits of the
source row and stores what the loop has appended to the other buffer; the loops are described in Laws/LineDecoders.lean. -/

namespace Sys2Proof.Machine

variable {s t : State} {b : Buf} {row : Nat} {i : Instr} {run : State → LineRun}

/-! ### The two runs -/

/-- The run of LD_MANCH on a row, from the state the command finds (R171). -/
def manchRun (b : Buf) (row : Nat) (s : State) : LineRun :=
  manchLoop s.cfg ((s.bb b).bit s.cfg row) (lineInputEnd s b row) ((s.bb b).len row) (lineStart s b)

/-- The run of LD_DMANCH on a row, from the state the command finds (R175). -/
def dmanchRun (b : Buf) (row : Nat) (s : State) : LineRun :=
  dmanchLoop s.cfg ((s.bb b).bit s.cfg row) (lineInputEnd s b row) ((s.bb b).len row) (lineStart s b)

theorem inputEnd_le (len start mx : Nat) : inputEnd len start mx ≤ len := by
  rw [inputEnd]
  split <;> omega

/-- The length of the source row is fuel enough: the loops end by their own conditions (R170). -/
theorem lineInputEnd_le_fuel (s : State) (b : Buf) (row : Nat) :
    lineInputEnd s b row ≤ (lineStart s b).ipos + 2 * (s.bb b).len row + 1 := by
  have hle : lineInputEnd s b row ≤ (s.bb b).len row := inputEnd_le _ _ _
  omega

/-- A run appends some bits to its destination and does nothing else there (R180). -/
def RunAppends (b : Buf) (run : State → LineRun) : Prop :=
  ∀ s, ∃ bits, (run s).out = Logged.addAll s.cfg bits (s.bb (otherBuf b), s.flags)

theorem manchRun_appends (b : Buf) (row : Nat) : RunAppends b (manchRun b row) := fun s => by
  obtain ⟨_, _, -, -, hrun⟩ := manchLoop_spec s.cfg ((s.bb b).bit s.cfg row) _ _ _ (lineInputEnd_le_fuel s b row)
  exact ⟨_, congrArg LineRun.out hrun⟩

theorem dmanchRun_appends (b : Buf) (row : Nat) : RunAppends b (dmanchRun b row) := fun s => by
  obtain ⟨_, _, _, -, -, hrun⟩ := dmanch_spec s.cfg ((s.bb b).bit s.cfg row) _ _ _ (lineInputEnd_le_fuel s b row)
  exact ⟨_, congrArg LineRun.out hrun⟩

/-! ### The commands -/

/-- Command `i` stores the outcome of `run` on a row of buffer `b` (R170). -/
def IsLineDecoder (i : Instr) (b : Buf) (row : Nat) (run : State → LineRun) : Prop :=
  ∀ s, exec i s = command .buffer (rowInRange s.cfg row) (fun t => storeLine b (run t) t) s

theorem ldManch_isLineDecoder (b : Buf) (row : Nat) : IsLineDecoder (.ldManch b row) b row (manchRun b row) :=
  exec_ldManch b row
theorem ldDmanch_isLineDecoder (b : Buf) (row : Nat) : IsLineDecoder (.ldDmanch b row) b row (dmanchRun b row) :=
  exec_ldDmanch b row

/-- An accepted line decoder whose run has decoded `bits` up to `ipos`: destination, FLAGS, RES0 and RES1 (R170). -/
theorem IsLineDecoder.accepted (hi : IsLineDecoder i b row run) (hs : s.AcceptsBuffer) (hrow : row < s.cfg.rows)
    {bits : List Bool} {ipos cnt : Nat}
    (hrun : run s = ⟨Logged.addAll s.cfg bits (lineStart s b).out, ipos, (lineStart s b).cnt + cnt⟩) :
    let out := Logged.addAll s.cfg bits (s.bb (otherBuf b), s.flags)
    exec i s = .next ((((s.setBb (otherBuf b) out.1).setFlags out.2).setRes0 (resultWord ipos)).setRes1 (resultWord cnt)) := by
  rw [hi, buffer_command hs (rowInRange_of_lt hrow), hrun, storeLine, lineStart, Nat.zero_add]

/-- Settles O29: the loop of LD_MANCH has the fuel to reach its end. -/
theorem manchesterDecodes : Obligations.ManchesterDecodes := by
  intro s b row hs hrow h start mx len n
  obtain ⟨cnt, ipos, hpairs, hend, hrun⟩ := manchLoop_spec s.cfg h _ _ _ (lineInputEnd_le_fuel s b row)
  exact ⟨cnt, ipos, hpairs, hend, (ldManch_isLineDecoder b row).accepted hs hrow hrun⟩

/-- Settles O31: the same for the two phases of LD_DMANCH. -/
theorem differentialDecodes : Obligations.DifferentialDecodes := by
  intro s b row hs hrow h start mx len n
  obtain ⟨k1, k2, q, hones, hphase, hrun⟩ := dmanch_spec s.cfg h _ _ _ (lineInputEnd_le_fuel s b row)
  exact ⟨k1, k2, q, hones, hphase, (ldDmanch_isLineDecoder b row).accepted hs hrow hrun⟩

/-! ### Decoding what was encoded (R171, R172) -/

/-- From `start` on the half-bits `h` are the Manchester code of `bits`: 0 as high, low; 1 as low, high (R171). -/
def ManchesterCode (h : Nat → Bool) (start : Nat) (bits : List Bool) : Prop :=
  ∀ j, j < bits.length → h (start + 2 * j) = (!bits.getD j false) ∧ h (start + 2 * j + 1) = bits.getD j false

/-- No pair of the code is a violation. -/
theorem ManchesterCode.differ {h : Nat → Bool} {start : Nat} {bits : List Bool} (hc : ManchesterCode h start bits) {j : Nat}
    (hj : j < bits.length) : h (start + 2 * j) ≠ h (start + 2 * j + 1) := by
  obtain ⟨hfirst, hsecond⟩ := hc j hj
  rw [hfirst, hsecond]
  exact Bool.not_ne_self _

/-- The second half-bits of the code are the bits. -/
theorem ManchesterCode.secondHalves {h : Nat → Bool} {start : Nat} {bits : List Bool} (hc : ManchesterCode h start bits) :
    (List.range bits.length).map (fun j => h (start + 2 * j + 1)) = bits := by
  refine List.ext_getElem (by simp) fun j _ hj => ?_
  obtain ⟨-, hsecond⟩ := hc j hj
  rw [List.getElem_map, List.getElem_range, hsecond, List.getD_eq_getElem _ _ hj]

/-- Settles O30: in the code no pair ends the loop early, so it reads one pair for each bit. -/
theorem manchesterRoundTrip : Obligations.ManchesterRoundTrip := by
  intro s b row bits hs hrow hmx hlen (hcode : ManchesterCode _ _ bits)
  obtain ⟨cnt, ipos, hpairs, hend, hexec⟩ := manchesterDecodes s b row hs hrow
  have hnolimit : ¬ (0 < s.arg1.toNat ∧ s.arg0.toNat + 2 * s.arg1.toNat < (s.bb b).len row) := by simp [hmx]
  simp only [if_neg hnolimit] at hpairs hend
  have hle : cnt ≤ bits.length := by
    by_contra hgt
    obtain ⟨hlt, -⟩ := hpairs bits.length (by omega)
    omega
  have hcnt : cnt = bits.length := by
    rcases hend with ⟨hdone, -⟩ | ⟨hmore, hequal, -⟩
    · omega
    · exact absurd hequal (hcode.differ (by omega))
  subst hcnt
  have hipos : ipos = (s.bb b).len row := by
    rcases hend with ⟨-, hpos⟩ | ⟨hmore, -, -⟩ <;> omega
  rwa [hipos, hcode.secondHalves] at hexec

/-! ### Source and destination (R180) -/

/-- From `s` to `t` buffer `b` stays as it is, and the other buffer takes some bits by ADD_BIT. -/
def State.OtherBufferAppended (s t : State) (b : Buf) : Prop :=
  t.bb b = s.bb b ∧ ∃ bits, t.bb (otherBuf b) = (Logged.addAll s.cfg bits (s.bb (otherBuf b), s.flags)).1

/-- A step that leaves both buffers alone appends no bits. -/
theorem State.OtherBufferAppended.of_same (h : ∀ d, t.bb d = s.bb d) : s.OtherBufferAppended t b := ⟨h b, [], h _⟩

/-- Whatever STATE and the row operand, a line decoder appends to the other buffer (R179, R180). -/
theorem IsLineDecoder.appended (hi : IsLineDecoder i b row run) (hrun : RunAppends b run) (ht : exec i s = .next t) :
    s.OtherBufferAppended t b := by
  rw [hi] at ht
  rcases command_cases .buffer (rowInRange s.cfg row) (fun t => storeLine b (run t) t) s with
    ⟨-, -, e⟩ | ⟨-, -, e⟩ | ⟨-, e⟩ | ⟨-, e⟩ <;> obtain rfl := Host.Outcome.next.inj (e.symm.trans ht)
  · obtain ⟨bits, hout⟩ := hrun s
    exact ⟨by simp [storeLine], bits, by simp [storeLine, hout]⟩
  · exact .of_same (State.refuse_bb s .eBadCmd)
  · exact .of_same (State.refuse_bb s .eBadState)
  · exact .of_same fun _ => rfl

/-- Appending to the other buffer keeps R26 on both. -/
theorem State.OtherBufferAppended.keepsGood (h : s.OtherBufferAppended t b) (hc : s.cfg.Legal)
    (hg : ∀ d, (s.bb d).Good s.cfg) : ∀ d, (t.bb d).Good s.cfg := by
  obtain ⟨hsource, bits, hdest⟩ := h
  obtain ⟨hgood, -⟩ := addAll_keeps (c := s.cfg) bits (s.bb (otherBuf b), s.flags)
  have hsourceGood : (t.bb b).Good s.cfg := hsource ▸ hg b
  have hdestGood : (t.bb (otherBuf b)).Good s.cfg := hdest ▸ hgood hc (hg _)
  cases b with
  | b0 => exact fun | .b0 => hsourceGood | .b1 => hdestGood
  | b1 => exact fun | .b0 => hdestGood | .b1 => hsourceGood

/-- Settles O32: both commands are line decoders, and both runs only append. -/
theorem decodersKeepInvariants : Obligations.DecodersKeepInvariants := by
  intro s t b row hc hg0 hg1 i hi ht
  have happended : s.OtherBufferAppended t b := by
    simp only [List.mem_cons, List.not_mem_nil, or_false] at hi
    rcases hi with rfl | rfl
    · exact (ldManch_isLineDecoder b row).appended (manchRun_appends b row) ht
    · exact (ldDmanch_isLineDecoder b row).appended (dmanchRun_appends b row) ht
  have hgood := happended.keepsGood hc fun | .b0 => hg0 | .b1 => hg1
  obtain ⟨hsource, hdest⟩ := happended
  exact ⟨hgood .b0, hgood .b1, otherBuf_ne b, hsource, hdest⟩

end Sys2Proof.Machine
end

section
/-! DM_RUN in IDLE (R193 to R213): where the demodulator commands are admitted, how ENTRY ends, and how a run that starts ends. -/

namespace Sys2Proof.Machine

variable {s t : State} {k : DemodKind}

/-! ### Admission (R224, R293) -/

/-- What a command leaves, by the three ways it can go: its effect, a refusal, or nothing (R291 to R293). -/
theorem command_induction {motive : State → Prop} {i : Instr} {cls : CommandClass} {ok : Bool} {effect : State → State}
    (hi : exec i s = command cls ok effect s) (ht : exec i s = .next t)
    (heffect : verdictOn s.phase cls = .executes → motive (effect s)) (hrefused : ∀ f, motive (s.refuse f))
    (hsame : motive s) : motive t := by
  rw [hi] at ht
  rcases command_cases cls ok effect s with ⟨hv, -, e⟩ | ⟨-, -, e⟩ | ⟨-, e⟩ | ⟨-, e⟩ <;>
    obtain rfl := Host.Outcome.next.inj (e.symm.trans ht)
  · exact heffect hv
  · exact hrefused .eBadCmd
  · exact hrefused .eBadState
  · exact hsame

theorem exec_dmRun_idle (h : s.phase = .idle) : exec .dmRun s = .next (runEntry (entryE1 (s.setDone false))) := by
  rw [exec_dmRun, command_executes (verdict_start.2 h) rfl]

theorem exec_dmString_idle (h : s.phase = .idle) :
    exec .dmString s = .next (dispatch .string (((s.setEvents 0).setDispatches 0).setCursor 0)) := by
  rw [exec_dmString, command_executes (verdict_start.2 h) rfl]

/-- Settles O8: the table of R293, row by row. -/
theorem runCommandsByState : Obligations.RunCommandsByState := by
  intro s
  refine ⟨fun h => ?_, fun h => ?_, fun h => ?_⟩
  · have hbad : verdictOn s.phase .start = .badState := by rw [h]; rfl
    rw [exec_dmRun, exec_dmString]
    exact ⟨command_badState hbad, command_badState hbad⟩
  · rw [exec_dmSinkRet]
    exact command_badState (by rw [h]; rfl)
  · rw [exec_dmRun, exec_dmString, exec_dmSinkRet]
    exact ⟨command_fatal h, command_fatal h, command_fatal h⟩

/-! ### The ends of ENTRY (R193, R199) -/

/-- Where the checks E4 and E5 stop a run: E1 and E3 done, the flag, IDLE as before, and the event `done`. -/
def State.abortedIn (s : State) (k : DemodKind) (f : Flag) : State :=
  { entryE3 k (entryE1 s) with flags := raiseIn f s.flags, done := true }

@[simp] theorem abortedIn_bb0 (f : Flag) : (s.abortedIn k f).bb0 = s.bb0 := by simp [State.abortedIn]
@[simp] theorem abortedIn_phase (f : Flag) : (s.abortedIn k f).phase = s.phase := by simp [State.abortedIn]
@[simp] theorem abortedIn_events (f : Flag) : (s.abortedIn k f).events = 0 := by simp [State.abortedIn]
@[simp] theorem abortedIn_origin (f : Flag) : (s.abortedIn k f).origin = .run := by simp [State.abortedIn]
@[simp] theorem abortedIn_flags (f : Flag) : (s.abortedIn k f).flags = raiseIn f s.flags := by simp [State.abortedIn]
@[simp] theorem abortedIn_lat (f : Flag) : (s.abortedIn k f).lat = (entryE3 k s).lat := by simp [State.abortedIn, entryE3]

theorem entryE1_setDone (d : Bool) : entryE1 (s.setDone d) = (entryE1 s).setDone d := rfl
theorem entryE3_setDone (d : Bool) : entryE3 k (s.setDone d) = (entryE3 k s).setDone d := rfl

/-- An abort in IDLE sets its flag and `done`, and nothing else (R199). -/
theorem abortRun_idle {f : Flag} (h : s.phase = .idle) :
    abortRun f (s.setDone false) = { s with flags := raiseIn f s.flags, done := true } := by
  cases s
  cases h
  rfl

theorem abortRun_entryE3 {f : Flag} (h : s.phase = .idle) :
    abortRun f (entryE3 k (entryE1 (s.setDone false))) = s.abortedIn k f := by
  rw [entryE1_setDone, entryE3_setDone, abortRun_idle (s := entryE3 k (entryE1 s)) (by simpa using h), entryE3_flags,
    entryE1_flags]
  rfl

theorem runEntry_unknown (hk : demodOf s.spec.kind = none) :
    runEntry (entryE1 (s.setDone false)) = abortRun .eKind (entryE1 (s.setDone false)) := by
  simp only [runEntry, entryE1_spec, State.setDone_spec, hk]

/-- MOD_KIND 3 to 7 names no demodulator (R103). -/
theorem demodOf_eq_none (c : BitVec 3) : demodOf c = none ↔ 3 ≤ c.toNat := by
  obtain ⟨-, -, -, hnone⟩ := demodOf_spec c
  exact hnone

/-- Check E4 stops exactly the runs that R196 names. -/
theorem configBad_entry (hk : demodOf s.spec.kind = some k) :
    configBad (entryE3 k (entryE1 (s.setDone false))) = true ↔ ¬ s.WidthsConfigured := by
  have hpcm : k = .pcm ↔ s.spec.kind = 0 := by
    rw [← (demodOf_spec s.spec.kind).1, hk, Option.some.injEq]
  rw [configBad_iff, hpcm]
  simp only [entryE1_spec, State.setDone_spec, State.WidthsConfigured]
  tauto

/-- Check E5 reads the widths and the rate, which E1 leaves. -/
theorem rateTooLow_entry : rateTooLow (entryE3 k (entryE1 (s.setDone false))) = true ↔ ¬ s.RateSuffices := by
  rw [rateTooLow_iff]
  simp [State.RateSuffices]

theorem runStarts_of_checks (h : s.phase = .idle) (hk : demodOf s.spec.kind = some k) (hw : s.WidthsConfigured)
    (hr : s.RateSuffices) : s.RunStarts := by
  refine ⟨h, ?_, hw, hr⟩
  by_contra hkind
  have hnone := (demodOf_eq_none s.spec.kind).2 (by omega)
  simp [hk] at hnone

/-- A run that starts has a demodulator (R103). -/
theorem State.RunStarts.demod (hs : s.RunStarts) : ∃ k, demodOf s.spec.kind = some k := by
  obtain ⟨-, hkind, -, -⟩ := hs
  refine Option.ne_none_iff_exists'.1 fun hnone => ?_
  have := (demodOf_eq_none s.spec.kind).1 hnone
  omega

theorem exec_dmRun_config (h : s.phase = .idle) (hk : demodOf s.spec.kind = some k) (hw : ¬ s.WidthsConfigured) :
    exec .dmRun s = .next (s.abortedIn k .eConfig) := by
  rw [exec_dmRun_idle h, runEntry_known hk, if_pos ((configBad_entry hk).2 hw), abortRun_entryE3 h]

theorem exec_dmRun_rate (h : s.phase = .idle) (hk : demodOf s.spec.kind = some k) (hw : s.WidthsConfigured)
    (hr : ¬ s.RateSuffices) : exec .dmRun s = .next (s.abortedIn k .eRateLow) := by
  have hconfig : ¬ configBad (entryE3 k (entryE1 (s.setDone false))) = true := fun h => (configBad_entry hk).1 h hw
  rw [exec_dmRun_idle h, runEntry_known hk, if_neg hconfig, if_pos (rateTooLow_entry.2 hr), abortRun_entryE3 h]

/-- Everything DM_RUN in IDLE can come to once MOD_KIND names a demodulator, once (R193, E4 to E7). -/
theorem exec_dmRun_cases (h : s.phase = .idle) (hk : demodOf s.spec.kind = some k) :
    (¬ s.WidthsConfigured ∧ exec .dmRun s = .next (s.abortedIn k .eConfig)) ∨
    (s.WidthsConfigured ∧ ¬ s.RateSuffices ∧ exec .dmRun s = .next (s.abortedIn k .eRateLow)) ∨
    (s.RunStarts ∧ exec .dmRun s = .next (runFrom (s.entered k))) := by
  by_cases hw : s.WidthsConfigured
  · by_cases hr : s.RateSuffices
    · have hs := runStarts_of_checks h hk hw hr
      exact .inr (.inr ⟨hs, exec_dmRun_starts hs hk⟩)
    · exact .inr (.inl ⟨hw, hr, exec_dmRun_rate h hk hw hr⟩)
  · exact .inl ⟨hw, exec_dmRun_config h hk hw⟩

/-- Settles O33: MOD_KIND names no demodulator, so ENTRY ends after E1. -/
theorem runReservedKind : Obligations.RunReservedKind := by
  intro s h hkind
  have hk : demodOf s.spec.kind = none := (demodOf_eq_none _).2 hkind
  rw [exec_dmRun_idle h, runEntry_unknown hk, entryE1_setDone, abortRun_idle (s := entryE1 s) (by simpa using h)]
  cases s
  rfl

/-! ### How a run that starts ends (R205, R209, R212) -/

/-- A run over no symbol, or with none left, does no symbol step (R209). -/
theorem runFrom_exhausted (h : s.lat.n.toNat ≤ s.cursor.toNat) : runFrom s = endRun s :=
  (RunLoop.finish (by omega)).unique (runFrom_follows s)

/-- `endRun` in IDLE only signals `done`. -/
theorem endRun_idle (h : s.phase = .idle) : endRun s = s.setDone true := by
  cases s
  cases h
  rfl

/-- N is NUM_PULSES from E3 on (R193, R194). -/
theorem entered_lat_n : (s.entered k).lat.n = s.pt.numPulses := by
  obtain ⟨-, hn, -⟩ := demodLatches_scaled ((entryE3 k (entryE1 (s.setDone false))).setBb .b0 BitBuffer.empty)
  exact hn

/-- A run raises no flag above the warnings (R211, R286). -/
theorem runFrom_keepsErrorFlags {i : Nat} (hi : 6 < i) : (runFrom s).flags.getLsbD i = s.flags.getLsbD i :=
  ((runFrom_follows s).keeps.2.getLsbD i).2 hi

/-- A run counts as one of DM_RUN to its end (R44). -/
theorem runFrom_entered_origin : (runFrom (s.entered k)).origin = .run := by
  rcases (runFrom_follows (s.entered k)).ends (by simp) with ⟨-, -, -, ho, -⟩ | ⟨-, ho, -⟩
  · rw [ho, entered_origin]
  · exact ho

/-- Settles O34: E4 stops PCM alone; E_RATE_LOW is another flag, and a run raises warnings only. -/
theorem runWidthsMissing : Obligations.RunWidthsMissing := by
  intro s h
  refine ⟨fun hkind hzero => ?_, fun hkind => ?_⟩
  · have hw : ¬ s.WidthsConfigured := fun hw => hzero.elim (hw hkind).1 (hw hkind).2
    exact exec_dmRun_config h ((demodOf_spec _).1.2 hkind) hw
  · have hw : s.WidthsConfigured := fun hpcm => by simp [hpcm] at hkind
    obtain ⟨-, hppm, hpwm, -⟩ := demodOf_spec s.spec.kind
    have hknown : ∃ k, demodOf s.spec.kind = some k :=
      hkind.elim (fun h1 => ⟨.ppm, hppm.2 h1⟩) (fun h2 => ⟨.pwm, hpwm.2 h2⟩)
    obtain ⟨k, hk⟩ := hknown
    rcases exec_dmRun_cases h hk with ⟨hw', -⟩ | ⟨-, -, e⟩ | ⟨-, e⟩
    · exact absurd hw hw'
    · refine ⟨_, e, ?_⟩
      rw [abortedIn_flags, raiseIn_getLsbD]
      simp [Flag.pos]
    · exact ⟨_, e, by rw [runFrom_keepsErrorFlags (by decide), entered_flags]⟩

/-- With SAMPLE_RATE = 0 every width scales to 0 samples (R191). -/
theorem scale_zero_rate (us : Word) : scale us 0 = 0 := by simp [scale]

/-- Settles O35: check E5 is `RateSuffices`, and at rate 0 no width but 0 passes it. -/
theorem runRateTooLow : Obligations.RunRateTooLow := by
  intro s k h hk hw
  refine ⟨fun hr => exec_dmRun_rate h hk hw hr, fun hzero => ?_⟩
  simp only [State.RateSuffices, List.forall_mem_cons, List.not_mem_nil, IsEmpty.forall_iff, implies_true, and_true, hzero,
    scale_zero_rate, ne_eq, not_true_eq_false, imp_false, not_not]

/-! ### The latches of a run (R191, R194) -/

/-- The latches that step E3 takes from the configuration. -/
def State.Latched (s : State) (k : DemodKind) (l : Latches) : Prop :=
  l.kind = k ∧ l.n = s.pt.numPulses ∧ l.sShort = scale s.spec.shortUs s.pt.sampleRate ∧
  l.sLong = scale s.spec.longUs s.pt.sampleRate ∧ l.sSync = scale s.spec.syncUs s.pt.sampleRate ∧
  l.sGap = scale s.spec.gapUs s.pt.sampleRate ∧ l.sReset = scale s.spec.resetUs s.pt.sampleRate ∧
  l.sTol = scale s.spec.tolUs s.pt.sampleRate

theorem abortedIn_latched (f : Flag) : s.Latched k (s.abortedIn k f).lat := by
  rw [abortedIn_lat]
  exact ⟨rfl, rfl, rfl, rfl, rfl, rfl, rfl, rfl⟩

theorem entered_latched : s.Latched k (s.entered k).lat :=
  demodLatches_scaled ((entryE3 k (entryE1 (s.setDone false))).setBb .b0 BitBuffer.empty)

/-- A run works from the latches ENTRY left (R194). -/
theorem runFrom_latched : s.Latched k (runFrom (s.entered k)).lat := by
  rw [(runFrom_follows (s.entered k)).frame.lat]
  exact entered_latched

/-- Settles O36: an abort leaves the latches of E3 and nothing of E6 and E7; a run changes no latch after E7, which keeps those of
E3. -/
theorem runLatchesConfiguration : Obligations.RunLatchesConfiguration := by
  intro s t k h hk ht
  suffices hends : s.Latched k t.lat ∧ t.events = 0 ∧ t.origin = .run ∧ (s.RunStarts ∨ ∃ f, t = s.abortedIn k f) by
    obtain ⟨⟨hkind, hn, hshort, hlong, hsync, hgap, hreset, htol⟩, hevents, horigin, hend⟩ := hends
    refine ⟨hkind, hn, hshort, hlong, hsync, hgap, hreset, htol, hevents, horigin, fun hs => ?_⟩
    obtain ⟨f, rfl⟩ := hend.resolve_left hs
    exact ⟨abortedIn_bb0 f, (abortedIn_phase f).trans h, by rw [abortedIn_lat]; rfl⟩
  rcases exec_dmRun_cases h hk with ⟨-, e⟩ | ⟨-, -, e⟩ | ⟨hs, e⟩ <;> obtain rfl := Host.Outcome.next.inj (e.symm.trans ht)
  · exact ⟨abortedIn_latched _, abortedIn_events _, abortedIn_origin _, .inr ⟨_, rfl⟩⟩
  · exact ⟨abortedIn_latched _, abortedIn_events _, abortedIn_origin _, .inr ⟨_, rfl⟩⟩
  · have hevents := (runFrom_follows (s.entered k)).frame.events
    exact ⟨runFrom_latched, hevents.trans (entered_events s k), runFrom_entered_origin, .inl hs⟩

/-- Settles O38: the two ends of the loop, from CURSOR = 0 and DISPATCHES = 0 with `bb[0]` empty. -/
theorem runEndsIdleOrDispatch : Obligations.RunEndsIdleOrDispatch := by
  intro s t hs ht
  obtain ⟨k, hk⟩ := hs.demod
  obtain rfl := Host.Outcome.next.inj ((exec_dmRun_starts hs hk).symm.trans ht)
  have hloop := runFrom_follows (s.entered k)
  rw [hloop.frame.lat]
  rcases hloop.ends (by simp) with ⟨hph, hcur, hdis, -, hdone, hbb⟩ | ⟨hph, hor, -, hcur, hend, hdata, hdis, hdone, -⟩
  · exact .inl ⟨hph, hcur, hbb (.inr (entered_bb0 s k)), hdis.trans (entered_dispatches s k), hdone⟩
  · rw [entered_dispatches] at hdis
    rw [entered_done] at hdone
    exact .inr ⟨hph, hor, hcur, hend, (hasData_iff _).1 hdata, hdis, hdone⟩

/-- Settles O39: with N = 0 the train is used up at CURSOR = 0. -/
theorem emptyTrainRun : Obligations.EmptyTrainRun := by
  intro s k hs hk hzero
  have hidle : (s.entered k).phase = .idle := by rw [entered_phase]; exact hs.1
  have hused : (s.entered k).lat.n.toNat ≤ (s.entered k).cursor.toNat := by rw [entered_lat_n, hzero, entered_cursor]
  refine ⟨?_, hidle, entered_events s k, entered_dispatches s k, entered_bb0 s k⟩
  rw [exec_dmRun_starts hs hk, runFrom_exhausted hused, endRun_idle hidle]

end Sys2Proof.Machine
end

section
/-! The return from the sink (R214 to R219): AGGREGATE, and where DM_SINKRET leads after DM_STRING and in a run. -/

namespace Sys2Proof.Machine

variable {s : State}

/-- A positive status counts events (R215). -/
theorem aggregate_of_pos {st : Int} (h : 0 < st) (s : State) :
    aggregate st s = { s with
      events := sat32 (s.events.toNat + st.toNat)
      flags := raiseIf (s.events.toNat + st.toNat > 2 ^ 32 - 1) .wCntSat s.flags } :=
  if_pos h

/-- Any other status counts one failure (R215). -/
theorem aggregate_of_nonpos {st : Int} (h : st ≤ 0) (s : State) :
    aggregate st s = { s with
      statFail := s.statFail.write (-st).toNat (sat32 ((s.statFail.read (-st).toNat).toNat + 1))
      flags := raiseIf ((s.statFail.read (-st).toNat).toNat + 1 > 2 ^ 32 - 1) .wCntSat s.flags } :=
  if_neg (by omega)

/-- Settles O47: the two cases of AGGREGATE, a count saturated at 2^32 - 1 in each. -/
theorem sinkStatusAggregated : Obligations.SinkStatusAggregated := by
  intro s st hwf _
  by_cases hpos : 0 < st
  · refine ⟨_, s.statFail, _, aggregate_of_pos hpos s, fun _ => ⟨?_, rfl, ?_⟩, fun h => absurd hpos (by omega)⟩
    · rw [sat32_toNat]
      omega
    · have hover : s.events.toNat + st.toNat > 2 ^ 32 - 1 ↔ (2 ^ 32 - 1 : Int) < s.events.toNat + st := by omega
      simp only [raiseIf, hover, decide_eq_true_eq]
  · refine ⟨s.events, _, _, aggregate_of_nonpos (by omega) s, fun h => absurd h hpos, fun _ => ⟨rfl, fun j => ?_, ?_⟩⟩
    · rw [Memory.read_write hwf]
      by_cases hj : (j : Int) = -st
      · have hj' : j = (-st).toNat := by omega
        rw [if_pos hj, if_pos hj', sat32_toNat, ← hj']
      · rw [if_neg hj, if_neg (by omega)]
    · have hfull : (s.statFail.read (-st).toNat).toNat + 1 > 2 ^ 32 - 1 ↔
          (s.statFail.read (-st).toNat).toNat = 2 ^ 32 - 1 := by
        have := (s.statFail.read (-st).toNat).isLt
        omega
      simp only [raiseIf, hfull, decide_eq_true_eq]

/-- From EVENTS = 0 a 32-bit status leaves `max(s, 0)` (R219). -/
theorem aggregate_events_of_zero (a : Word) (h : s.events = 0) :
    ((aggregate a.toInt s).events.toNat : Int) = max a.toInt 0 := by
  have hzero : s.events.toNat = 0 := by rw [h]; rfl
  by_cases hpos : 0 < a.toInt
  · have hlt := BitVec.toInt_lt (x := a)
    rw [aggregate_of_pos hpos]
    change ((sat32 _).toNat : Int) = _
    rw [sat32_toNat, hzero]
    omega
  · rw [aggregate_of_nonpos (by omega)]
    change (s.events.toNat : Int) = _
    rw [hzero]
    omega

theorem sinkReturn_string (h : s.origin = .string) :
    sinkReturn s = endRun ((aggregate s.arg0.toInt s).setBb .b0 BitBuffer.empty) := by
  rw [sinkReturn, h]
  rfl

theorem sinkReturn_run (h : s.origin = .run) : sinkReturn s = runFrom (resume (aggregate s.arg0.toInt s)) := by
  rw [sinkReturn, h]
  rfl

/-- The first dispatch of a run (R212). -/
theorem dispatch_first (o : Origin) (h : s.dispatches = 0) :
    dispatch o s = { s with dispatches := 1, origin := o, phase := .dispatch } := by
  have hone : sat32 ((0 : Word).toNat + 1) = 1 := by decide
  have hroom : ¬ (0 : Word).toNat = 2 ^ 32 - 1 := by decide
  rw [dispatch_eq, h, hone, if_neg hroom]

/-- Settles O46: DISPATCHES counts from 0 to 1, and the return finds ORIGIN = 1 and EVENTS = 0. -/
theorem stringDispatches : Obligations.StringDispatches := by
  intro s a h t
  refine ⟨?_, fun ha => ?_⟩
  · rw [exec_dmString_idle h, dispatch_first .string rfl]
    rfl
  · refine ⟨_, sinkRet_legal (s := { t with arg0 := a }) rfl ha, ?_⟩
    rw [sinkReturn_string rfl]
    exact ⟨rfl, rfl, aggregate_events_of_zero a rfl⟩

/-- Settles O48: DM_SINKRET is AGGREGATE, CLEAR and then the end or the loop, by ORIGIN. -/
theorem sinkReturnResumes : Obligations.SinkReturnResumes := by
  intro s h ha a
  rw [sinkRet_legal h ha]
  refine ⟨fun ho => ?_, fun ho => ⟨_, rfl, ?_⟩⟩
  · rw [sinkReturn_string (s := s.setDone false) ho]
    rfl
  · rw [sinkReturn_run (s := s.setDone false) ho]
    exact runFrom_follows _

/-- Settles O50: the loop goes on one symbol later, with `bb[0]` empty and everything but the counts of AGGREGATE as it was. -/
theorem sinkReturnMakesProgress : Obligations.SinkReturnMakesProgress := by
  intro s h ho hcur ha
  have hreturn : sinkReturn (s.setDone false) = runFrom (resume (aggregate s.arg0.toInt (s.setDone false))) :=
    sinkReturn_run ho
  have hloop := runFrom_follows (resume (aggregate s.arg0.toInt (s.setDone false)))
  have hnext : (resume (aggregate s.arg0.toInt (s.setDone false))).cursor.toNat = s.cursor.toNat + 1 := by
    simpa using cursor_succ hcur
  have hlat : (resume (aggregate s.arg0.toInt (s.setDone false))).lat = s.lat := by simp
  have hdis : (resume (aggregate s.arg0.toInt (s.setDone false))).dispatches = s.dispatches := by simp
  rw [sinkRet_legal h ha, hreturn]
  refine ⟨_, rfl, hloop.frame.lat.trans hlat, ?_⟩
  have hends := hloop.ends (by rw [hnext, hlat]; omega)
  rw [hnext, hlat, hdis] at hends
  rcases hends with ⟨hph, hend, hcount, -, hdone, hbb⟩ | ⟨hph, -, hlater, hbelow, -, -, hcount, -, hsat⟩
  · exact .inl ⟨hph, hend, hbb (.inr rfl), hcount, hdone⟩
  · exact .inr ⟨hph, by omega, hbelow, by rw [hcount, sat32_toNat], hsat⟩

end Sys2Proof.Machine
end

section
/-! What DM_RUN, DM_STRING and DM_SINKRET leave as it is (R213, R219, R296, R316). -/

namespace Sys2Proof.Machine

variable {s t : State} {k : DemodKind}

theorem SameOutsideRun.refl (s : State) : SameOutsideRun s s := ⟨rfl, rfl, rfl, rfl, rfl, rfl, rfl, rfl, rfl, rfl, rfl⟩

/-- What a run leaves as it was includes what lies outside it. -/
theorem RunFrame.sameOutsideRun {u : State} (h : RunFrame t u) (h' : SameOutsideRun s t) : SameOutsideRun s u := by
  obtain ⟨hcfg, hbb1, hpt, hspec, harg0, harg1, hres1, hpat, hxbuf, hpending, hrdata⟩ := h'
  exact ⟨h.cfg.trans hcfg, h.bb1.trans hbb1, h.pt.trans hpt, h.spec.trans hspec, h.arg0.trans harg0, h.arg1.trans harg1,
    h.res1.trans hres1, h.pat.trans hpat, h.xbuf.trans hxbuf, h.pending.trans hpending, h.rdata.trans hrdata⟩

theorem runFrom_frame (s : State) : RunFrame s (runFrom s) := (runFrom_follows s).frame

/-- From `s` to `t` nothing outside a run changes, nor RES0, nor STAT_FAIL: the frame of DM_RUN. -/
structure SameOutsideStart (s t : State) : Prop where
  outside  : SameOutsideRun s t
  res0     : t.res0 = s.res0
  statFail : t.statFail = s.statFail

/-- The frame of DM_STRING: that of DM_RUN, the latches and `bb[0]`. -/
structure SameOutsideString (s t : State) : Prop extends SameOutsideStart s t where
  lat : t.lat = s.lat
  bb0 : t.bb0 = s.bb0

/-- The frame of DM_SINKRET: the latches too, and RES0 unless it stops the block (R296). -/
structure SameOutsideSinkRet (s t : State) : Prop where
  outside : SameOutsideRun s t
  lat     : t.lat = s.lat
  res0    : t.phase ≠ .fatal → t.res0 = s.res0

theorem SameOutsideStart.refl (s : State) : SameOutsideStart s s := ⟨SameOutsideRun.refl s, rfl, rfl⟩
theorem SameOutsideString.refl (s : State) : SameOutsideString s s := ⟨SameOutsideStart.refl s, rfl, rfl⟩
theorem SameOutsideSinkRet.refl (s : State) : SameOutsideSinkRet s s := ⟨SameOutsideRun.refl s, rfl, fun _ => rfl⟩

/-- A refusal raises a flag, which is in no frame (R292). -/
theorem refuse_sameOutsideString (s : State) (f : Flag) : SameOutsideString s (s.refuse f) :=
  ⟨⟨SameOutsideRun.refl s, rfl, rfl⟩, rfl, rfl⟩

theorem entered_sameOutsideRun : SameOutsideRun s (s.entered k) := by simp [SameOutsideRun]

/-- DM_RUN, aborted or not (R193, R213). -/
theorem runEntry_sameOutsideStart : SameOutsideStart s (runEntry (entryE1 (s.setDone false))) := by
  cases hk : demodOf s.spec.kind with
  | none =>
    rw [runEntry_unknown hk]
    constructor <;> simp [SameOutsideRun]
  | some k =>
    have hframe := runFrom_frame (s.entered k)
    rw [runEntry_known hk]
    split
    · constructor <;> simp [SameOutsideRun]
    · split
      · constructor <;> simp [SameOutsideRun]
      · exact ⟨hframe.sameOutsideRun entered_sameOutsideRun, hframe.res0.trans (entered_res0 s k),
          hframe.statFail.trans (entered_statFail s k)⟩

theorem aggregate_sameOutsideRun (st : Int) : SameOutsideRun s (aggregate st s) := by simp [SameOutsideRun]

/-- DM_SINKRET with a legal status, to either ORIGIN (R214). -/
theorem sinkReturn_sameOutside : SameOutsideSinkRet s (sinkReturn s) := by
  have hcounted := aggregate_sameOutsideRun (s := s) s.arg0.toInt
  cases ho : s.origin with
  | string =>
    rw [sinkReturn_string ho]
    exact ⟨hcounted, aggregate_lat _ s, fun _ => aggregate_res0 _ s⟩
  | run =>
    have hframe := runFrom_frame (resume (aggregate s.arg0.toInt s))
    rw [sinkReturn_run ho]
    exact ⟨hframe.sameOutsideRun hcounted, hframe.lat.trans (aggregate_lat _ s),
      fun _ => hframe.res0.trans (aggregate_res0 _ s)⟩

theorem exec_dmRun_frame (ht : exec .dmRun s = .next t) : SameOutsideStart s t :=
  command_induction (exec_dmRun s) ht (fun _ => runEntry_sameOutsideStart)
    (fun f => (refuse_sameOutsideString s f).toSameOutsideStart) (SameOutsideStart.refl s)

theorem exec_dmString_frame (ht : exec .dmString s = .next t) : SameOutsideString s t := by
  refine command_induction (exec_dmString s) ht (fun _ => ?_) (refuse_sameOutsideString s) (SameOutsideString.refl s)
  exact ⟨⟨by simp [SameOutsideRun], by simp, by simp⟩, by simp, by simp⟩

/-- DM_SINKRET, with a legal status or to the fatal stop (R214, R296). -/
theorem exec_dmSinkRet_frame (ht : exec .dmSinkRet s = .next t) : SameOutsideSinkRet s t := by
  refine command_induction (exec_dmSinkRet s) ht (fun _ => ?_) (fun f => ?_) (SameOutsideSinkRet.refl s)
  · split
    · exact ⟨SameOutsideRun.refl s, rfl, fun h => absurd rfl h⟩
    · obtain ⟨hsame, hlat, hres0⟩ := sinkReturn_sameOutside (s := s.setDone false)
      exact ⟨hsame, hlat, hres0⟩
  · have hrefused := refuse_sameOutsideString s f
    exact ⟨hrefused.outside, hrefused.lat, fun _ => hrefused.res0⟩

/-- Settles O40: the frames of the three commands. -/
theorem runFrame : Obligations.RunFrame := by
  intro s t
  simp only [List.forall_mem_cons, List.not_mem_nil, IsEmpty.forall_iff, implies_true, and_true]
  exact ⟨⟨fun h => (exec_dmRun_frame h).outside, fun h => (exec_dmString_frame h).outside,
      fun h => (exec_dmSinkRet_frame h).outside⟩,
    ⟨fun h => ⟨(exec_dmRun_frame h).res0, (exec_dmRun_frame h).statFail⟩,
      fun h => ⟨(exec_dmString_frame h).res0, (exec_dmString_frame h).statFail⟩⟩,
    ⟨fun h => (exec_dmString_frame h).lat, fun h => (exec_dmSinkRet_frame h).lat⟩,
    fun h => (exec_dmString_frame h).bb0, fun h => (exec_dmSinkRet_frame h).res0⟩

end Sys2Proof.Machine
end

section
/-! A pending dispatch (R200, R298, R324): every access but the reset input and DM_SINKRET leaves it, and the context of its run, as
they are. -/

namespace Sys2Proof.Machine

variable {s t : State}

/-- STATE and what a run goes on from (R298): CURSOR, ORIGIN, the latches and the counts are the same. -/
structure RunContextKept (s t : State) : Prop where
  phase      : t.phase = s.phase
  cursor     : t.cursor = s.cursor
  origin     : t.origin = s.origin
  lat        : t.lat = s.lat
  events     : t.events = s.events
  dispatches : t.dispatches = s.dispatches
  statFail   : t.statFail = s.statFail

/-! ### The commands -/

theorem RunContextKept.refl (s : State) : RunContextKept s s := by constructor <;> rfl

theorem RunContextKept.trans {u : State} (h : RunContextKept s t) (h' : RunContextKept t u) : RunContextKept s u where
  phase      := h'.phase.trans h.phase
  cursor     := h'.cursor.trans h.cursor
  origin     := h'.origin.trans h.origin
  lat        := h'.lat.trans h.lat
  events     := h'.events.trans h.events
  dispatches := h'.dispatches.trans h.dispatches
  statFail   := h'.statFail.trans h.statFail

theorem refuse_keepsContext (s : State) (f : Flag) : RunContextKept s (s.refuse f) := by constructor <;> rfl

theorem setBb_keepsContext (s : State) (b : Buf) (x : BitBuffer) : RunContextKept s (s.setBb b x) := by constructor <;> simp

theorem onBuffer_keepsContext (s : State) (b : Buf) (f : Logged → Logged) : RunContextKept s (s.onBuffer b f) := by
  constructor <;> simp

theorem setRes0_keepsContext (s : State) (v : Word) : RunContextKept s (s.setRes0 v) := by constructor <;> rfl

theorem storeLine_keepsContext (s : State) (b : Buf) (q : LineRun) : RunContextKept s (storeLine b q s) := by
  constructor <;> simp [storeLine]

/-- A BB_ or LD_ command keeps the context if its effect does (R291, R292). -/
theorem buffer_keepsContext {i : Instr} {ok : Bool} {effect : State → State} (hi : exec i s = command .buffer ok effect s)
    (ht : exec i s = .next t) (he : RunContextKept s (effect s)) : RunContextKept s t :=
  command_induction hi ht (fun _ => he) (refuse_keepsContext s) (RunContextKept.refl s)

/-- DM_RUN and DM_STRING are refused while a dispatch is pending (R224). -/
theorem start_keepsContext {i : Instr} {effect : State → State} (hi : exec i s = command .start true effect s)
    (ht : exec i s = .next t) (h : s.phase = .dispatch) : RunContextKept s t := by
  refine command_induction hi ht (fun hv => ?_) (refuse_keepsContext s) (RunContextKept.refl s)
  rw [verdict_start, h] at hv
  cases hv

/-- In DISPATCH every command but DM_SINKRET keeps the context (R298). -/
theorem exec_keepsContext {i : Instr} (h : s.phase = .dispatch) (hi : i ≠ .dmSinkRet) (ht : exec i s = .next t) :
    RunContextKept s t := by
  cases i with
  | bbClear b => exact buffer_keepsContext (exec_bbClear b s) ht (setBb_keepsContext s b _)
  | bbAddBit b v => exact buffer_keepsContext (exec_bbAddBit b v s) ht (onBuffer_keepsContext s b _)
  | bbAddRow b => exact buffer_keepsContext (exec_bbAddRow b s) ht (onBuffer_keepsContext s b _)
  | bbAddSync b => exact buffer_keepsContext (exec_bbAddSync b s) ht (onBuffer_keepsContext s b _)
  | bbInvert b => exact buffer_keepsContext (exec_bbInvert b s) ht (setBb_keepsContext s b _)
  | bbNrzs b => exact buffer_keepsContext (exec_bbNrzs b s) ht (setBb_keepsContext s b _)
  | bbNrzm b => exact buffer_keepsContext (exec_bbNrzm b s) ht (setBb_keepsContext s b _)
  | bbExtract b row => exact buffer_keepsContext (exec_bbExtract b row s) ht (by constructor <;> rfl)
  | bbSearch b row => exact buffer_keepsContext (exec_bbSearch b row s) ht (setRes0_keepsContext s _)
  | bbCmpRows b ra rb => exact buffer_keepsContext (exec_bbCmpRows b ra rb s) ht (setRes0_keepsContext s _)
  | bbCntRep b row => exact buffer_keepsContext (exec_bbCntRep b row s) ht (setRes0_keepsContext s _)
  | bbFindRow b => exact buffer_keepsContext (exec_bbFindRow b s) ht (setRes0_keepsContext s _)
  | bbFindPfx b => exact buffer_keepsContext (exec_bbFindPfx b s) ht (setRes0_keepsContext s _)
  | ldManch b row => exact buffer_keepsContext (exec_ldManch b row s) ht (storeLine_keepsContext s b _)
  | ldDmanch b row => exact buffer_keepsContext (exec_ldDmanch b row s) ht (storeLine_keepsContext s b _)
  | dmRun => exact start_keepsContext (exec_dmRun s) ht h
  | dmString => exact start_keepsContext (exec_dmString s) ht h
  | dmSinkRet => exact absurd rfl hi

/-! ### The step -/

/-- The word of DM_SINKRET is the only one that decodes to it (R93, R95). -/
theorem decode_ne_dmSinkRet {w : Word} (h : w ≠ 0x31000000) : decode w ≠ .ok .dmSinkRet := by
  intro hd
  obtain ⟨-, henc⟩ := encodeDecode w _ hd
  exact h (henc.symm.trans rfl)

theorem refuseReserved_keepsContext (s : State) : RunContextKept s (refuseReserved s) := by
  unfold refuseReserved
  split
  · exact refuse_keepsContext s .eBadCmd
  · exact refuse_keepsContext s .eBadCmd
  all_goals exact RunContextKept.refl s

/-- In DISPATCH every command word but that of DM_SINKRET keeps the context, decoded or reserved (R94, R298). -/
theorem issue_keepsContext {w : Word} (h : s.phase = .dispatch) (hw : w ≠ 0x31000000) (ht : issue w s = .next t) :
    RunContextKept s t := by
  unfold issue at ht
  split at ht
  next i hi => exact exec_keepsContext h (fun e => decode_ne_dmSinkRet hw (e ▸ hi)) ht
  next => exact Host.Outcome.next.inj ht ▸ refuseReserved_keepsContext s

/-- A bus write reaches no part of the context (R72). -/
theorem busWrite_keepsContext (s : State) (a : Nat) (v : Word) : RunContextKept s (busWrite s a v) := by
  obtain ⟨a0, a1, spec, pt, pat, fl, e⟩ := busWrite_changes s a v
  rw [e]
  constructor <;> rfl

theorem takeAccess_keepsContext (rest : List Access) (s : State) : RunContextKept s (takeAccess rest s) := by
  constructor <;> rfl

/-- One step in DISPATCH, by the access that it accepts (R76, R298). -/
theorem step_keepsContext (h : s.phase = .dispatch) (ht : step s = .next t) (hrst : ∀ rest, s.pending ≠ .rst :: rest)
    (hsink : ∀ a w rest, s.pending = .write a w :: rest → a < 4 → w ≠ 0x31000000) : RunContextKept s t := by
  have hrest : s.AtRest := .inr (.inl h)
  rcases hp : s.pending with _ | ⟨_ | ⟨a, v⟩ | a, rest⟩
  case nil =>
    simp only [step, acceptNext, hp] at ht
    cases ht
    constructor <;> rfl
  case cons.rst => exact absurd hp (hrst rest)
  case cons.write =>
    by_cases ha : a < 4
    · rw [step_command hrest hp ha] at ht
      exact (takeAccess_keepsContext rest s).trans (issue_keepsContext h (hsink a v rest hp ha) ht)
    · rw [step_write hrest hp (by omega)] at ht
      exact Host.Outcome.next.inj ht ▸ (takeAccess_keepsContext rest s).trans (busWrite_keepsContext _ a v)
  case cons.read =>
    rw [step_read hrest hp] at ht
    cases ht
    constructor <;> rfl

/-- Settles O56: such a step keeps the context of the run, STATE = DISPATCH with it. -/
theorem dispatchEndsOnlyBySink : Obligations.DispatchEndsOnlyBySink := by
  intro s t h ht hrst hsink
  have hkept := step_keepsContext h ht hrst hsink
  exact ⟨hkept.phase.trans h, hkept.cursor, hkept.origin, hkept.lat, hkept.events, hkept.dispatches, hkept.statFail⟩

end Sys2Proof.Machine
end

section
/-! The PCM demodulator on one symbol (44_demod_pcm.md): SYMBOL and the end of a message (R240 to R243). -/

namespace Sys2Proof.Machine

/-! ### One symbol -/

variable {s : State}

/-- The ones and the zeros of one symbol, appended to `bb[0]` (R240). -/
def State.pcmAppended (s : State) (p g : Nat) : Logged :=
  Logged.addAll s.cfg (List.replicate (pcmOnes s.lat p) true ++ List.replicate (pcmZeros s.lat g) false) (s.bb0, s.flags)

theorem pcmDrops_iff (l : Latches) (p : Nat) :
    pcmDrops l p = true ↔ l.nrz = false ∧ (l.sShort + l.tolEff < p ∨ p + l.tolEff < l.sShort) := by
  have hdist : l.tolEff < dist p l.sShort ↔ l.sShort + l.tolEff < p ∨ p + l.tolEff < l.sShort := by
    rw [← Nat.not_le, dist_le_iff]; omega
  rw [pcmDrops, Bool.and_eq_true, Bool.not_eq_true', decide_eq_true_iff, hdist]

/-- SYMBOL of PCM: the bits are appended, then an RZ pulse outside tolerance drops the frame, or the gap ends the row. -/
theorem pcmSymbol_eq (h : s.phase = .accumulating) (p g : Nat) :
    pcmSymbol p g s =
      if s.lat.nrz = false ∧ (s.lat.sShort + s.lat.tolEff < p ∨ p + s.lat.tolEff < s.lat.sShort) then
        s.withLogged (BitBuffer.empty, raiseIn .wFrameDrop (s.pcmAppended p g).2)
      else if s.lat.gl < g ∧ g ≤ s.lat.sReset then s.withLogged ((s.pcmAppended p g).addRow s.cfg)
      else s.withLogged (s.pcmAppended p g) := by
  have hbits : (s.onBuffer .b0 (Logged.addBits s.cfg true (pcmOnes s.lat p))).onBuffer .b0
      (Logged.addBits s.cfg false (pcmZeros s.lat g)) = s.withLogged (s.pcmAppended p g) := by
    rw [State.pcmAppended, addAll_append, ← addBits_eq_addAll, ← addBits_eq_addAll]
    rfl
  simp only [pcmSymbol, hbits, pcmDrops_iff]
  rw [newRowBy_eq (s := s.withLogged _) h]
  rfl

/-- The zero-count of a gap longer than `S_LONG - S_SHORT` is a rounded quotient, clamped by MAX_ZEROS (R240). -/
theorem pcmZeros_spec (l : Latches) (g : Nat) (h : 0 < l.fLong.den) :
    if g + l.sShort ≤ l.sLong then pcmZeros l g = 0
    else ∃ y : Nat, pcmZeros l g = min y l.maxZeros ∧
      ((2 * y : Int) - 1) * l.fLong.den ≤ 2 * ((g + l.sShort - l.sLong : Nat) * l.fLong.num) ∧
      2 * ((g + l.sShort - l.sLong) * l.fLong.num) < (2 * y + 1) * l.fLong.den := by
  split
  next hg => exact if_pos hg
  next hg => exact ⟨_, if_neg hg, rhu_spec _ _ h⟩

theorem messageEnds_pcm_iff (hk : s.lat.kind = .pcm) (hc : s.cursor.toNat < s.lat.n.toNat) :
    messageEnds s = true ↔ s.cursor.toNat + 1 = s.lat.n.toNat ∨ s.lat.sReset < s.pt.g s.cursor.toNat := by
  rw [messageEnds, Bool.or_eq_true, beq_iff_eq, endsMessage, hk, decide_eq_true_iff]
  omega

/-- Settles O44: the counts are those of the model, the rest is SYMBOL by its branches. -/
theorem pcmSymbolAction : Obligations.PcmSymbolAction := by
  refine ⟨fun s p g last hk => by rw [symbol, hk], fun s hk hc => messageEnds_pcm_iff hk hc,
    fun s p g hph hshort hlong => ?_⟩
  obtain ⟨hk1, hk2⟩ := rhu_spec p s.lat.fShort hshort
  exact ⟨pcmOnes s.lat p, pcmZeros s.lat g, hk1, hk2, pcmZeros_spec s.lat g hlong, pcmSymbol_eq hph p g⟩

end Sys2Proof.Machine
end

section
/-! The calibration of PCM (R231 to R238): which latches the two passes leave, and that these lie within the bounds of what they
average. -/

namespace Sys2Proof.Machine

/-! ### The first pass -/

/-- The calibration took the run of the symbols `a` to `b - 1` over (R236). -/
structure TakesRun (r : Latches) (pt : PulseTrain) (a b : Nat) : Prop where
  preambleLen : r.preambleLen = bitWeight r * (b - a)
  fShort : r.fShort =
    ⟨bitWeight r * (b - a), if r.nrz then periodSum pt (Finset.Ico a b) else pulseSum pt (Finset.Ico a b)⟩
  fLong : r.fLong = ⟨bitWeight r * (b - a), periodSum pt (Finset.Ico a b)⟩

/-- The calibration found no preamble and left what the second pass gives (R237). -/
structure TakesFallback (c : Params) (q : PcmNominal) (r : Latches) (pt : PulseTrain) : Prop where
  noPreamble  : ∀ a b, ¬ Preamble c r pt a b
  preambleLen : r.preambleLen = 0
  fractions   : (r.fShort, r.fLong) = fallback c q pt r.n.toNat

theorem bitWeight_rz {r : Latches} (h : r.nrz = false) : bitWeight r = 1 := if_neg (ne_true_of_eq_false h)

theorem bitWeight_nrz {r : Latches} (h : r.nrz = true) : bitWeight r = 2 := if_pos h

theorem Preamble.start_lt {c : Params} {r : Latches} {pt : PulseTrain} {a b : Nat} (h : Preamble c r pt a b) :
    a < r.n.toNat := h.nonempty.trans_le h.inTrain

theorem Preamble.bits_pos {c : Params} {r : Latches} {pt : PulseTrain} {a b : Nat} (h : Preamble c r pt a b) :
    0 < bitWeight r * (b - a) :=
  Nat.mul_pos (by unfold bitWeight; split <;> decide) (Nat.sub_pos_of_lt h.nonempty)

/-- There is one longest preamble that is the last of its length. -/
theorem BestBelow.unique {c : Params} {r : Latches} {pt : PulseTrain} {a b a' b' : Nat}
    (h : BestBelow c r pt r.n.toNat a b) (h' : BestBelow c r pt r.n.toNat a' b') : a' = a ∧ b' = b := by
  obtain ⟨hp, ha, hbest⟩ := h
  obtain ⟨hp', ha', hbest'⟩ := h'
  have h1 := hbest a' b' hp' ha'
  have h2 := hbest' a b hp ha
  have h3 := hp.nonempty
  have h4 := hp'.nonempty
  omega

section

variable (c : Params) (spec : ModSpec) (pt : PulseTrain) (l : Latches)

/-- The first pass, with the latches of the run as the measure of what matches (R235, R236). -/
theorem pcmPreamble_passAt :
    let q := pcmNominal c spec pt.sampleRate l
    PassAt c (pcmLatches c spec pt l) pt ⟨q.fShort, q.fLong, c.pcmPreambleMin, 0⟩ l.n.toNat
      (pcmPreamble c q pt l.n.toNat) :=
  preamblePass_spec (sameNominal_pcmLatches c spec pt l) pt rfl _ 0 _ (Nat.le_add_left _ _)
    (Or.inl ⟨rfl, fun _ _ _ => Nat.zero_le _⟩) (Or.inl rfl)

/-- What the calibration leaves (R236, R237): the best preamble, or the fallback. -/
theorem pcmLatches_cases :
    let r := pcmLatches c spec pt l
    (∃ a b, BestBelow c r pt r.n.toNat a b ∧ TakesRun r pt a b) ∨
      TakesFallback c (pcmNominal c spec pt.sampleRate l) r pt := by
  intro r
  rcases pcmPreamble_passAt c spec pt l with ⟨hest, hno⟩ | ⟨a, b, hbest, hest⟩
  · have hlen : (pcmPreamble c (pcmNominal c spec pt.sampleRate l) pt l.n.toNat).preambleLen = 0 := by rw [hest]
    exact .inr ⟨fun a b h => absurd (hno a b h) (Nat.not_le.2 h.start_lt), hlen, if_pos hlen⟩
  · have hlen : (pcmPreamble c (pcmNominal c spec pt.sampleRate l) pt l.n.toNat).preambleLen ≠ 0 := by
      rw [hest]
      exact hbest.1.bits_pos.ne'
    refine .inl ⟨a, b, hbest, congrArg Estimate.preambleLen hest, ?_, ?_⟩
    · exact (congrArg Prod.fst (if_neg hlen)).trans (congrArg Estimate.fShort hest)
    · exact (congrArg Prod.snd (if_neg hlen)).trans (congrArg Estimate.fLong hest)

end

/-! ### The second pass -/

theorem fallback_rz (c : Params) {q : PcmNominal} {r : Latches} (hq : SameNominal q r) (pt : PulseTrain) (n : Nat)
    (h : r.nrz = false) :
    fallback c q pt n =
      let m := (Finset.range n).filter (PcmMatches r pt)
      if c.pcmFallbackRz < m.card ∧ 0 < pulseSum pt m ∧ 0 < periodSum pt m then
        (⟨m.card, pulseSum pt m⟩, ⟨m.card, periodSum pt m⟩)
      else (q.fShort, q.fLong) := by
  have hn : q.nrz = false := hq.nrz.trans h
  obtain ⟨h1, h2, h3⟩ := fallbackRzSums_spec q pt n
  have hm : (Finset.range n).filter (fun i => matchRz q pt i = true) = (Finset.range n).filter (PcmMatches r pt) :=
    Finset.filter_congr fun i _ => by rw [← hq.matchSymbol_iff, matchSymbol, hn, if_neg Bool.false_ne_true]
  rw [hm] at h1 h2 h3
  simp only [fallback, hn, h1, h2, h3, Bool.false_eq_true, if_false]

/-- The bit periods the NRZ fallback counts (R237). -/
def equivSum (q : PcmNominal) (pt : PulseTrain) (n : Nat) : Nat :=
  ∑ i ∈ Finset.range n, (pulseEquiv q (pt.p i) + gapEquiv q (pt.g i))

/-- The samples of what the NRZ fallback counts (R237). -/
def countedSum (q : PcmNominal) (pt : PulseTrain) (n : Nat) : Nat :=
  ∑ i ∈ Finset.range n, ((if pulseEquiv q (pt.p i) = 0 then 0 else pt.p i) + (if gapEquiv q (pt.g i) = 0 then 0 else pt.g i))

theorem fallback_nrz (c : Params) {q : PcmNominal} (pt : PulseTrain) (n : Nat) (h : q.nrz = true) :
    fallback c q pt n =
      if c.pcmFallbackNrz < equivSum q pt n ∧ 0 < countedSum q pt n then
        (⟨equivSum q pt n, countedSum q pt n⟩, ⟨equivSum q pt n, countedSum q pt n⟩)
      else (q.fShort, q.fLong) := by
  simp only [fallback, h, if_true, fallbackNrzSums_spec]
  rfl

theorem pulseEquiv_eq (q : PcmNominal) (p : Nat) :
    pulseEquiv q p =
      let k := rhu p q.fShort
      if 1 ≤ k ∧ ((p : Int) - k * q.sShort).natAbs ≤ q.tolEff then k else 0 := by
  simp only [pulseEquiv, dist_eq_natAbs, Nat.cast_mul]

theorem gapEquiv_eq (q : PcmNominal) (g : Nat) :
    gapEquiv q g =
      let k := rhu g q.fLong
      if 1 ≤ k ∧ k ≤ q.maxZeros ∧ ((g : Int) - k * q.sLong).natAbs ≤ q.tolEff then k else 0 := by
  simp only [gapEquiv, dist_eq_natAbs, Nat.cast_mul]

/-! ### What the fractions average -/

/-- The period `1/f` of a fraction lies between two bounds. -/
def Fraction.PeriodWithin (lo hi : ℚ) (f : Fraction) : Prop := lo ≤ (f.den : ℚ) / f.num ∧ (f.den : ℚ) / f.num ≤ hi

/-- The fractions are the means over the matching symbols `m`, each of `bitWeight` bit periods. -/
structure AveragesSymbols (r : Latches) (pt : PulseTrain) (m : Finset Nat) : Prop where
  nonempty : m.Nonempty
  inside   : ∀ i ∈ m, i < r.n.toNat ∧ PcmMatches r pt i
  fShort   : r.fShort = ⟨bitWeight r * m.card, if r.nrz then periodSum pt m else pulseSum pt m⟩
  fLong    : r.fLong = ⟨bitWeight r * m.card, periodSum pt m⟩

theorem TakesRun.averages {c : Params} {r : Latches} {pt : PulseTrain} {a b : Nat} (hp : Preamble c r pt a b)
    (h : TakesRun r pt a b) : AveragesSymbols r pt (Finset.Ico a b) where
  nonempty := Finset.nonempty_Ico.2 hp.nonempty
  inside i hi := by
    obtain ⟨h1, h2⟩ := Finset.mem_Ico.1 hi
    exact ⟨h2.trans_le hp.inTrain, hp.inside i h1 h2⟩
  fShort := by rw [h.fShort, Nat.card_Ico]
  fLong := by rw [h.fLong, Nat.card_Ico]

/-- The RZ fallback keeps the nominal fractions or averages all matching symbols (R237). -/
theorem TakesFallback.rz {c : Params} {q : PcmNominal} {r : Latches} {pt : PulseTrain} (h : TakesFallback c q r pt)
    (hq : SameNominal q r) (hz : r.nrz = false) :
    let m := (Finset.range r.n.toNat).filter (PcmMatches r pt)
    if c.pcmFallbackRz < m.card ∧ 0 < pulseSum pt m ∧ 0 < periodSum pt m then
      r.fShort = ⟨m.card, pulseSum pt m⟩ ∧ r.fLong = ⟨m.card, periodSum pt m⟩
    else r.fShort = q.fShort ∧ r.fLong = q.fLong := by
  have hf := h.fractions.trans (fallback_rz c hq pt _ hz)
  dsimp only at hf ⊢
  split
  next hc => exact Prod.mk.inj (hf.trans (if_pos hc))
  next hc => exact Prod.mk.inj (hf.trans (if_neg hc))

/-- The NRZ fallback keeps the nominal fractions or averages what it counts (R237). -/
theorem TakesFallback.nrz {c : Params} {q : PcmNominal} {r : Latches} {pt : PulseTrain} (h : TakesFallback c q r pt)
    (hz : q.nrz = true) :
    let k := equivSum q pt r.n.toNat
    let w := countedSum q pt r.n.toNat
    if c.pcmFallbackNrz < k ∧ 0 < w then r.fShort = ⟨k, w⟩ ∧ r.fLong = ⟨k, w⟩
    else r.fShort = q.fShort ∧ r.fLong = q.fLong := by
  have hf := h.fractions.trans (fallback_nrz c pt _ hz)
  dsimp only at hf ⊢
  split
  next hc => exact Prod.mk.inj (hf.trans (if_pos hc))
  next hc => exact Prod.mk.inj (hf.trans (if_neg hc))

/-! ### The bounds (R238) -/

/-- A mean over symbols of `k` bit periods each. -/
theorem periodWithin_of_forall {lo hi : ℚ} {k : Nat} (hk : 0 < k) {m : Finset Nat} (hm : m.Nonempty) {x : Nat → Nat}
    (h : ∀ i ∈ m, k * lo ≤ (x i : ℚ) ∧ (x i : ℚ) ≤ k * hi) : Fraction.PeriodWithin lo hi ⟨k * m.card, ∑ i ∈ m, x i⟩ := by
  have hw : ∑ _i ∈ m, k = k * m.card := by rw [Finset.sum_const, smul_eq_mul, Nat.mul_comm]
  have hmean := mean_within (w := fun _ => k) (fun i hi => by simpa only [mul_comm] using h i hi)
    (hw ▸ Nat.mul_pos hk hm.card_pos)
  rwa [hw] at hmean

/-- A pulse or gap of `x` samples that does not count adds nothing on either side of the mean. -/
theorem counted_bounds {lo hi : ℚ} {k x : Nat} (h : k ≠ 0 → lo * k ≤ (x : ℚ) ∧ (x : ℚ) ≤ hi * k) :
    lo * k ≤ ((if k = 0 then 0 else x : ℕ) : ℚ) ∧ ((if k = 0 then 0 else x : ℕ) : ℚ) ≤ hi * k := by
  split
  next hk => simp [hk]
  next hk => exact h hk

/-- A mean over what the NRZ fallback counts (R237). -/
theorem periodWithin_counted {lo hi : ℚ} {q : PcmNominal} {pt : PulseTrain} {n : Nat} (hpos : 0 < equivSum q pt n)
    (hp : ∀ i, i < n → pulseEquiv q (pt.p i) ≠ 0 →
      lo * pulseEquiv q (pt.p i) ≤ (pt.p i : ℚ) ∧ (pt.p i : ℚ) ≤ hi * pulseEquiv q (pt.p i))
    (hg : ∀ i, i < n → gapEquiv q (pt.g i) ≠ 0 →
      lo * gapEquiv q (pt.g i) ≤ (pt.g i : ℚ) ∧ (pt.g i : ℚ) ≤ hi * gapEquiv q (pt.g i)) :
    Fraction.PeriodWithin lo hi ⟨equivSum q pt n, countedSum q pt n⟩ := by
  refine mean_within (a := Finset.range n) (w := fun i => pulseEquiv q (pt.p i) + gapEquiv q (pt.g i))
    (x := fun i => (if pulseEquiv q (pt.p i) = 0 then 0 else pt.p i) + (if gapEquiv q (pt.g i) = 0 then 0 else pt.g i))
    (fun i hi => ?_) hpos
  have hlt := Finset.mem_range.1 hi
  obtain ⟨hp1, hp2⟩ := counted_bounds (hp i hlt)
  obtain ⟨hg1, hg2⟩ := counted_bounds (hg i hlt)
  rw [Nat.cast_add, Nat.cast_add, mul_add, mul_add]
  exact ⟨add_le_add hp1 hg1, add_le_add hp2 hg2⟩

/-- In RZ coding the fractions are nominal, or both average the same matching symbols. -/
theorem rz_nominal_or_averages (c : Params) (spec : ModSpec) (pt : PulseTrain) (l : Latches)
    (hz : (pcmLatches c spec pt l).nrz = false) :
    let q := pcmNominal c spec pt.sampleRate l
    let r := pcmLatches c spec pt l
    (r.fShort = q.fShort ∧ r.fLong = q.fLong) ∨ ∃ m, AveragesSymbols r pt m := by
  rcases pcmLatches_cases c spec pt l with ⟨a, b, hbest, hrun⟩ | hfall
  · exact .inr ⟨_, hrun.averages hbest.1⟩
  · have hf := hfall.rz (sameNominal_pcmLatches c spec pt l) hz
    dsimp only at hf ⊢
    split at hf
    next hc =>
      refine .inr ⟨_, Finset.card_pos.1 (Nat.zero_lt_of_lt hc.1), fun i hi => ?_, ?_, ?_⟩
      · obtain ⟨hlt, hm⟩ := Finset.mem_filter.1 hi
        exact ⟨Finset.mem_range.1 hlt, hm⟩
      · rw [hf.1, bitWeight_rz hz, Nat.one_mul, if_neg (ne_true_of_eq_false hz)]
      · rw [hf.2, bitWeight_rz hz, Nat.one_mul]
    next => exact .inl hf

/-- In RZ coding one matching symbol is one bit period, so the two fractions are bounded each by its own terms (R238). -/
theorem rz_periodWithin {c : Params} {spec : ModSpec} {pt : PulseTrain} {l : Latches} {lo hi : ℚ}
    (hz : (pcmLatches c spec pt l).nrz = false) :
    let q := pcmNominal c spec pt.sampleRate l
    let r := pcmLatches c spec pt l
    (q.fShort.PeriodWithin lo hi →
      (∀ i, i < r.n.toNat → PcmMatches r pt i → lo ≤ (pt.p i : ℚ) ∧ (pt.p i : ℚ) ≤ hi) → r.fShort.PeriodWithin lo hi) ∧
    (q.fLong.PeriodWithin lo hi →
      (∀ i, i < r.n.toNat → PcmMatches r pt i → lo ≤ (pt.p i + pt.g i : ℚ) ∧ (pt.p i + pt.g i : ℚ) ≤ hi) →
      r.fLong.PeriodWithin lo hi) := by
  intro q r
  rcases rz_nominal_or_averages c spec pt l hz with ⟨hs, hl⟩ | ⟨m, hm⟩
  · exact ⟨fun h _ => hs ▸ h, fun h _ => hl ▸ h⟩
  · rw [hm.fShort, hm.fLong, if_neg (ne_true_of_eq_false hz), bitWeight_rz hz]
    refine ⟨fun _ h => periodWithin_of_forall Nat.one_pos hm.nonempty fun i hi => ?_,
      fun _ h => periodWithin_of_forall Nat.one_pos hm.nonempty fun i hi => ?_⟩ <;>
    · obtain ⟨hlt, hmatch⟩ := hm.inside i hi
      simpa using h i hlt hmatch

/-- In NRZ coding a matching symbol is two bit periods, and both fractions are the same mean (R238). -/
theorem nrz_periodWithin {c : Params} {spec : ModSpec} {pt : PulseTrain} {l : Latches} {lo hi : ℚ}
    (hz : (pcmLatches c spec pt l).nrz = true) :
    let q := pcmNominal c spec pt.sampleRate l
    let r := pcmLatches c spec pt l
    q.fShort.PeriodWithin lo hi → q.fLong.PeriodWithin lo hi →
      (∀ i, i < r.n.toNat → PcmMatches r pt i → 2 * lo ≤ (pt.p i + pt.g i : ℚ) ∧ (pt.p i + pt.g i : ℚ) ≤ 2 * hi) →
      (∀ i, i < r.n.toNat → pulseEquiv q (pt.p i) ≠ 0 →
        lo * pulseEquiv q (pt.p i) ≤ (pt.p i : ℚ) ∧ (pt.p i : ℚ) ≤ hi * pulseEquiv q (pt.p i)) →
      (∀ i, i < r.n.toNat → gapEquiv q (pt.g i) ≠ 0 →
        lo * gapEquiv q (pt.g i) ≤ (pt.g i : ℚ) ∧ (pt.g i : ℚ) ≤ hi * gapEquiv q (pt.g i)) →
      r.fShort.PeriodWithin lo hi ∧ r.fLong.PeriodWithin lo hi := by
  intro q r hs hl hsym hpulse hgap
  rcases pcmLatches_cases c spec pt l with ⟨a, b, hbest, hrun⟩ | hfall
  · have hm := hrun.averages hbest.1
    have hmean : Fraction.PeriodWithin lo hi ⟨2 * (Finset.Ico a b).card, periodSum pt (Finset.Ico a b)⟩ :=
      periodWithin_of_forall Nat.two_pos hm.nonempty fun i hi => by
        obtain ⟨hlt, hmatch⟩ := hm.inside i hi
        simpa using hsym i hlt hmatch
    rw [hm.fShort, hm.fLong, if_pos hz, bitWeight_nrz hz]
    exact ⟨hmean, hmean⟩
  · have hf := hfall.nrz hz
    dsimp only at hf
    split at hf
    next hc =>
      have hmean := periodWithin_counted (Nat.zero_lt_of_lt hc.1) hpulse hgap
      rw [hf.1, hf.2]
      exact ⟨hmean, hmean⟩
    next => exact ⟨hf.1 ▸ hs, hf.2 ▸ hl⟩

/-- Settles O45: the two outcomes of the calibration, and the bounds of the means it takes. -/
theorem pcmCalibrationWithinBounds : Obligations.PcmCalibrationWithinBounds := by
  intro c spec pt l r n shortF longF kp kg
  have hkp : kp = fun i => pulseEquiv (pcmNominal c spec pt.sampleRate l) (pt.p i) :=
    funext fun i => (pulseEquiv_eq (pcmNominal c spec pt.sampleRate l) (pt.p i)).symm
  have hkg : kg = fun i => gapEquiv (pcmNominal c spec pt.sampleRate l) (pt.g i) :=
    funext fun i => (gapEquiv_eq (pcmNominal c spec pt.sampleRate l) (pt.g i)).symm
  clear_value kp kg
  subst hkp hkg
  refine ⟨⟨beq_eq_decide .., rfl, rfl, rfl⟩, fun a b hp hlongest => ?_, fun hno => ?_, fun lo hi _ =>
    ⟨rz_periodWithin, nrz_periodWithin⟩⟩
  · rcases pcmLatches_cases c spec pt l with ⟨a', b', hbest, hrun⟩ | hfall
    · obtain ⟨rfl, rfl⟩ := hbest.unique ⟨hp, hp.start_lt, fun a' b' h _ => hlongest a' b' h⟩
      exact ⟨hrun.preambleLen, hrun.fShort, hrun.fLong⟩
    · exact absurd hp (hfall.noPreamble a b)
  · rcases pcmLatches_cases c spec pt l with ⟨a, b, hbest, -⟩ | hfall
    · exact absurd hbest.1 (hno a b)
    · exact ⟨hfall.preambleLen, hfall.rz (sameNominal_pcmLatches c spec pt l), hfall.nrz⟩

end Sys2Proof.Machine
end

section
/-! The PPM demodulator (45_demod_ppm.md): the pulse widths play no part (R252), the windows and SYMBOL (R250 to R255), and a run in
raw mode, bit by bit (R251, R260). -/

namespace Sys2Proof.Machine

/-! ### A command and a change of the state it does not see -/

/-- A command whose effect commutes with a map of the state commutes with it as a whole, if the map keeps STATE, which alone decides
on the admission (R293), and commutes with a refusal (R292). -/
theorem command_commutes {f : State → State} {s t : State} {cls : CommandClass} {ok : Bool} {effect : State → State}
    (hphase : (f s).phase = s.phase) (hrefuse : ∀ e, (f s).refuse e = f (s.refuse e))
    (heffect : verdictOn s.phase cls = .executes → effect (f s) = f (effect s)) (ht : command cls ok effect s = .next t) :
    command cls ok effect (f s) = .next (f t) := by
  rcases command_cases cls ok effect s with ⟨hv, rfl, e⟩ | ⟨hv, rfl, e⟩ | ⟨hv, e⟩ | ⟨hv, e⟩ <;>
    obtain rfl := Host.Outcome.next.inj (e.symm.trans ht)
  · rw [command_executes (by rwa [hphase]) rfl, heffect hv]
  · rw [command_operand_refused (by rwa [hphase]), hrefuse]
  · rw [command_badState (by rwa [hphase]), hrefuse]
  · rcases hv with hv | hv <;> simp only [command, hphase, hv]

/-! ### The pulse widths (R252) -/

/-- The block with other pulse widths in its train. -/
def State.withPulses (m : Memory Word) (s : State) : State := { s with pt := { s.pt with pulse := m } }

section
variable (m : Memory Word) (s : State)

@[simp] theorem withPulses_cfg : (s.withPulses m).cfg = s.cfg := rfl
@[simp] theorem withPulses_bb0 : (s.withPulses m).bb0 = s.bb0 := rfl
@[simp] theorem withPulses_arg0 : (s.withPulses m).arg0 = s.arg0 := rfl
@[simp] theorem withPulses_cursor : (s.withPulses m).cursor = s.cursor := rfl
@[simp] theorem withPulses_lat : (s.withPulses m).lat = s.lat := rfl
@[simp] theorem withPulses_sinkStatus : (s.withPulses m).sinkStatus = s.sinkStatus := rfl

theorem advance_withPulses : advance (s.withPulses m) = (advance s).withPulses m := rfl
theorem resume_withPulses : resume (s.withPulses m) = (resume s).withPulses m := rfl
theorem endRun_withPulses : endRun (s.withPulses m) = (endRun s).withPulses m := rfl
theorem dispatch_withPulses (o : Origin) : dispatch o (s.withPulses m) = (dispatch o s).withPulses m := rfl
theorem raiseFatal_withPulses (v : Word) : raiseFatal v (s.withPulses m) = (raiseFatal v s).withPulses m := rfl
theorem setDone_withPulses (d : Bool) : (s.withPulses m).setDone d = (s.setDone d).withPulses m := rfl
theorem abortRun_withPulses (f : Flag) : abortRun f (s.withPulses m) = (abortRun f s).withPulses m := rfl
theorem entryE1_withPulses : entryE1 (s.withPulses m) = (entryE1 s).withPulses m := rfl
theorem entryE3_withPulses (k : DemodKind) : entryE3 k (s.withPulses m) = (entryE3 k s).withPulses m := rfl
theorem configBad_withPulses : configBad (s.withPulses m) = configBad s := rfl
theorem rateTooLow_withPulses : rateTooLow (s.withPulses m) = rateTooLow s := rfl

theorem aggregate_withPulses (st : Int) : aggregate st (s.withPulses m) = (aggregate st s).withPulses m := by
  unfold aggregate
  split <;> rfl

/-- The latches of PPM come from the widths of E3 alone, not from the train (R251). -/
theorem entered_ppm_withPulses : (s.withPulses m).entered .ppm = (s.entered .ppm).withPulses m := rfl

/-- END reads the gap (R206). -/
theorem messageEnds_withPulses : messageEnds (s.withPulses m) = messageEnds s := rfl

/-- SYMBOL of PPM works from the latches, `bb[0]` and FLAGS (R255). -/
theorem ppmSymbol_withPulses (g : Nat) : ppmSymbol g (s.withPulses m) = (ppmSymbol g s).withPulses m := by
  unfold ppmSymbol
  simp only [apply_ite (State.withPulses m)]
  rfl

end

variable {s t : State} {m : Memory Word}

theorem symbolStep_ppm (hk : s.lat.kind = .ppm) : symbolStep s = ppmSymbol (s.pt.g s.cursor.toNat) (s.setPhase .accumulating) := by
  simp only [symbolStep, symbol, State.setPhase_lat, hk]

/-- A symbol step of PPM takes the gap of its symbol only (R252). -/
theorem symbolStep_withPulses (hk : s.lat.kind = .ppm) : symbolStep (s.withPulses m) = (symbolStep s).withPulses m := by
  rw [symbolStep_ppm hk, symbolStep_ppm (s := s.withPulses m) hk]
  exact ppmSymbol_withPulses m (s.setPhase .accumulating) _

/-- By induction on the symbols left; KIND_L stays PPM all along. -/
theorem runLoop_withPulses (fuel : Nat) (hk : s.lat.kind = .ppm) :
    runLoop fuel (s.withPulses m) = (runLoop fuel s).withPulses m := by
  induction fuel generalizing s with
  | zero => exact endRun_withPulses m s
  | succ fuel ih =>
    have hlat : (symbolStep s).lat = s.lat := (symbolStep_frame s).1.lat
    have hresume := ih (s := resume (symbolStep s)) (by rw [resume_lat, hlat, hk])
    have hadvance := ih (s := advance (symbolStep s)) (by rw [advance_lat, hlat, hk])
    simp only [runLoop, withPulses_cursor, withPulses_lat, withPulses_bb0, messageEnds_withPulses, symbolStep_withPulses hk,
      resume_withPulses, advance_withPulses, dispatch_withPulses, endRun_withPulses, hresume, hadvance,
      apply_ite (State.withPulses m)]

theorem runFrom_withPulses (hk : s.lat.kind = .ppm) : runFrom (s.withPulses m) = (runFrom s).withPulses m :=
  runLoop_withPulses _ hk

/-- ENTRY and the run of PPM: the checks E4 and E5 and the latches read no pulse. -/
theorem runEntry_withPulses (hk : demodOf s.spec.kind = some .ppm) :
    runEntry (entryE1 ((s.withPulses m).setDone false)) = (runEntry (entryE1 (s.setDone false))).withPulses m := by
  rw [runEntry_known hk, runEntry_known (s := s.withPulses m) hk]
  simp only [setDone_withPulses, entryE1_withPulses, entryE3_withPulses, configBad_withPulses, rateTooLow_withPulses,
    abortRun_withPulses, entered_ppm_withPulses, apply_ite (State.withPulses m),
    runFrom_withPulses (s := s.entered .ppm) entered_latched.1]

theorem sinkReturn_withPulses (hk : s.lat.kind = .ppm) : sinkReturn (s.withPulses m) = (sinkReturn s).withPulses m := by
  cases ho : s.origin with
  | string =>
    rw [sinkReturn_string ho, sinkReturn_string (s := s.withPulses m) ho, withPulses_arg0, aggregate_withPulses]
    rfl
  | run =>
    rw [sinkReturn_run ho, sinkReturn_run (s := s.withPulses m) ho, withPulses_arg0, aggregate_withPulses, resume_withPulses]
    exact runFrom_withPulses (by rw [resume_lat, aggregate_lat, hk])

theorem demodOf_ppm (hkind : s.spec.kind = 1) : demodOf s.spec.kind = some .ppm := by rw [hkind]; rfl

/-- Settles O41: the effects of both commands commute with replacing the pulse widths. -/
theorem ppmIgnoresPulses : Obligations.PpmIgnoresPulses := by
  intro s t m other
  refine ⟨fun hkind ht => ?_, fun hk ht => ?_⟩
  · rw [exec_dmRun] at ht ⊢
    exact command_commutes (f := State.withPulses m) rfl (fun _ => rfl)
      (fun _ => runEntry_withPulses (demodOf_ppm hkind)) ht
  · rw [exec_dmSinkRet] at ht ⊢
    refine command_commutes (f := State.withPulses m) rfl (fun _ => rfl) (fun _ => ?_) ht
    simp only [setDone_withPulses, withPulses_sinkStatus, withPulses_cfg, withPulses_arg0, raiseFatal_withPulses,
      sinkReturn_withPulses (s := s.setDone false) hk, apply_ite (State.withPulses m)]

/-! ### The windows and SYMBOL (R250 to R255) -/

/-- Step E7 of PPM writes the six window latches and no other (R251). -/
theorem ppmLatches_frame (l : Latches) : ppmLatches l = { l with
    zeroL := (ppmLatches l).zeroL, zeroU := (ppmLatches l).zeroU, oneL := (ppmLatches l).oneL, oneU := (ppmLatches l).oneU,
    syncL := (ppmLatches l).syncL, syncU := (ppmLatches l).syncU } := by
  unfold ppmLatches
  split <;> rfl

theorem ppmLatches_strict {l : Latches} (h : 0 < l.sTol) : ppmLatches l = { l with
    zeroL := (l.sShort : Int) - l.sTol
    zeroU := .fin ((l.sShort : Int) + l.sTol)
    oneL := (l.sLong : Int) - l.sTol
    oneU := .fin ((l.sLong : Int) + l.sTol)
    syncL := if 0 < l.sSync then (l.sSync : Int) - l.sTol else 0
    syncU := if 0 < l.sSync then .fin ((l.sSync : Int) + l.sTol) else .fin 0 } := if_pos h

/-- The midpoint that parts the bits in raw mode. -/
def Latches.ppmMid (l : Latches) : Nat := (l.sShort + l.sLong) / 2

/-- The upper end of the one-window in raw mode. -/
def Latches.ppmTop (l : Latches) : Nat := if 0 < l.sGap then l.sGap else l.sReset

theorem ppmLatches_raw {l : Latches} (h : l.sTol = 0) : ppmLatches l = { l with
    zeroL := 0
    zeroU := .fin ((l.ppmMid : Int) + 1)
    oneL := l.ppmMid
    oneU := .fin l.ppmTop
    syncL := 0
    syncU := .fin 0 } := by
  have htop : (l.ppmTop : Int) = if 0 < l.sGap then (l.sGap : Int) else l.sReset := by
    unfold Latches.ppmTop
    split <;> rfl
  rw [htop, ppmLatches, if_neg (by omega)]
  rfl

/-- SYMBOL of PPM by the first test that holds (R255). -/
theorem ppmSymbol_eq (h : s.phase = .accumulating) (g : Nat) :
    ppmSymbol g s = s.withLogged
      (if inWindow s.lat.zeroL s.lat.zeroU g then Logged.addBit s.cfg false (s.bb0, s.flags)
      else if inWindow s.lat.oneL s.lat.oneU g then Logged.addBit s.cfg true (s.bb0, s.flags)
      else if inWindow s.lat.syncL s.lat.syncU g then Logged.addSync s.cfg (s.bb0, s.flags)
      else if g < s.lat.sReset then Logged.addRow s.cfg (s.bb0, s.flags)
      else (s.bb0, s.flags)) := by
  simp only [ppmSymbol, newRowBy_eq h, onBuffer_b0, apply_ite s.withLogged]
  rfl

/-- The silence limit of PPM is met by a gap equal to it (R206). -/
theorem messageEnds_ppm_iff (hk : s.lat.kind = .ppm) (hc : s.cursor.toNat < s.lat.n.toNat) :
    messageEnds s = true ↔ s.cursor.toNat + 1 = s.lat.n.toNat ∨ s.lat.sReset ≤ s.pt.g s.cursor.toNat := by
  rw [messageEnds, Bool.or_eq_true, beq_iff_eq, endsMessage, hk, decide_eq_true_iff]
  omega

/-! ### A run in raw mode (R251, R260) -/

/-- A run of PPM with the windows of raw mode around `mid`, over a train whose gaps all lie in one of the two bit windows. -/
structure PpmRaw (l : Latches) (pt : PulseTrain) (mid top : Nat) : Prop where
  kind  : l.kind = .ppm
  zeroL : l.zeroL = 0
  zeroU : l.zeroU = .fin ((mid : Int) + 1)
  oneL  : l.oneL = mid
  oneU  : l.oneU = .fin top
  reset : top ≤ l.sReset
  gaps  : ∀ n, n < l.n.toNat → 0 < pt.g n ∧ pt.g n < top

/-- The bits that `count` symbols from `start` on stand for in raw mode: 1 iff the gap is above the midpoint. -/
def ppmBits (pt : PulseTrain) (mid start count : Nat) : List Bool :=
  (List.range' start count).map fun n => decide (mid < pt.g n)

theorem ppmBits_succ (pt : PulseTrain) (mid start count : Nat) :
    ppmBits pt mid start (count + 1) = decide (mid < pt.g start) :: ppmBits pt mid (start + 1) count := by
  rw [ppmBits, List.range'_succ, List.map_cons, ppmBits]

variable {mid top : Nat}

/-- A symbol in raw mode appends the bit of its gap: the two windows meet at the midpoint. -/
theorem PpmRaw.symbolStep_eq (h : PpmRaw s.lat s.pt mid top) (hc : s.cursor.toNat < s.lat.n.toNat) :
    symbolStep s = (s.setPhase .accumulating).withLogged
      (Logged.addBit s.cfg (decide (mid < s.pt.g s.cursor.toNat)) (s.bb0, s.flags)) := by
  obtain ⟨hpos, htop⟩ := h.gaps _ hc
  rw [symbolStep_ppm h.kind, ppmSymbol_eq rfl]
  simp only [State.setPhase_lat, State.setPhase_cfg, State.setPhase_bb0, State.setPhase_flags, h.zeroL, h.zeroU, h.oneL, h.oneU,
    inWindow_fin, decide_eq_true_eq]
  by_cases hmid : mid < s.pt.g s.cursor.toNat
  · rw [if_neg (by omega), if_pos (by omega), decide_eq_true hmid]
  · rw [if_pos (by omega), decide_eq_false hmid]

/-- No gap of such a train ends the message before its last symbol does. -/
theorem PpmRaw.messageEnds_iff (h : PpmRaw s.lat s.pt mid top) (hc : s.cursor.toNat < s.lat.n.toNat) :
    messageEnds s = true ↔ s.cursor.toNat + 1 = s.lat.n.toNat := by
  have hreset := h.reset
  obtain ⟨-, htop⟩ := h.gaps _ hc
  rw [messageEnds_ppm_iff h.kind hc]
  omega

/-- The loop over the symbols left, by induction on their number: it ends in one dispatch, at the last symbol, with the bit of every
gap appended. -/
theorem PpmRaw.runLoop (k : Nat) (h : PpmRaw s.lat s.pt mid top) (hc : s.cursor.toNat + k + 1 = s.lat.n.toNat)
    (hdata : (Logged.addAll s.cfg (ppmBits s.pt mid s.cursor.toNat (k + 1)) (s.bb0, s.flags)).1.hasData = true) :
    ∃ u, RunLoop s (dispatch .run u) ∧ u.cursor.toNat + 1 = s.lat.n.toNat ∧ u.dispatches = s.dispatches ∧
      u.events = s.events ∧
      (u.bb0, u.flags) = Logged.addAll s.cfg (ppmBits s.pt mid s.cursor.toNat (k + 1)) (s.bb0, s.flags) := by
  induction k generalizing s with
  | zero =>
    have hlt : s.cursor.toNat < s.lat.n.toNat := by omega
    have hstep := h.symbolStep_eq hlt
    refine ⟨symbolStep s, .message hlt ((h.messageEnds_iff hlt).2 hc) ?_, ?_⟩
    · rw [hstep]
      exact hdata
    · rw [hstep]
      exact ⟨hc, rfl, rfl, rfl⟩
  | succ k ih =>
    have hlt : s.cursor.toNat < s.lat.n.toNat := by omega
    have hstep := h.symbolStep_eq hlt
    have hnext : (s.cursor + 1).toNat = s.cursor.toNat + 1 := cursor_succ hlt
    have hgoes : messageEnds s = false := by
      rw [← Bool.not_eq_true, h.messageEnds_iff hlt]
      omega
    rw [ppmBits_succ, addAll_cons, ← hnext] at hdata ⊢
    have hrest : ∀ t, RunLoop (advance (symbolStep s)) t → RunLoop s t := fun t => .symbol hlt hgoes
    have hcount : (s.cursor + 1).toNat + k + 1 = s.lat.n.toNat := by omega
    have ih := ih (s := advance (symbolStep s))
    rw [hstep] at hrest ih
    obtain ⟨u, hloop, hends⟩ := ih h hcount hdata
    exact ⟨u, hrest _ hloop, hends⟩

/-- At least one bit appended to an empty buffer leaves data in it (R131, R207). -/
theorem addAll_hasData {c : Params} (hc : c.Legal) (v : Word) {bits : List Bool} (h : bits ≠ []) :
    (Logged.addAll c bits (BitBuffer.empty, v)).1.hasData = true := by
  have hbits := List.length_pos_iff.2 h
  have hroom : 0 < c.rows * c.slotBits := Nat.mul_pos hc.1 (slotBits_pos hc)
  rw [hasData_iff, (addAll_firstRowHolds hc v bits).len]
  omega

theorem entered_ppm_lat : (s.entered .ppm).lat = ppmLatches (entryE3 .ppm s).lat := by
  simp [entered_lat, demodLatches, entryE3]

/-- ENTRY of a PPM run without tolerance leaves the windows of raw mode (R251). -/
theorem entered_ppmRaw (htol : s.spec.tolUs = 0) (htop : (entryE3 .ppm s).lat.ppmTop ≤ (entryE3 .ppm s).lat.sReset)
    (hgaps : ∀ n, n < s.pt.numPulses.toNat → 0 < s.pt.g n ∧ s.pt.g n < (entryE3 .ppm s).lat.ppmTop) :
    PpmRaw (s.entered .ppm).lat s.pt (entryE3 .ppm s).lat.ppmMid (entryE3 .ppm s).lat.ppmTop := by
  have hzero : (entryE3 .ppm s).lat.sTol = 0 := by simp [entryE3, scale, htol]
  rw [entered_ppm_lat, ppmLatches_raw hzero]
  exact ⟨rfl, rfl, rfl, rfl, rfl, htop, hgaps⟩

/-- A run of DM_RUN in raw mode, from ENTRY with `bb[0]` empty to its one dispatch (R212, R260). -/
theorem exec_dmRun_ppmRaw (hs : s.RunStarts) (hc : s.cfg.Legal) (hk : s.spec.kind = 1) (hn : 0 < s.pt.numPulses.toNat)
    (h : PpmRaw (s.entered .ppm).lat s.pt mid top) :
    ∃ t, exec .dmRun s = .next t ∧ t.phase = .dispatch ∧ t.cursor.toNat + 1 = s.pt.numPulses.toNat ∧
      (t.bb0, t.flags) = Logged.addAll s.cfg (ppmBits s.pt mid 0 s.pt.numPulses.toNat) (BitBuffer.empty, s.flags) ∧
      t.dispatches = 1 ∧ t.events = 0 := by
  obtain ⟨k, hcount⟩ : ∃ k, s.pt.numPulses.toNat = k + 1 := Nat.exists_eq_succ_of_ne_zero (by omega)
  have hdata : (Logged.addAll s.cfg (ppmBits s.pt mid 0 (k + 1)) (BitBuffer.empty, s.flags)).1.hasData = true :=
    addAll_hasData hc s.flags (by simp [ppmBits])
  have hzero : (0 : Word).toNat = 0 := rfl
  have hrun := PpmRaw.runLoop (s := s.entered .ppm) (mid := mid) (top := top) k
  simp only [entered_pt, entered_cfg, entered_bb0, entered_flags, entered_cursor, entered_lat_n, entered_dispatches,
    entered_events, hcount, hzero, Nat.zero_add] at hrun
  obtain ⟨u, hloop, hcursor, hdis, hevents, hbits⟩ := hrun h trivial hdata
  refine ⟨_, exec_dmRun_starts hs (demodOf_ppm hk), ?_⟩
  rw [hloop.unique (runFrom_follows _), dispatch_first .run hdis, hcount]
  exact ⟨rfl, hcursor, hbits, rfl, hevents⟩

/-- Settles O42: the clauses on windows and SYMBOL are the equations above; the run is `PpmRaw.runLoop` from ENTRY. -/
theorem ppmRawRunDecodes : Obligations.PpmRawRunDecodes := by
  refine ⟨fun lo w => ⟨by simp [inWindow_inf], fun hi => by simp [inWindow_fin]⟩,
    fun l => ⟨ppmLatches_frame l, fun h => ?_, fun h => ?_⟩, fun s p g last hph hk => ?_,
    fun s hk hc => messageEnds_ppm_iff hk hc, ?_⟩
  · rw [ppmLatches_strict h]
    exact ⟨rfl, rfl, rfl, rfl, fun hsync => ⟨if_pos hsync, if_pos hsync⟩,
      fun hsync => ⟨if_neg (by omega), if_neg (by omega)⟩⟩
  · rw [ppmLatches_raw h]
    exact ⟨rfl, rfl, rfl, fun hgap => by rw [Latches.ppmTop, if_pos hgap],
      fun hgap => by rw [Latches.ppmTop, if_neg (by omega)], rfl, rfl⟩
  · rw [symbol, hk]
    exact ppmSymbol_eq hph g
  · intro s hs hc hkind htol hn rate mid reset top hreset hgaps out
    have hraw : PpmRaw (s.entered .ppm).lat s.pt mid top := entered_ppmRaw htol hreset hgaps
    obtain ⟨t, ht, hphase, hcursor, hbits, hdis, hevents⟩ := exec_dmRun_ppmRaw hs hc hkind hn hraw
    rw [ppmBits, ← List.range_eq_range'] at hbits
    exact ⟨t, ht, hphase, hcursor, congrArg Prod.fst hbits, congrArg Prod.snd hbits, hdis, hevents⟩

end Sys2Proof.Machine
end

section
/-! The PWM demodulator (46_demod_pwm.md): the bands (R266), SYMBOL and the end of a message (R206, R270 to R272), and that the
bands of the raw layouts leave no pulse above 0 to the resync branch (R273). -/

namespace Sys2Proof.Machine

/-! ### The bands (R266) -/

section
variable {l : Latches}

/-- Step E7 of PWM writes the six window latches and no other. -/
theorem pwmLatches_frame (l : Latches) : pwmLatches l = { l with
    zeroL := (pwmLatches l).zeroL, zeroU := (pwmLatches l).zeroU, oneL := (pwmLatches l).oneL, oneU := (pwmLatches l).oneU,
    syncL := (pwmLatches l).syncL, syncU := (pwmLatches l).syncU } := by
  unfold pwmLatches
  split_ifs <;> rfl

theorem pwmLatches_strict (h : 0 < l.sTol) : pwmLatches l = { l with
    oneL := (l.sShort : Int) - l.sTol
    oneU := .fin ((l.sShort : Int) + l.sTol)
    zeroL := (l.sLong : Int) - l.sTol
    zeroU := .fin ((l.sLong : Int) + l.sTol)
    syncL := if 0 < l.sSync then (l.sSync : Int) - l.sTol else 0
    syncU := if 0 < l.sSync then .fin ((l.sSync : Int) + l.sTol) else .fin 0 } := if_pos h

theorem pwmLatches_noSync (h : l.sTol = 0) (hsync : l.sSync = 0) : pwmLatches l = { l with
    oneL := 0
    oneU := .fin (midpoint l.sShort l.sLong + 1)
    zeroL := midpoint l.sShort l.sLong
    zeroU := .inf
    syncL := 0
    syncU := .fin 0 } := by
  rw [pwmLatches, if_neg (by omega), if_pos hsync]

/-- Layout A: the sync band lies lowest. -/
theorem pwmLatches_layoutA (h : l.sTol = 0) (hsync : 0 < l.sSync) (hlt : l.sSync < l.sShort) : pwmLatches l = { l with
    syncL := 0
    syncU := .fin (midpoint l.sSync l.sShort + 1)
    oneL := midpoint l.sSync l.sShort
    oneU := .fin (midpoint l.sShort l.sLong + 1)
    zeroL := midpoint l.sShort l.sLong
    zeroU := .inf } := by
  rw [pwmLatches, if_neg (by omega), if_neg (by omega), if_pos hlt]

/-- Layout B: the sync band lies between the bit bands. -/
theorem pwmLatches_layoutB (h : l.sTol = 0) (hsync : 0 < l.sSync) (hle : l.sShort ≤ l.sSync) (hlt : l.sSync < l.sLong) :
    pwmLatches l = { l with
      oneL := 0
      oneU := .fin (midpoint l.sShort l.sSync + 1)
      syncL := midpoint l.sShort l.sSync
      syncU := .fin (midpoint l.sSync l.sLong + 1)
      zeroL := midpoint l.sSync l.sLong
      zeroU := .inf } := by
  rw [pwmLatches, if_neg (by omega), if_neg (by omega), if_neg (by omega), if_pos hlt]

/-- Layout C: the sync band lies highest. -/
theorem pwmLatches_layoutC (h : l.sTol = 0) (hsync : 0 < l.sSync) (hshort : l.sShort ≤ l.sSync) (hlong : l.sLong ≤ l.sSync) :
    pwmLatches l = { l with
      oneL := 0
      oneU := .fin (midpoint l.sShort l.sLong + 1)
      zeroL := midpoint l.sShort l.sLong
      zeroU := .fin (midpoint l.sLong l.sSync + 1)
      syncL := midpoint l.sLong l.sSync
      syncU := .inf } := by
  rw [pwmLatches, if_neg (by omega), if_neg (by omega), if_neg (by omega), if_neg (by omega)]

end

/-! ### The bands of the raw layouts, cut at the midpoints -/

variable {p : Nat}

theorem midpoint_lt_iff (a b p : Nat) : midpoint a b < (p : Int) ↔ (a + b) / 2 < p := Int.ofNat_lt

theorem lt_midpoint_succ_iff (a b p : Nat) : (p : Int) < midpoint a b + 1 ↔ p ≤ (a + b) / 2 :=
  Int.lt_add_one_iff.trans Int.ofNat_le

theorem inWindow_lowest (hp : 0 < p) (a b : Nat) : inWindow 0 (.fin (midpoint a b + 1)) p = true ↔ p ≤ (a + b) / 2 := by
  rw [inWindow_fin, decide_eq_true_iff, lt_midpoint_succ_iff]
  omega

theorem inWindow_between (a b c d : Nat) :
    inWindow (midpoint a b) (.fin (midpoint c d + 1)) p = true ↔ (a + b) / 2 < p ∧ p ≤ (c + d) / 2 := by
  rw [inWindow_fin, decide_eq_true_iff, midpoint_lt_iff, lt_midpoint_succ_iff]

theorem inWindow_highest (a b : Nat) : inWindow (midpoint a b) .inf p = true ↔ (a + b) / 2 < p := by
  rw [inWindow_inf, decide_eq_true_iff, midpoint_lt_iff]

/-! ### The pulse (R270) -/

variable {s : State}

/-- Some band contains the pulse. -/
def Latches.PwmCovers (l : Latches) (p : Nat) : Prop :=
  inWindow l.oneL l.oneU p = true ∨ inWindow l.zeroL l.zeroU p = true ∨ inWindow l.syncL l.syncU p = true

/-- A pulse in a band gives the bit or the sync of the first band that contains it; neither of the last two branches is reached. -/
theorem pwmPulse_of_covers (h : s.lat.PwmCovers p) :
    pwmPulse p s =
      if inWindow s.lat.oneL s.lat.oneU p then s.onBuffer .b0 (Logged.addBit s.cfg true)
      else if inWindow s.lat.zeroL s.lat.zeroU p then s.onBuffer .b0 (Logged.addBit s.cfg false)
      else newRowBy (Logged.addSync s.cfg) s := by
  unfold pwmPulse
  refine ite_congr rfl (fun _ => rfl) fun hone => ite_congr rfl (fun _ => rfl) fun hzero => ?_
  exact if_pos ((h.resolve_left hone).resolve_left hzero)

/-- A pulse above ONE_L in no band forces a resync (R273). -/
theorem pwmPulse_resync (hone : inWindow s.lat.oneL s.lat.oneU p = false) (hzero : inWindow s.lat.zeroL s.lat.zeroU p = false)
    (hsync : inWindow s.lat.syncL s.lat.syncU p = false) (hp : s.lat.oneL < (p : Int)) :
    pwmPulse p s = newRowBy (Logged.addRow s.cfg) s := by
  rw [pwmPulse, if_neg (by simp [hone]), if_neg (by simp [hzero]), if_neg (by simp [hsync]), if_neg (by omega)]

/-- The pulse as a change of `bb[0]` and FLAGS. -/
theorem pwmPulse_eq (h : s.phase = .accumulating) (p : Nat) :
    pwmPulse p s = s.withLogged
      (if inWindow s.lat.oneL s.lat.oneU p then Logged.addBit s.cfg true (s.bb0, s.flags)
      else if inWindow s.lat.zeroL s.lat.zeroU p then Logged.addBit s.cfg false (s.bb0, s.flags)
      else if inWindow s.lat.syncL s.lat.syncU p then Logged.addSync s.cfg (s.bb0, s.flags)
      else if (p : Int) ≤ s.lat.oneL then (s.bb0, s.flags)
      else Logged.addRow s.cfg (s.bb0, s.flags)) := by
  simp only [pwmPulse, newRowBy_eq h, onBuffer_b0, apply_ite s.withLogged]
  rfl

/-! ### One symbol and the end of a message (R206, R272) -/

/-- SYMBOL of PWM: what the pulse does, then the row break by a gap that ends no message. -/
theorem pwmSymbol_eq (h : s.phase = .accumulating) {y : Logged} (hy : pwmPulse p s = s.withLogged y) (g : Nat) (last : Bool) :
    pwmSymbol p g last s = s.withLogged
      (if last = false ∧ g ≤ s.lat.sReset ∧ 0 < s.lat.sGap ∧ s.lat.sGap < g then y.addRow s.cfg else y) := by
  rw [pwmSymbol, hy, newRowBy_eq (s := s.withLogged y) h, apply_ite s.withLogged]
  refine if_congr ?_ rfl rfl
  simp [and_assoc]

/-- The silence limit of PWM is passed by a gap above it (R206). -/
theorem messageEnds_pwm_iff (hk : s.lat.kind = .pwm) (hc : s.cursor.toNat < s.lat.n.toNat) :
    messageEnds s = true ↔ s.cursor.toNat + 1 = s.lat.n.toNat ∨ s.lat.sReset < s.pt.g s.cursor.toNat := by
  rw [messageEnds, Bool.or_eq_true, beq_iff_eq, endsMessage, hk, decide_eq_true_iff]
  omega

/-! ### The raw layouts (R273) -/

variable {l : Latches}

/-- The bands of every raw layout cover every pulse above 0: neighbours meet at a midpoint. -/
theorem pwmLatches_raw_covers (h : l.sTol = 0) (hp : 0 < p) : (pwmLatches l).PwmCovers p := by
  unfold Latches.PwmCovers
  rcases Nat.eq_zero_or_pos l.sSync with hsync | hsync
  · simp only [pwmLatches_noSync h hsync, inWindow_lowest hp, inWindow_highest]
    omega
  rcases lt_or_ge l.sSync l.sShort with hshort | hshort
  · simp only [pwmLatches_layoutA h hsync hshort, inWindow_lowest hp, inWindow_between, inWindow_highest]
    omega
  rcases lt_or_ge l.sSync l.sLong with hlong | hlong
  · simp only [pwmLatches_layoutB h hsync hshort hlong, inWindow_lowest hp, inWindow_between, inWindow_highest]
    omega
  · simp only [pwmLatches_layoutC h hsync hshort hlong, inWindow_lowest hp, inWindow_between, inWindow_highest]
    omega

/-- In a raw layout every pulse above 0 gives the bit or the sync of its band. -/
theorem pwmPulse_raw (h : l.sTol = 0) (hl : s.lat = pwmLatches l) (hp : 0 < p) :
    pwmPulse p s =
      if l.sSync = 0 then
        if p ≤ (l.sShort + l.sLong) / 2 then s.onBuffer .b0 (Logged.addBit s.cfg true)
        else s.onBuffer .b0 (Logged.addBit s.cfg false)
      else if l.sSync < l.sShort then
        if (l.sSync + l.sShort) / 2 < p ∧ p ≤ (l.sShort + l.sLong) / 2 then s.onBuffer .b0 (Logged.addBit s.cfg true)
        else if (l.sShort + l.sLong) / 2 < p then s.onBuffer .b0 (Logged.addBit s.cfg false)
        else newRowBy (Logged.addSync s.cfg) s
      else if l.sSync < l.sLong then
        if p ≤ (l.sShort + l.sSync) / 2 then s.onBuffer .b0 (Logged.addBit s.cfg true)
        else if p ≤ (l.sSync + l.sLong) / 2 then newRowBy (Logged.addSync s.cfg) s
        else s.onBuffer .b0 (Logged.addBit s.cfg false)
      else if p ≤ (l.sShort + l.sLong) / 2 then s.onBuffer .b0 (Logged.addBit s.cfg true)
      else if p ≤ (l.sLong + l.sSync) / 2 then s.onBuffer .b0 (Logged.addBit s.cfg false)
      else newRowBy (Logged.addSync s.cfg) s := by
  rw [pwmPulse_of_covers (hl ▸ pwmLatches_raw_covers h hp), hl]
  rcases Nat.eq_zero_or_pos l.sSync with hsync | hsync
  · rw [if_pos hsync]
    simp only [pwmLatches_noSync h hsync, inWindow_lowest hp, inWindow_highest]
    exact ite_congr rfl (fun _ => rfl) fun hone => if_pos (by omega)
  rw [if_neg (c := l.sSync = 0) (by omega)]
  rcases lt_or_ge l.sSync l.sShort with hshort | hshort
  · rw [if_pos hshort]
    simp only [pwmLatches_layoutA h hsync hshort, inWindow_between, inWindow_highest]
  rw [if_neg (c := l.sSync < l.sShort) (by omega)]
  rcases lt_or_ge l.sSync l.sLong with hlong | hlong
  · rw [if_pos hlong]
    simp only [pwmLatches_layoutB h hsync hshort hlong, inWindow_lowest hp, inWindow_highest, ← Nat.not_le, ite_not]
  rw [if_neg (c := l.sSync < l.sLong) (by omega)]
  simp only [pwmLatches_layoutC h hsync hshort hlong, inWindow_lowest hp, inWindow_between]
  exact ite_congr rfl (fun _ => rfl) fun hone => if_congr (and_iff_right (by omega)) rfl rfl

/-- Settles O43: the clauses on bands, SYMBOL and END are the equations above; the raw layouts are `pwmPulse_raw`. -/
theorem pwmRawBandsCover : Obligations.PwmRawBandsCover := by
  refine ⟨fun l => ⟨pwmLatches_frame l, fun h => ?_, fun h hsync => ?_, fun h hsync hlt => ?_, fun h hsync hle hlt => ?_,
      fun h hsync hshort hlong => ?_⟩, fun s p g last hph hk => ?_, fun s hk hc => messageEnds_pwm_iff hk hc,
    fun s p => ⟨fun l h hl hp => pwmPulse_raw h hl hp, fun hone hzero hsync hp => pwmPulse_resync hone hzero hsync hp⟩⟩
  · rw [pwmLatches_strict h]
    exact ⟨rfl, rfl, rfl, rfl, fun hsync => ⟨if_pos hsync, if_pos hsync⟩,
      fun hsync => ⟨if_neg (by omega), if_neg (by omega)⟩⟩
  · rw [pwmLatches_noSync h hsync]
    exact ⟨rfl, rfl, rfl, rfl, rfl, rfl⟩
  · rw [pwmLatches_layoutA h hsync hlt]
    exact ⟨rfl, rfl, rfl, rfl, rfl, rfl⟩
  · rw [pwmLatches_layoutB h hsync hle hlt]
    exact ⟨rfl, rfl, rfl, rfl, rfl, rfl⟩
  · rw [pwmLatches_layoutC h hsync hshort hlong]
    exact ⟨rfl, rfl, rfl, rfl, rfl, rfl⟩
  · rw [symbol, hk]
    exact pwmSymbol_eq hph (pwmPulse_eq hph p) g last

end Sys2Proof.Machine
end

section
/-! Exceptions (60_exceptions.md): every step answers a next state (R287), the refusals with E_BADCMD (R292), and the fatal stop and
the state FATAL (R296, R297). -/

namespace Sys2Proof.Machine

variable {s : State} {i : Instr} {w : Word}

/-! ### The command port (R90, R94) -/

/-- A reserved word is refused by STATE, never executed (R94). -/
theorem issue_reserved (h : ∀ r ∈ opcodeTable, w &&& r.mask ≠ r.pattern) (s : State) :
    issue w s = .next (refuseReserved s) := by
  obtain ⟨e, he⟩ := (reservedIffNoRow.1 w).2 h
  rw [issue, he]

theorem refuseReserved_accepts (h : s.AcceptsBuffer) : refuseReserved s = s.raise .eBadCmd := by
  rcases h with h | h <;> rw [refuseReserved, h] <;> rfl

theorem refuseReserved_fatal (h : s.phase = .fatal) : refuseReserved s = s := by rw [refuseReserved, h]

/-- Every word at the command port answers a next state, decoded or reserved. -/
theorem issue_answers (w : Word) (s : State) : ∃ t, issue w s = .next t := by
  cases hd : decode w with
  | ok i => exact issue_of_decode hd s ▸ exec_answers i s
  | error e => exact ⟨refuseReserved s, by rw [issue, hd]⟩

/-- Settles O6: what the block accepts is a command word, which answers, or an access that is complete. -/
theorem stepAlwaysAnswers : Obligations.StepAlwaysAnswers := by
  intro s
  rw [step]
  cases acceptNext s with
  | command w t => exact issue_answers w t
  | complete t => exact ⟨t, rfl⟩

/-! ### E_BADCMD (R292) -/

theorem rowInRange_of_le {c : Params} {row : Nat} (h : c.rows ≤ row) : rowInRange c row = false :=
  decide_eq_false (Nat.not_lt.2 h)

/-- A BB_ or LD_ command whose operand check fails raises E_BADCMD and does nothing else (R291 check 4, R292). -/
theorem buffer_refused (h : s.AcceptsBuffer) {ok : Bool} {effect : State → State}
    (hi : exec i s = command .buffer ok effect s) (hok : ok = false) : exec i s = .next (s.raise .eBadCmd) := by
  rw [hi, hok, command_operand_refused (verdict_buffer h), State.refuse]

/-- Settles O7: a reserved word decodes to nothing, and the other causes fail the operand check of their command. -/
theorem badCommandRefused : Obligations.BadCommandRefused := by
  intro s b row other hs
  refine ⟨fun a w rest hp ha hw => ?reserved, fun hrow => ?row, fun hlong => ?pattern⟩
  case reserved =>
    rw [step_command hs.atRest hp ha, issue_reserved hw, refuseReserved_accepts (s := takeAccess rest s) hs, takeAccess]
  case row =>
    have hout := rowInRange_of_le hrow
    simp only [List.forall_mem_cons, List.not_mem_nil, IsEmpty.forall_iff, implies_true, and_true]
    exact ⟨buffer_refused hs (exec_bbExtract b row s) hout,
      buffer_refused hs (exec_bbSearch b row s) (by rw [hout, Bool.false_and]),
      buffer_refused hs (exec_bbCmpRows b row other s) (by rw [hout, Bool.false_and]),
      buffer_refused hs (exec_bbCmpRows b other row s) (by rw [hout, Bool.and_false]),
      buffer_refused hs (exec_bbCntRep b row s) hout,
      buffer_refused hs (exec_ldManch b row s) hout,
      buffer_refused hs (exec_ldDmanch b row s) hout⟩
  case pattern =>
    have hover : decide (s.argNat1 ≤ xcapBits s.cfg) = false := decide_eq_false (Nat.not_le.2 hlong)
    exact buffer_refused hs (exec_bbSearch b row s) (by rw [hover, Bool.and_false])

/-! ### The fatal stop (R296) and FATAL (R297) -/

/-- Settles O49: the status fails the range check of DM_SINKRET, whose effect is then `raiseFatal`. -/
theorem sinkOutOfRangeIsFatal : Obligations.SinkOutOfRangeIsFatal := by
  intro s h hlow
  have hstatus : s.sinkStatus < s.cfg.failMin := hlow
  rw [exec_dmSinkRet, command_executes (by rw [h]; rfl) rfl, if_pos hstatus]
  rfl

/-- Settles O9: each arm of `exec` is admitted by the table of R293, whose row FATAL ignores every class. -/
theorem fatalIgnoresCommands : Obligations.FatalIgnoresCommands := by
  intro i s h
  obtain ⟨cls, ok, effect, hi⟩ := exec_is_command i s
  rw [hi, command_fatal h]

/-- In FATAL a command word has no effect, decoded or reserved. -/
theorem issue_fatal (h : s.phase = .fatal) (w : Word) : issue w s = .next s := by
  cases hd : decode w with
  | ok i => rw [issue_of_decode hd, fatalIgnoresCommands i s h]
  | error e => rw [issue, hd, refuseReserved_fatal h]

/-- In FATAL a bus write stores nothing, wherever its address leads (R72). -/
theorem busWrite_fatal (h : s.phase = .fatal) (a : Nat) (v : Word) : busWrite s a v = s := by
  unfold busWrite
  split
  · exact if_pos h
  · rfl

/-- In FATAL a write, to CMD or elsewhere, is taken and has no effect. -/
theorem step_write_fatal {a : Nat} {v : Word} {rest : List Access} (h : s.phase = .fatal)
    (hp : s.pending = .write a v :: rest) : step s = .next (takeAccess rest s) := by
  have hrest : s.AtRest := .inr (.inr h)
  have htaken : (takeAccess rest s).phase = .fatal := h
  rcases Nat.lt_or_ge a 4 with ha | ha
  · rw [step_command hrest hp ha, issue_fatal htaken]
  · rw [step_write hrest hp ha, busWrite_fatal htaken]

/-- Settles O10: the access by its kind; only the reset input gives STATE another value. -/
theorem fatalIsAbsorbing : Obligations.FatalIsAbsorbing := by
  intro s x rest h hp
  refine ⟨decide_eq_true h, ?write, ?read, ?reset⟩
  case write =>
    rintro a v rfl
    exact step_write_fatal h hp
  case read =>
    rintro a rfl
    exact step_read (.inr (.inr h)) hp
  case reset =>
    rintro rfl
    exact ⟨_, step_rst hp, rfl⟩

end Sys2Proof.Machine
end
